-- ==== Sys2Proof/Word.lean ====
section
/-! DEFINITION. The plain data types of the CORE block: bytes, text, the 44-bit DIW, indexes, memory and flags. -/

namespace Sys2Proof

/-- An 8-bit pattern: a register, a memory cell, or one character of text (R9, R22, R30). -/
abbrev Byte := BitVec 8

/-- A byte string: a line, a token, a trace line (R9). -/
abbrev Text := List Byte

/-- The Decoded Instruction Word, 44 bits (R71). -/
abbrev Diw := BitVec 44

/-- A general register's index, 0 to 7 (R21). -/
abbrev RegIdx := Fin 8

/-- A legal memory address, 0 to 63 (R30). -/
abbrev Addr := Fin 64

/-- The data memory as (address, byte) pairs in one canonical form; an unlisted cell holds 0 (R30, R35; log 22). -/
abbrev Memory := List Host.Cell

/-- The flag quadruple `F = {C, O, U, Z}` (R28). -/
structure Flags where
  c : Bool
  o : Bool
  u : Bool
  z : Bool
deriving DecidableEq, Repr

end Sys2Proof
end

