-- ==== Sys2Proof/Config.lean ====
section
/-! DEFINITION. The implementation parameters of R5 that the spec leaves open or names an alternative for, and the model's one free value. -/

namespace Sys2Proof

/-- `DIV_ROUNDING`: rounding of DIV's quotient (R5, R108, D11, I3). -/
inductive DivRounding where
  | towardZero
  | floor
deriving DecidableEq, Repr

/-- `ROTSHIFT_FLAG_BASIS`: the value the flags of ROL, ROR, SHL and SHR come from (R5, R170, D12, I11). -/
inductive FlagBasis where
  | unsigned
  | signed
deriving DecidableEq, Repr

/-- `TRACE_RADIX`: the radix of byte values in the trace and the dump (R5, R196, D21, I13). -/
inductive TraceRadix where
  | hex
  | dec
deriving DecidableEq, Repr

/-- `RESET_IMAGE`: register, memory, flag and counter values at reset (R5, R35, D19, I12). -/
structure ResetImage where
  x     : Vector Byte 8
  mem   : Memory
  flags : Flags
  pc    : BitVec 32
deriving DecidableEq, Repr

/-- The parameters of one machine. No step changes them (log 10). -/
structure Config where
  /-- `LINE_MAX` (OPEN): `none` is unbounded (R78, D24). -/
  lineMax     : Option Nat
  divRounding : DivRounding
  flagBasis   : FlagBasis
  radix       : TraceRadix
  image       : ResetImage
deriving DecidableEq, Repr

/-- `RESET_IMAGE` = all zero, the spec's value (R35, D19; log 9). -/
def ResetImage.zero : ResetImage :=
  { x := Vector.replicate 8 0#8, mem := [], flags := ⟨false, false, false, false⟩, pc := 0#32 }

/-- The parameter values of R5; `LINE_MAX` at the model's default, unbounded. -/
def Config.spec : Config :=
  { lineMax := none, divRounding := .towardZero, flagBasis := .unsigned, radix := .hex, image := .zero }

/-- FREE VALUE (DESIGN CHOICE, log 7): whether a dump request held when `rst` is asserted survives that reset, one value for
each reset, by its number. R116 says a held request waits for the cycle's end and R35 leaves transient items unspecified;
no rule says which. -/
opaque Config.resetKeepsDumpRequest : Nat → Bool

end Sys2Proof
end

