-- ==== Sys2Proof/Syntax.lean ====
section
/-! DEFINITION. The instruction set as syntax: opcodes, operands, the fifteen instructions, and what the decoder produces. -/

namespace Sys2Proof

/-- The fifteen opcodes, in the order of R68's numbers. -/
inductive Opcode where
  | add | sub | mul | div | inc | dec | mov | load | store | rol | ror | shl | shr | input | display
deriving DecidableEq, Repr

/-- An operand descriptor: the ten kinds of R72 with their payloads (R76). -/
inductive Operand where
  /-- kind 0: no token, or a token empty after sanitising -/
  | absent
  /-- kind 1: a register token -/
  | reg (k : RegIdx)
  /-- kind 2: a bare numeric token with its signed value; `WellFormed` asks for [-32768, 32767] -/
  | imm (v : Int)
  /-- kind 3: a bare numeric token outside the immediate range -/
  | numBig
  /-- kind 4: a bracketed numeric token, a direct address -/
  | memDir (a : Addr)
  /-- kind 5: a bracketed numeric token outside 0..63 -/
  | memDirOor
  /-- kind 6: a bracketed register token, an indirect address -/
  | memInd (k : RegIdx)
  /-- kind 7: a register-like token that names no register -/
  | badReg
  /-- kind 8: the same in brackets -/
  | badRegInd
  /-- kind 9: anything else -/
  | badTok
deriving DecidableEq, Repr

/-- The instructions: one constructor per row of spec/opcode_table.json, each with the DIW's two operand
descriptors (R71). An operand an instruction ignores is still part of its DIW (R80). -/
inductive Instr where
  | add (o1 o2 : Operand)
  | sub (o1 o2 : Operand)
  | mul (o1 o2 : Operand)
  | div (o1 o2 : Operand)
  | inc (o1 o2 : Operand)
  | dec (o1 o2 : Operand)
  | mov (o1 o2 : Operand)
  | load (o1 o2 : Operand)
  | store (o1 o2 : Operand)
  | rol (o1 o2 : Operand)
  | ror (o1 o2 : Operand)
  | shl (o1 o2 : Operand)
  | shr (o1 o2 : Operand)
  | input (o1 o2 : Operand)
  | display (o1 o2 : Operand)
deriving DecidableEq, Repr

/-- The decoder's record `Instr(diw, ntok, t1, t2)`: the DIW with its side-band (R70, R71). -/
structure Decoded where
  diw  : Diw
  ntok : Nat
  t1   : Text
  t2   : Text
deriving DecidableEq, Repr

/-- The halt causes of R212; codes 6 and 7 are never set and have no constructor (I5). -/
inductive HaltCause where
  | none | endOfSource | sourceMissing | tooManyTokens | unknownOpcode | lineTooLong
deriving DecidableEq, Repr

/-- What the decoder produces for one line (R70). -/
inductive DecodeOut where
  | noInstr
  | fatal (cause : HaltCause)
  | instr (d : Decoded)
deriving DecidableEq, Repr

end Sys2Proof
end

