-- ==== Sys2Proof/Machine/State.lean ====
section
/-! DEFINITION. The machine's state as plain data, what its ports carry, its fault and refusal reasons, and the state after reset. -/

namespace Sys2Proof.Machine

/-- `run_state[1:0]` (R32): 3 is reserved and never entered, so it has no constructor. -/
inductive RunState where
  | running | waitInput | halted
deriving DecidableEq, Repr

/-- The recoverable error codes (R211). -/
inductive ErrCode where
  | missingOperand | invalidRegister | registerRequired | noRegisterOperand | badOperand
  | invalidAddress | addressRequired | divideByZero | inputInvalid
deriving DecidableEq, Repr

/-- A recoverable error with the text its diagnostic line prints (R8, R200, R211). -/
structure RecErr where
  code : ErrCode
  tok  : Text
deriving DecidableEq, Repr

/-- The loader's answer to one `NEXT_LINE` (R101). -/
inductive SrcAnswer where
  | line (l : Text)
  | eof
  | missing
deriving DecidableEq, Repr

/-- The provider's answer to one `NEXT_TOKEN` (R101, R183): any byte string, or END (I8). -/
inductive InpAnswer where
  | token (b : Text)
  | eof
deriving DecidableEq, Repr

/-- What lands from the host at one step: an answer that was not ready when it was asked for, or an asynchronous input
(R101, R183, R213, R230; log 2). -/
inductive AsyncInput where
  /-- nothing lands: the core acts -/
  | quiet
  /-- `dump_req` is asserted between two actions of the core (R116) -/
  | dumpReq
  /-- `rst` is asserted between two actions of the core (R230) -/
  | rst
  /-- `rst` is asserted inside the core's action, when it has emitted its first `n` outputs (R230) -/
  | rstDuring (n : Nat)
  /-- the loader's answer to a `NEXT_LINE` sent after the `era`-th reset arrives; it is lost if that request was cancelled
  by a later reset, or if no request is outstanding (R231, R235; log 23) -/
  | lineAnswer (era : Nat) (a : SrcAnswer)
  /-- the provider's answer to a `NEXT_TOKEN` sent after the `era`-th reset arrives; it is lost likewise (R183, R231; log 23) -/
  | tokenAnswer (era : Nat) (r : InpAnswer)
deriving DecidableEq, Repr

/-- One transaction the core sends (R101): requests, trace lines (R190) and dump records (R197). -/
inductive Output where
  | nextLine
  | nextToken
  | trace (line : Text)
  | dump (record : List Text)
deriving DecidableEq, Repr

/-- The machine's state. R20 lists the architectural part, R33 the transient part, R101 the ports. -/
structure State where
  /-- general registers `x[0..7]` (R21, R22) -/
  x           : Vector Byte 8
  /-- data memory `mem[0..63]` (R30) -/
  mem         : Memory
  /-- flags `F` (R28) -/
  flags       : Flags
  /-- step counter `pc` (R25 to R27) -/
  pc          : BitVec 32
  /-- `run_state` (R32) -/
  runState    : RunState
  /-- `halt_cause` (R32, R212) -/
  haltCause   : HaltCause
  /-- the transient decoded instruction; in WAIT_INPUT the pending INPUT (R33) -/
  decoded     : Option Decoded
  /-- the pre-instruction memory snapshot (R33, R103) -/
  pre         : Option Memory
  /-- a `NEXT_LINE` request is outstanding (R102, R231) -/
  lineReq     : Bool
  /-- the loader's answers that are ready, one per request; none: a request waits for one to land (R101, R235; log 1) -/
  src         : List SrcAnswer
  /-- the provider's answers that are ready; none: INPUT waits for one to land (R101, R183, I8; log 1) -/
  inp         : List InpAnswer
  /-- held dump requests (R116; log 6) -/
  dumpPending : Nat
  /-- what lands from the host, one entry a step; none left: nothing lands any more (R101, R213; log 2) -/
  async       : List AsyncInput
  /-- the model's own count of resets: it numbers the free value each one takes (log 7), and tells the request an answer is
  for from one that a reset cancelled (R231; log 23) -/
  resets      : Nat
  /-- everything the core has sent, oldest first (R101, R190, R236; log 3) -/
  out         : List Output
  /-- the machine's parameters (R5; log 10) -/
  cfg         : Config
deriving DecidableEq, Repr

/-- Why a step stops the model. -/
inductive Fault where
  /-- Raised by `resumeInput` in WAIT_INPUT when no INPUT is pending; no rule produces such a state (log 18). Safe. -/
  | noPendingInput
deriving DecidableEq, Repr

/-- Why a step has no meaning. -/
inductive Refusal where
  /-- Raised by `exec`'s arm of an instruction that has no meaning yet. Safe. -/
  | notModelled (mnemonic : String)
  /-- Raised by `executeDiw` and `instrTransaction` for a reserved DIW, which no line decodes to (R77, I1, I4; log 17). Safe. -/
  | reservedDiw
deriving DecidableEq, Repr

/-- The machine right after reset (R35), with the spec's parameters, and a host that answers and lands nothing
(logs 1 to 3 and 7 to 10 name the fields R35 gives no value). -/
def State.reset : State :=
  { x := ResetImage.zero.x, mem := ResetImage.zero.mem, flags := ResetImage.zero.flags, pc := ResetImage.zero.pc,
    runState := .running, haltCause := .none, decoded := none, pre := none, lineReq := false,
    src := [], inp := [], dumpPending := 0, async := [], resets := 0, out := [], cfg := .spec }

end Sys2Proof.Machine
end

