-- ==== Sys2Proof/Machine/Flags.lean ====
section
/-! DEFINITION. Signed and unsigned readings of a byte (R7) and the flag unit (R104, R170). -/

namespace Sys2Proof.Machine

/-- R7 `s8`: the signed value of a pattern, -128 to 127. -/
def s8 (b : Byte) : Int := b.toInt

/-- R7 `trunc8`, as the pattern that holds it: the low 8 bits of the two's-complement form of `w`. -/
def trunc8 (w : Int) : Byte := BitVec.ofInt 8 w

/-- R104: the flags of a wide result. -/
def deriveFlags (w : Int) : Flags :=
  let o := decide (w > 127)
  let u := decide (w < -128)
  { c := o || u, o := o, u := u, z := decide (w = 0) }

/-- R170: the flags of a rotate or shift with 8-bit result `n`, on the machine's flag basis. -/
def rotShiftFlags (basis : FlagBasis) (n : Byte) : Flags :=
  match basis with
  | .unsigned => deriveFlags (n.toNat : Int)
  | .signed => deriveFlags (s8 n)

end Sys2Proof.Machine
end

