-- ==== Sys2Proof/Machine/Alu.lean ====
section
/-! DEFINITION. The ALU operations (R106, R108) and the count of a rotate or shift (R165). Wide results are exact integers (R105; log 15). -/

namespace Sys2Proof.Machine

/-- R106 add. -/
def aluAdd (t s : Int) : Int := t + s

/-- R106 sub: destination minus source. -/
def aluSub (t s : Int) : Int := t - s

/-- R106 mul. -/
def aluMul (t s : Int) : Int := t * s

/-- R108 and R106 div: source divided by destination, in the machine's rounding. -/
def aluDiv (rounding : DivRounding) (t s : Int) : Int :=
  match rounding with
  | .towardZero => Int.tdiv s t
  | .floor => Int.fdiv s t

/-- R106 inc. -/
def aluInc (t : Int) : Int := t + 1

/-- R106 dec. -/
def aluDec (t : Int) : Int := t - 1

/-- R106 rotl; a shift by 8 gives 0, so a count of 0 gives `u`. -/
def rotl (u : Byte) (c : Nat) : Byte := (u <<< c) ||| (u >>> (8 - c))

/-- R106 rotr. -/
def rotr (u : Byte) (c : Nat) : Byte := (u >>> c) ||| (u <<< (8 - c))

/-- R106 shl. -/
def shl (u : Byte) (c : Nat) : Byte := u <<< c

/-- R106 shr: logical, zero fill. -/
def shr (u : Byte) (c : Nat) : Byte := u >>> c

/-- R165: the count, Euclidean modulo 8. -/
def count (v : Int) : Nat := (v % 8).toNat

end Sys2Proof.Machine
end

