-- ==== Sys2Proof/WellFormed.lean ====
section
/-! DEFINITION. Which instructions and decoder records are well formed. -/

namespace Sys2Proof

/-- The immediate range `IMM_BITS` = 16 (R5, R74). -/
def immInRange (v : Int) : Bool := decide (-32768 ≤ v) && decide (v ≤ 32767)

/-- An operand's payload is in range: only IMM can fail it, the other ranges are in the types (R72). -/
def Operand.wf : Operand → Bool
  | .imm v => immInRange v
  | _ => true

/-- The two operand descriptors of an instruction (R71). -/
def Instr.operands : Instr → Operand × Operand
  | .add o1 o2 => (o1, o2)
  | .sub o1 o2 => (o1, o2)
  | .mul o1 o2 => (o1, o2)
  | .div o1 o2 => (o1, o2)
  | .inc o1 o2 => (o1, o2)
  | .dec o1 o2 => (o1, o2)
  | .mov o1 o2 => (o1, o2)
  | .load o1 o2 => (o1, o2)
  | .store o1 o2 => (o1, o2)
  | .rol o1 o2 => (o1, o2)
  | .ror o1 o2 => (o1, o2)
  | .shl o1 o2 => (o1, o2)
  | .shr o1 o2 => (o1, o2)
  | .input o1 o2 => (o1, o2)
  | .display o1 o2 => (o1, o2)

/-- A well-formed instruction: both operands are (R71, R72, R74). -/
def Instr.wf (i : Instr) : Bool := i.operands.1.wf && i.operands.2.wf

/-- A byte an operand text may hold: printable, not whitespace, not lower case (R61, R63, R69). -/
def operandByte (b : Byte) : Bool :=
  decide (0x21 ≤ b.toNat) && decide (b.toNat ≤ 0x7E) && !(decide (0x61 ≤ b.toNat) && decide (b.toNat ≤ 0x7A))

/-- The side-band of a decoder record: `ntok` is 1, 2 or 3, an absent text is empty, texts are sanitised (R69, R70). -/
def Decoded.wf (d : Decoded) : Bool :=
  decide (1 ≤ d.ntok) && decide (d.ntok ≤ 3) &&
  (decide (2 ≤ d.ntok) || d.t1.isEmpty) && (decide (3 ≤ d.ntok) || d.t2.isEmpty) &&
  d.t1.all operandByte && d.t2.all operandByte

end Sys2Proof
end

