-- ==== Sys2Proof/Decode.lean ====
section
/-! DEFINITION. The decoder, from a text line to the DIW (R60 to R78), from the DIW to an instruction, and the encoders back. -/

namespace Sys2Proof

/-! ## Text constants and character classes -/

/-- The ASCII bytes of a literal (R9). -/
def ascii (s : String) : Text := s.toList.map fun c => BitVec.ofNat 8 c.toNat

/-- Whitespace: 0x20 and 0x09 to 0x0D (R61). -/
def isSpace (b : Byte) : Bool := b.toNat == 0x20 || (decide (0x09 ≤ b.toNat) && decide (b.toNat ≤ 0x0D))

/-- A separator: whitespace or `,` (R64). -/
def isSep (b : Byte) : Bool := isSpace b || b.toNat == 0x2C

/-- Printable and not whitespace: 0x21 to 0x7E (R61). -/
def isPrint (b : Byte) : Bool := decide (0x21 ≤ b.toNat) && decide (b.toNat ≤ 0x7E)

/-- A lowercase letter, `a` to `z` (R61). -/
def isLower (b : Byte) : Bool := decide (0x61 ≤ b.toNat) && decide (b.toNat ≤ 0x7A)

/-- A decimal digit. -/
def isDigit (b : Byte) : Bool := decide (0x30 ≤ b.toNat) && decide (b.toNat ≤ 0x39)

/-- Upper-casing of `a` to `z`, no other byte (R63). -/
def upper (b : Byte) : Byte := if isLower b then b - 0x20#8 else b

/-! ## The line: comment, trim, case, tokens (R62 to R65, R69) -/

/-- R62: the first `;` and every byte after it are removed. -/
def stripComment (l : Text) : Text := l.takeWhile fun b => b.toNat != 0x3B

/-- R63: leading and trailing whitespace is removed. -/
def trim (l : Text) : Text := ((l.dropWhile isSpace).reverse.dropWhile isSpace).reverse

/-- R62 and R63: the normalised line. -/
def normalise (l : Text) : Text := (trim (stripComment l)).map upper

/-- The runs between separators, empty ones included. -/
def splitSep : Text → List Text
  | [] => [[]]
  | b :: r =>
    if isSep b then [] :: splitSep r
    else match splitSep r with
      | [] => [[b]]
      | t :: ts => (b :: t) :: ts

/-- R65: the maximal non-empty runs of bytes that are no separators. -/
def tokens (l : Text) : List Text := (splitSep l).filter fun t => !t.isEmpty

/-- R69: every byte outside 0x21..0x7E is removed from an operand token. -/
def sanitise (t : Text) : Text := t.filter isPrint

/-! ## Numbers, registers and the classification of an operand (R73 to R75) -/

/-- The number a run of decimal digits spells. -/
def digitsValue (t : Text) : Nat := t.foldl (fun v b => 10 * v + (b.toNat - 0x30)) 0

/-- One or more decimal digits, with their value. -/
def natToken (t : Text) : Option Nat :=
  if !t.isEmpty && t.all isDigit then some (digitsValue t) else none

/-- R73: an optional sign, then one or more decimal digits, with the integer it spells. -/
def numeric : Text → Option Int
  | [] => none
  | b :: r =>
    if b.toNat = 0x2B then (natToken r).map fun n => (n : Int)
    else if b.toNat = 0x2D then (natToken r).map fun n => -(n : Int)
    else (natToken (b :: r)).map fun n => (n : Int)

/-- `R` and one digit 0 to 7: the register's index (R21, R72). -/
def regToken : Text → Option RegIdx
  | [r, d] =>
    if r.toNat = 0x52 ∧ 0x30 ≤ d.toNat then
      if h : d.toNat - 0x30 < 8 then some ⟨d.toNat - 0x30, h⟩ else none
    else none
  | _ => none

/-- `R` and one or more decimal digits (R72, kinds BADREG and BADREG_IND). -/
def rDigits : Text → Bool
  | [] => false
  | r :: ds => r.toNat == 0x52 && !ds.isEmpty && ds.all isDigit

/-- The text between a leading `[` and a trailing `]`, if the token has both (R75). -/
def bracketed : Text → Option Text
  | [] => none
  | b :: r => if b.toNat = 0x5B ∧ (r.getLast?.map BitVec.toNat) = some 0x5D then some r.dropLast else none

/-- R75 for the inner text of a bracketed token. -/
def classifyInner (inner : Text) : Operand :=
  match regToken inner with
  | some k => .memInd k
  | none =>
    if rDigits inner then .badRegInd
    else match numeric inner with
      | some v => if 0 ≤ v then if h : v.toNat < 64 then .memDir ⟨v.toNat, h⟩ else .memDirOor else .memDirOor
      | none => .badTok

/-- R75 for a token that is neither empty, a register, nor bracketed. -/
def classifyBare (t : Text) : Operand :=
  match numeric t with
  | some v => if immInRange v then .imm v else .numBig
  | none => if rDigits t then .badReg else .badTok

/-- R75: the kind and payload of an operand text. It reads no state (R85). -/
def classify (t : Text) : Operand :=
  if t.isEmpty then .absent
  else match regToken t with
    | some k => .reg k
    | none => match bracketed t with
      | some inner => classifyInner inner
      | none => classifyBare t

/-! ## Opcodes (R68) -/

/-- R68: the mnemonic. -/
def Opcode.text : Opcode → Text
  | .add => ascii "ADD"
  | .sub => ascii "SUB"
  | .mul => ascii "MUL"
  | .div => ascii "DIV"
  | .inc => ascii "INC"
  | .dec => ascii "DEC"
  | .mov => ascii "MOV"
  | .load => ascii "LOAD"
  | .store => ascii "STORE"
  | .rol => ascii "ROL"
  | .ror => ascii "ROR"
  | .shl => ascii "SHL"
  | .shr => ascii "SHR"
  | .input => ascii "INPUT"
  | .display => ascii "DISPLAY"

/-- R68: the opcode number `opc`. -/
def Opcode.code : Opcode → BitVec 4
  | .add => 0#4
  | .sub => 1#4
  | .mul => 2#4
  | .div => 3#4
  | .inc => 4#4
  | .dec => 5#4
  | .mov => 6#4
  | .load => 7#4
  | .store => 8#4
  | .rol => 9#4
  | .ror => 10#4
  | .shl => 11#4
  | .shr => 12#4
  | .input => 13#4
  | .display => 14#4

/-- The fifteen opcodes (R2). -/
def Opcode.all : List Opcode :=
  [.add, .sub, .mul, .div, .inc, .dec, .mov, .load, .store, .rol, .ror, .shl, .shr, .input, .display]

/-- R68: the opcode a mnemonic names, byte for byte. -/
def Opcode.ofText (t : Text) : Option Opcode := Opcode.all.find? fun o => o.text == t

/-- R111: the opcode of a number; 15 is reserved (R77). -/
def Opcode.ofCode (c : BitVec 4) : Option Opcode := Opcode.all.find? fun o => o.code == c

/-- The instruction of an opcode and two operand descriptors. -/
def Instr.make : Opcode → Operand → Operand → Instr
  | .add, a, b => .add a b
  | .sub, a, b => .sub a b
  | .mul, a, b => .mul a b
  | .div, a, b => .div a b
  | .inc, a, b => .inc a b
  | .dec, a, b => .dec a b
  | .mov, a, b => .mov a b
  | .load, a, b => .load a b
  | .store, a, b => .store a b
  | .rol, a, b => .rol a b
  | .ror, a, b => .ror a b
  | .shl, a, b => .shl a b
  | .shr, a, b => .shr a b
  | .input, a, b => .input a b
  | .display, a, b => .display a b

/-- The opcode of an instruction. -/
def Instr.opcode : Instr → Opcode
  | .add _ _ => .add
  | .sub _ _ => .sub
  | .mul _ _ => .mul
  | .div _ _ => .div
  | .inc _ _ => .inc
  | .dec _ _ => .dec
  | .mov _ _ => .mov
  | .load _ _ => .load
  | .store _ _ => .store
  | .rol _ _ => .rol
  | .ror _ _ => .ror
  | .shl _ _ => .shl
  | .shr _ _ => .shr
  | .input _ _ => .input
  | .display _ _ => .display

/-! ## The DIW (R71, R72, R76, R77) -/

/-- `opc`, bits [3:0] (R71). -/
def Diw.opc (d : Diw) : BitVec 4 := d.extractLsb' 0 4
/-- `k1`, bits [7:4] (R71). -/
def Diw.k1 (d : Diw) : BitVec 4 := d.extractLsb' 4 4
/-- `p1`, bits [23:8] (R71). -/
def Diw.p1 (d : Diw) : BitVec 16 := d.extractLsb' 8 16
/-- `k2`, bits [27:24] (R71). -/
def Diw.k2 (d : Diw) : BitVec 4 := d.extractLsb' 24 4
/-- `p2`, bits [43:28] (R71). -/
def Diw.p2 (d : Diw) : BitVec 16 := d.extractLsb' 28 16

/-- R71: `diw = {p2, k2, p1, k1, opc}`. -/
def Diw.pack (p2 : BitVec 16) (k2 : BitVec 4) (p1 : BitVec 16) (k1 opc : BitVec 4) : Diw :=
  p2 ++ k2 ++ p1 ++ k1 ++ opc

/-- R72: the kind code. -/
def Operand.kind : Operand → BitVec 4
  | .absent => 0#4
  | .reg _ => 1#4
  | .imm _ => 2#4
  | .numBig => 3#4
  | .memDir _ => 4#4
  | .memDirOor => 5#4
  | .memInd _ => 6#4
  | .badReg => 7#4
  | .badRegInd => 8#4
  | .badTok => 9#4

/-- R76: the payload. -/
def Operand.payload : Operand → BitVec 16
  | .reg k => BitVec.ofNat 16 k.val
  | .imm v => BitVec.ofInt 16 v
  | .memDir a => BitVec.ofNat 16 a.val
  | .memInd k => BitVec.ofNat 16 k.val
  | _ => 0#16

/-- R76, REG and MEMIND: `k = p[2:0]`, and `p[15:3]` must be 0 (R77). -/
def payloadReg (p : BitVec 16) : Option RegIdx := if h : p.toNat < 8 then some ⟨p.toNat, h⟩ else none

/-- R76, MEMDIR: `a = p[5:0]`, and `p[15:6]` must be 0 (R77). -/
def payloadAddr (p : BitVec 16) : Option Addr := if h : p.toNat < 64 then some ⟨p.toNat, h⟩ else none

/-- R76, the kinds without a payload: `p` must be 0 (R77). -/
def payloadNone (p : BitVec 16) (o : Operand) : Option Operand := if p = 0#16 then some o else none

/-- R72 and R76: the operand of a kind and payload; kinds 10 to 15 and stray payload bits are reserved (R77). -/
def decodeOperand (k : BitVec 4) (p : BitVec 16) : Option Operand :=
  match k.toNat with
  | 0 => payloadNone p .absent
  | 1 => (payloadReg p).map .reg
  | 2 => some (.imm p.toInt)
  | 3 => payloadNone p .numBig
  | 4 => (payloadAddr p).map .memDir
  | 5 => payloadNone p .memDirOor
  | 6 => (payloadReg p).map .memInd
  | 7 => payloadNone p .badReg
  | 8 => payloadNone p .badRegInd
  | 9 => payloadNone p .badTok
  | _ => none

/-- The instruction a DIW stands for; `none` for a reserved word (R71, R77, I1, I4). -/
def decodeDiw (d : Diw) : Option Instr :=
  match Opcode.ofCode d.opc, decodeOperand d.k1 d.p1, decodeOperand d.k2 d.p2 with
  | some op, some o1, some o2 => some (Instr.make op o1 o2)
  | _, _, _ => none

/-- The DIW of an instruction (R71, R72, R76). -/
def encodeDiw (i : Instr) : Diw :=
  Diw.pack i.operands.2.payload i.operands.2.kind i.operands.1.payload i.operands.1.kind i.opcode.code

/-! ## The line decoder (R66 to R70, R78) -/

/-- R78: the line is longer than a finite `LINE_MAX`. -/
def tooLong (lineMax : Option Nat) (l : Text) : Bool :=
  match lineMax with
  | none => false
  | some n => decide (n < l.length)

/-- R70: the record of an opcode and its operand tokens, in a line of `ntok` tokens. -/
def decodeTokens (op : Opcode) (ntok : Nat) (args : List Text) : Decoded :=
  let t1 := sanitise (args.headD [])
  let t2 := sanitise ((args.drop 1).headD [])
  { diw := encodeDiw (Instr.make op (classify t1) (classify t2)), ntok := ntok, t1 := t1, t2 := t2 }

/-- The decoder (R70), in the order of R214: the length, then no token, then the count, then the opcode. -/
def decodeLine (lineMax : Option Nat) (l : Text) : DecodeOut :=
  if tooLong lineMax l then .fatal .lineTooLong
  else match tokens (normalise l) with
    | [] => .noInstr
    | op :: args =>
      if 2 < args.length then .fatal .tooManyTokens
      else match Opcode.ofText op with
        | none => .fatal .unknownOpcode
        | some o => .instr (decodeTokens o (args.length + 1) args)

/-! ## From an instruction back to a line (log 19) -/

/-- A decimal digit's byte. -/
def digitByte (n : Nat) : Byte := BitVec.ofNat 8 (0x30 + n)

/-- The decimal digits of `n`, at most `fuel` of them. -/
def decDigits : Nat → Nat → Text
  | 0, _ => []
  | fuel + 1, n => if n < 10 then [digitByte n] else decDigits fuel (n / 10) ++ [digitByte (n % 10)]

/-- `dec(n)`: unsigned decimal, no padding (R191). -/
def decText (n : Nat) : Text := decDigits (n + 1) n

/-- `dec_signed(v)`: signed decimal, a leading `-` for negatives, no padding (R192). -/
def decSigned (v : Int) : Text := if v < 0 then 0x2D#8 :: decText v.natAbs else decText v.natAbs

/-- `R` and the digit of a register. -/
def regText (k : RegIdx) : Text := [0x52#8, digitByte k.val]

/-- A token that classifies as the operand (R72, R75). The byte 0x01 is a token that sanitising empties (R69). -/
def Operand.token : Operand → Text
  | .absent => [0x01#8]
  | .reg k => regText k
  | .imm v => decSigned v
  | .numBig => ascii "32768"
  | .memDir a => 0x5B#8 :: (decText a.val ++ [0x5D#8])
  | .memDirOor => ascii "[64]"
  | .memInd k => 0x5B#8 :: (regText k ++ [0x5D#8])
  | .badReg => ascii "R8"
  | .badRegInd => ascii "[R8]"
  | .badTok => ascii "X"

/-- A line that decodes to the instruction: trailing absent operands are left out (R79). -/
def assemble (i : Instr) : Text :=
  match i.operands with
  | (.absent, .absent) => i.opcode.text
  | (o1, .absent) => i.opcode.text ++ 0x20#8 :: o1.token
  | (o1, o2) => i.opcode.text ++ 0x20#8 :: (o1.token ++ 0x20#8 :: o2.token)

/-- The instruction the decoder reads from a DIW given as a number, bit 0 the least significant (R6, R71; log 19). -/
def decodeTableWord (nbits w : Nat) : Option Instr :=
  if w < 2 ^ nbits ∧ w < 2 ^ 44 then decodeDiw (BitVec.ofNat 44 w) else none

end Sys2Proof
end

