-- ==== Sys2Proof/Machine/Memory.lean ====
section
/-! DEFINITION. The data memory: reading one cell, writing one cell, and the canonical form. -/

namespace Sys2Proof

/-- The pattern at key `a`; an unlisted cell holds 0 (R41; log 22). -/
def Memory.read : Memory → Nat → Byte
  | [], _ => 0#8
  | (k, b) :: r, a => if k = a then b else Memory.read r a

/-- The memory with `b` at key `a` (R42), kept in canonical form: a zero is not listed. -/
def Memory.write : Memory → Nat → Byte → Memory
  | [], a, b => if b = 0#8 then [] else [(a, b)]
  | (k, c) :: r, a, b =>
    if k < a then (k, c) :: Memory.write r a b
    else if k = a then (if b = 0#8 then r else (a, b) :: r)
    else (if b = 0#8 then (k, c) :: r else (a, b) :: (k, c) :: r)

/-- Canonical from key `lo` up: addresses rise strictly, stay below 64 (R30), and no listed cell is 0. -/
def Memory.wfFrom : Nat → Memory → Bool
  | _, [] => true
  | lo, (k, b) :: r => decide (lo ≤ k) && decide (k < 64) && b != 0#8 && Memory.wfFrom (k + 1) r

/-- The canonical form of memory. -/
def Memory.wf (m : Memory) : Bool := Memory.wfFrom 0 m

end Sys2Proof
end

