-- ==== Sys2Proof/Machine/Trace.lean ====
section
/-! DEFINITION. The trace formatter and state dumper (R190 to R200) and the names and numbers of the status fields (R32, R211, R212). -/

namespace Sys2Proof.Machine

/-- `hh` digit: an uppercase hexadecimal digit (R9, R196). -/
def hexDigit (n : Nat) : Byte := if n < 10 then BitVec.ofNat 8 (0x30 + n) else BitVec.ofNat 8 (0x37 + n)

/-- R196: a byte as two hexadecimal digits; with `TRACE_RADIX` = 10, decimal padded to at least two digits. -/
def hh (radix : TraceRadix) (b : Byte) : Text :=
  match radix with
  | .hex => [hexDigit (b.toNat / 16), hexDigit (b.toNat % 16)]
  | .dec => if b.toNat < 10 then 0x30#8 :: decText b.toNat else decText b.toNat

/-- The texts with one space between them. -/
def joinSpace : List Text → Text
  | [] => []
  | [t] => t
  | t :: ts => t ++ 0x20#8 :: joinSpace ts

/-- R211: the error's name. -/
def ErrCode.text : ErrCode → Text
  | .missingOperand => ascii "E_MISSING_OPERAND"
  | .invalidRegister => ascii "E_INVALID_REGISTER"
  | .registerRequired => ascii "E_REGISTER_REQUIRED"
  | .noRegisterOperand => ascii "E_NO_REGISTER_OPERAND"
  | .badOperand => ascii "E_BAD_OPERAND"
  | .invalidAddress => ascii "E_INVALID_ADDRESS"
  | .addressRequired => ascii "E_ADDRESS_REQUIRED"
  | .divideByZero => ascii "E_DIVIDE_BY_ZERO"
  | .inputInvalid => ascii "E_INPUT_INVALID"

/-- R211: the error's number. -/
def ErrCode.number : ErrCode → Nat
  | .missingOperand => 1
  | .invalidRegister => 2
  | .registerRequired => 3
  | .noRegisterOperand => 4
  | .badOperand => 5
  | .invalidAddress => 6
  | .addressRequired => 7
  | .divideByZero => 8
  | .inputInvalid => 9

/-- R212: the cause's name. -/
def causeText : HaltCause → Text
  | .none => ascii "NONE"
  | .endOfSource => ascii "END_OF_SOURCE"
  | .sourceMissing => ascii "SOURCE_MISSING"
  | .tooManyTokens => ascii "TOO_MANY_TOKENS"
  | .unknownOpcode => ascii "UNKNOWN_OPCODE"
  | .lineTooLong => ascii "LINE_TOO_LONG"

/-- R212: `halt_cause[2:0]`. -/
def causeCode : HaltCause → BitVec 3
  | .none => 0#3
  | .endOfSource => 1#3
  | .sourceMissing => 2#3
  | .tooManyTokens => 3#3
  | .unknownOpcode => 4#3
  | .lineTooLong => 5#3

/-- R32: `run_state[1:0]`. -/
def RunState.code : RunState → BitVec 2
  | .running => 0#2
  | .waitInput => 1#2
  | .halted => 2#2

/-- The status port `run_state` (R32, R101). -/
def State.runStatePort (s : State) : BitVec 2 := s.runState.code

/-- The status port `halt_cause` (R32, R101). -/
def State.haltCausePort (s : State) : BitVec 3 := causeCode s.haltCause

/-- R191: the step header. -/
def headerLine (pc : BitVec 32) (op : Opcode) (d : Decoded) : Text :=
  ascii "Step " ++ decText pc.toNat ++ ascii ": " ++ op.text ++
    ((if 2 ≤ d.ntok then 0x20#8 :: d.t1 else []) ++ (if d.ntok = 3 then ascii ", " ++ d.t2 else []))

/-- R193: the register line. -/
def registerLine (radix : TraceRadix) (x : Vector Byte 8) : Text :=
  joinSpace (x.toList.map (hh radix)) ++ ascii " #"

/-- R194: the addresses whose cell differs from the snapshot, ascending. -/
def changedCells (pre now : Memory) : List Nat :=
  (List.range 64).filter fun a => Memory.read now a != Memory.read pre a

/-- R194: one changed cell, decimal address and rendered value. -/
def diffLine (radix : TraceRadix) (now : Memory) (a : Nat) : Text :=
  decText a ++ ascii " = " ++ hh radix (Memory.read now a)

/-- R194: the memory diff. -/
def diffLines (radix : TraceRadix) (pre now : Memory) : List Text :=
  match changedCells pre now with
  | [] => [ascii "Memory unchanged"]
  | as => as.map (diffLine radix now)

/-- R195: the fatal line; a missing source has no line number. -/
def fatalLine (c : HaltCause) (pc : BitVec 32) : Text :=
  match c with
  | .sourceMissing => ascii "FATAL: " ++ causeText c
  | _ => ascii "FATAL line " ++ decText pc.toNat ++ ascii ": " ++ causeText c

/-- R200: the diagnostic line. -/
def diagLine (op : Opcode) (e : RecErr) : Text :=
  ascii "ERROR " ++ e.code.text ++ ascii ": " ++ op.text ++ 0x20#8 :: e.tok

/-- A flag as 0 or 1 (R197). -/
def flagText (b : Bool) : Text := if b then ascii "1" else ascii "0"

/-- R197: row `r` of the memory dump. -/
def memRow (radix : TraceRadix) (m : Memory) (r : Nat) : Text :=
  joinSpace ((List.range 8).map fun j => hh radix (Memory.read m (8 * r + j)))

/-- R197: the fourteen lines of a dump. -/
def dumpRecord (s : State) : List Text :=
  [registerLine s.cfg.radix s.x,
   joinSpace [flagText s.flags.c, flagText s.flags.o, flagText s.flags.u, flagText s.flags.z],
   decText s.pc.toNat, [], ascii "Memory"] ++
  (List.range 8).map (memRow s.cfg.radix s.mem) ++ [ascii "#"]

/-- A text stream as bytes: each line ends with LF (R190, R197). -/
def serialise (lines : List Text) : Text := lines.flatMap fun l => l ++ [0x0A#8]

/-- The `trace` port: the trace lines in order (R190). -/
def State.trace (s : State) : List Text :=
  s.out.filterMap fun o => match o with
    | .trace l => some l
    | _ => none

/-- The `dump` port: the dump records in order (R101, R197). -/
def State.dumps (s : State) : List (List Text) :=
  s.out.filterMap fun o => match o with
    | .dump d => some d
    | _ => none

end Sys2Proof.Machine
end

