-- ==== Sys2Proof/Machine/Ops.lean ====
section
/-! DEFINITION. The named operations over registers, memory and the output, raising an error (R109, R110), and reset (R230).
There is no return from an error: no handler exists (R216). -/

namespace Sys2Proof.Machine

/-! ## Registers, memory, output (R8) -/

/-- The pattern of register `k`, `u8(x[k])` (R7, R22). -/
def State.reg (s : State) (k : RegIdx) : Byte := s.x.get k

/-- `x[k]`: the signed value of register `k` (R8, R22). -/
def State.regVal (s : State) (k : RegIdx) : Int := s8 (s.reg k)

/-- `MemRead(a, 1)` (R41). -/
def State.memRead (s : State) (a : Addr) : Byte := Memory.read s.mem a.val

/-- `MemWrite(a, 1, b)` (R42). -/
def State.memWrite (s : State) (a : Addr) (b : Byte) : State := { s with mem := Memory.write s.mem a.val b }

/-- A register write with its flags: the register file's one write port and `F` written together (R28, R107). -/
def State.writeResult (s : State) (k : RegIdx) (b : Byte) (f : Flags) : State :=
  { s with x := s.x.set k.val b k.isLt, flags := f }

/-- R107: `x[dst] <- trunc8(w); F <- deriveFlags(w)`. -/
def State.writeBack (s : State) (k : RegIdx) (w : Int) : State := s.writeResult k (trunc8 w) (deriveFlags w)

/-- One more transaction on an output port (R8, R101, R190). -/
def State.emit (s : State) (o : Output) : State := { s with out := s.out ++ [o] }

/-- `Emit(line)` (R8). -/
def State.emitLine (s : State) (l : Text) : State := s.emit (.trace l)

/-- `Emit` of several lines in order. -/
def State.emitLines (s : State) (ls : List Text) : State := { s with out := s.out ++ ls.map .trace }

/-- One dump record of the current state (R197). -/
def State.emitDump (s : State) : State := s.emit (.dump (dumpRecord s))

/-! ## Errors (R109, R110) -/

/-- R109: raising a fatal error: the fatal line, a dump, then HALTED with the cause. -/
def State.raiseFatal (s : State) (c : HaltCause) : State :=
  { (s.emitLine (fatalLine c s.pc)).emitDump with runState := .halted, haltCause := c }

/-- R102: the normal end of a run: a dump, then HALTED with END_OF_SOURCE. -/
def State.endRun (s : State) : State :=
  { s.emitDump with runState := .halted, haltCause := .endOfSource }

/-- R110 and R103: a recoverable error changes nothing but the trace, which gets the diagnostic line. -/
def State.recover (s : State) (op : Opcode) (e : RecErr) : State := s.emitLine (diagLine op e)

/-- The outcome of an instruction that ended in `r`: its new state, or the recoverable error raised (R103, R110). -/
def complete (op : Opcode) (s : State) (r : Except RecErr State) : Host.Outcome State Fault Refusal :=
  match r with
  | .ok s' => .next s'
  | .error e => .next (s.recover op e)

/-! ## Answers that land (R101, R183, R231) -/

/-- The loader's answer to a request of era `n` arrives: it answers the `NEXT_LINE` outstanding if that is of the same era;
an answer to a request that a reset cancelled, or to none, is lost (R231, R235; log 23). -/
def State.landLine (s : State) (n : Nat) (a : SrcAnswer) : State :=
  { s with src := if n == s.resets && s.lineReq && s.src.isEmpty then [a] else s.src }

/-- The provider's answer to a request of era `n` arrives: it answers the waiting INPUT's `NEXT_TOKEN` if that is of the same
era; an answer to a request that a reset cancelled, or to none, is lost (R183, R231; log 23). -/
def State.landToken (s : State) (n : Nat) (r : InpAnswer) : State :=
  { s with inp := if n == s.resets && s.runState == .waitInput && s.inp.isEmpty then [r] else s.inp }

/-! ## Reset (R230) -/

/-- R230, R35: every piece of state at its reset value; the trace stays; a port request is cancelled, and an answer to it
that the core has not taken is lost (R231). The host's other answers are not the core's to reset. -/
def State.applyReset (s : State) : State :=
  { s with
    x := s.cfg.image.x, mem := s.cfg.image.mem, flags := s.cfg.image.flags, pc := s.cfg.image.pc,
    runState := .running, haltCause := .none, decoded := none, pre := none, lineReq := false,
    src := if s.lineReq then s.src.tail else s.src
    inp := if s.runState == .waitInput then s.inp.tail else s.inp
    dumpPending := if Config.resetKeepsDumpRequest s.resets then s.dumpPending else 0
    resets := s.resets + 1 }

/-- R230: `s` with only the first `n` outputs of the action that led to `t`, and the answers that action had asked
for by then (log 25). `applyReset` follows at once. -/
def State.abandonAfter (s t : State) (n : Nat) : State :=
  let kept := (t.out.drop s.out.length).take n
  { t with
    out := s.out ++ kept
    src := if s.lineReq || kept.contains .nextLine then t.src else s.src
    inp := if s.runState == .waitInput || kept.contains .nextToken then t.inp else s.inp
    dumpPending := if kept.isEmpty then s.dumpPending else t.dumpPending }

end Sys2Proof.Machine
end

