-- ==== Sys2Proof/Machine/Operands.lean ====
section
/-! DEFINITION. The operand resolver and its read multiplexer: `reqReg`, `value`, `address`, and the pairing of ADD, SUB, MUL and DIV (R81 to R84, R130). -/

namespace Sys2Proof.Machine

/-- The sanitised text of operand 1 of the instruction being executed (R69, R70; log 21). -/
def State.text1 (s : State) : Text := match s.decoded with
  | some d => d.t1
  | none => []

/-- The sanitised text of operand 2 of the instruction being executed. -/
def State.text2 (s : State) : Text := match s.decoded with
  | some d => d.t2
  | none => []

/-- The text a diagnostic names an operand by: `<none>` when it is ABSENT (R200, 30_encoding.md §4). -/
def operandTok (o : Operand) (t : Text) : Text := if o = .absent then ascii "<none>" else t

/-- `raise RecErr(code, t)` for operand `o` (R8, R81 to R83). -/
def fail {α : Type} (code : ErrCode) (o : Operand) (t : Text) : Except RecErr α :=
  .error ⟨code, operandTok o t⟩

/-- R81: a register operand's index. -/
def reqReg (o : Operand) (t : Text) : Except RecErr RegIdx :=
  match o with
  | .reg k => .ok k
  | .absent => fail .missingOperand o t
  | .badReg => fail .invalidRegister o t
  | .imm _ => fail .registerRequired o t
  | .numBig => fail .registerRequired o t
  | .memDir _ => fail .registerRequired o t
  | .memDirOor => fail .registerRequired o t
  | .memInd _ => fail .registerRequired o t
  | .badRegInd => fail .registerRequired o t
  | .badTok => fail .registerRequired o t

/-- The address `u8(x[k])` of an indirect operand, checked against 0..63 (R82, R83). -/
def indirect (s : State) (k : RegIdx) (t : Text) : Except RecErr Addr :=
  if h : (s.reg k).toNat < 64 then .ok ⟨(s.reg k).toNat, h⟩ else fail .invalidAddress (.memInd k) t

/-- R82: the value of an operand. -/
def value (s : State) (o : Operand) (t : Text) : Except RecErr Int :=
  match o with
  | .reg k => .ok (s.regVal k)
  | .imm v => .ok v
  | .memDir a => .ok (s8 (s.memRead a))
  | .memInd k => (indirect s k t).map fun a => s8 (s.memRead a)
  | .memDirOor => fail .invalidAddress o t
  | .badReg => fail .invalidRegister o t
  | .badRegInd => fail .invalidRegister o t
  | .numBig => fail .badOperand o t
  | .badTok => fail .badOperand o t
  | .absent => fail .missingOperand o t

/-- R83: the address of an operand. -/
def address (s : State) (o : Operand) (t : Text) : Except RecErr Addr :=
  match o with
  | .memDir a => .ok a
  | .memInd k => indirect s k t
  | .imm v => if 0 ≤ v then if h : v.toNat < 64 then .ok ⟨v.toNat, h⟩ else fail .invalidAddress o t else fail .invalidAddress o t
  | .numBig => fail .invalidAddress o t
  | .memDirOor => fail .invalidAddress o t
  | .badRegInd => fail .invalidRegister o t
  | .reg _ => fail .addressRequired o t
  | .badReg => fail .addressRequired o t
  | .badTok => fail .badOperand o t
  | .absent => fail .missingOperand o t

/-- The destination and source operands R130 picks, with their texts. -/
structure Pairing where
  dst  : RegIdx
  dtok : Text
  so   : Operand
  st   : Text
deriving DecidableEq, Repr

/-- R130: operand 2 is the destination if it is REG, else operand 1 if it is, else `E_NO_REGISTER_OPERAND`. -/
def pairing (o1 : Operand) (t1 : Text) (o2 : Operand) (t2 : Text) : Except RecErr Pairing :=
  match o2 with
  | .reg k => .ok { dst := k, dtok := t2, so := o1, st := t1 }
  | _ => match o1 with
    | .reg k => .ok { dst := k, dtok := t1, so := o2, st := t2 }
    | _ => fail .noRegisterOperand o1 t1

/-- What R130's `pair` returns: the destination with its old value, and the source value. -/
structure Paired where
  dst  : RegIdx
  dtok : Text
  t    : Int
  s    : Int
  st   : Text
deriving DecidableEq, Repr

/-- R130: `pair(d1, t1, d2, t2)`. -/
def pair (s : State) (o1 o2 : Operand) : Except RecErr Paired :=
  match pairing o1 s.text1 o2 s.text2 with
  | .error e => .error e
  | .ok p => match value s p.so p.st with
    | .error e => .error e
    | .ok v => .ok { dst := p.dst, dtok := p.dtok, t := s.regVal p.dst, s := v, st := operandTok p.so p.st }

end Sys2Proof.Machine
end

