-- ==== Sys2Proof/Machine/Arithmetic.lean ====
section
/-! DEFINITION. The arithmetic family: ADD, SUB, MUL, DIV, INC, DEC (R130 to R137). -/

namespace Sys2Proof.Machine

/-- ADD, SUB, MUL and DIV: pair the operands, compute the wide result or raise an error, write back (R107, R130). -/
def binary (op : Opcode) (f : Paired → Except RecErr Int) (o1 o2 : Operand) (s : State) :
    Host.Outcome State Fault Refusal :=
  complete op s <| match pair s o1 o2 with
    | .error e => .error e
    | .ok p => match f p with
      | .error e => .error e
      | .ok w => .ok (s.writeBack p.dst w)

/-- INC and DEC: a silent no-op unless operand 1 is a register (R113, R135, R136). -/
def unary (f : Int → Int) (o1 : Operand) (s : State) : Host.Outcome State Fault Refusal :=
  match o1 with
  | .reg k => .next (s.writeBack k (f (s.regVal k)))
  | _ => .next s

/-- R131. -/
def execAdd (o1 o2 : Operand) (s : State) : Host.Outcome State Fault Refusal :=
  binary .add (fun p => .ok (aluAdd p.t p.s)) o1 o2 s

/-- R132. -/
def execSub (o1 o2 : Operand) (s : State) : Host.Outcome State Fault Refusal :=
  binary .sub (fun p => .ok (aluSub p.t p.s)) o1 o2 s

/-- R133. -/
def execMul (o1 o2 : Operand) (s : State) : Host.Outcome State Fault Refusal :=
  binary .mul (fun p => .ok (aluMul p.t p.s)) o1 o2 s

/-- R134: the source's zero check, then the destination's, then the quotient (C1). -/
def divide (rounding : DivRounding) (p : Paired) : Except RecErr Int :=
  if p.s = 0 then .error ⟨.divideByZero, p.st⟩
  else if p.t = 0 then .error ⟨.divideByZero, p.dtok⟩
  else .ok (aluDiv rounding p.t p.s)

/-- R134. -/
def execDiv (o1 o2 : Operand) (s : State) : Host.Outcome State Fault Refusal :=
  binary .div (divide s.cfg.divRounding) o1 o2 s

/-- R135; operand 2 is ignored (R80). -/
def execInc (o1 _o2 : Operand) (s : State) : Host.Outcome State Fault Refusal := unary aluInc o1 s

/-- R136; operand 2 is ignored (R80). -/
def execDec (o1 _o2 : Operand) (s : State) : Host.Outcome State Fault Refusal := unary aluDec o1 s

end Sys2Proof.Machine
end

