-- ==== Sys2Proof/Machine/Io.lean ====
section
/-! DEFINITION. Input and output: INPUT and DISPLAY (R180 to R183). -/

namespace Sys2Proof.Machine

/-- R182: the integer a token spells, if it is numeric and in range. -/
def inputInt (b : Text) : Option Int :=
  match numeric b with
  | some v => if immInRange v then some v else none
  | none => none

/-- R180: what INPUT does with the provider's answer. -/
def finishInput (k : RegIdx) (r : InpAnswer) (s : State) : State :=
  match r with
  | .eof => s.recover .input ⟨.inputInvalid, ascii "<EOF>"⟩
  | .token b => match inputInt b with
    | some v => s.writeBack k v
    | none => s.recover .input ⟨.inputInvalid, b⟩

/-- R183: `NEXT_TOKEN` is sent; an answer that is there is taken at once, otherwise the core waits in WAIT_INPUT (log 4). -/
def requestInput (k : RegIdx) (s : State) : State :=
  match s.inp with
  | [] => { s.emit .nextToken with runState := .waitInput }
  | r :: rest => finishInput k r { s.emit .nextToken with inp := rest }

/-- R180: the register is checked before any input is taken; operand 2 is ignored (R80). -/
def execInput (o1 _o2 : Operand) (s : State) : Host.Outcome State Fault Refusal :=
  complete .input s <| match reqReg o1 s.text1 with
    | .error e => .error e
    | .ok k => .ok (requestInput k s)

/-- R181: the register's signed value goes to the trace; operand 2 is ignored (R80). -/
def execDisplay (o1 _o2 : Operand) (s : State) : Host.Outcome State Fault Refusal :=
  complete .display s <| match reqReg o1 s.text1 with
    | .error e => .error e
    | .ok k => .ok (s.emitLine (decSigned (s.regVal k)))

end Sys2Proof.Machine
end

