-- ==== Sys2Proof/Machine/RotateShift.lean ====
section
/-! DEFINITION. The rotate and shift family: ROL, ROR, SHL, SHR (R165 to R170). -/

namespace Sys2Proof.Machine

/-- The register, then the count (R165), then `f` on the unsigned pattern, with the flags of R170. -/
def rotShift (op : Opcode) (f : Byte → Nat → Byte) (o1 o2 : Operand) (s : State) :
    Host.Outcome State Fault Refusal :=
  complete op s <| match reqReg o1 s.text1 with
    | .error e => .error e
    | .ok k => match value s o2 s.text2 with
      | .error e => .error e
      | .ok v =>
        let n := f (s.reg k) (count v)
        .ok (s.writeResult k n (rotShiftFlags s.cfg.flagBasis n))

/-- R166. -/
def execRol (o1 o2 : Operand) (s : State) : Host.Outcome State Fault Refusal := rotShift .rol rotl o1 o2 s

/-- R167. -/
def execRor (o1 o2 : Operand) (s : State) : Host.Outcome State Fault Refusal := rotShift .ror rotr o1 o2 s

/-- R168. -/
def execShl (o1 o2 : Operand) (s : State) : Host.Outcome State Fault Refusal := rotShift .shl shl o1 o2 s

/-- R169. -/
def execShr (o1 o2 : Operand) (s : State) : Host.Outcome State Fault Refusal := rotShift .shr shr o1 o2 s

end Sys2Proof.Machine
end

