-- ==== Sys2Proof/Machine/Transfer.lean ====
section
/-! DEFINITION. The transfer family: MOV, LOAD, STORE (R150 to R152). -/

namespace Sys2Proof.Machine

/-- R150: the destination first, silently; then the source value. -/
def execMov (o1 o2 : Operand) (s : State) : Host.Outcome State Fault Refusal :=
  match o2 with
  | .reg k => complete .mov s <| match value s o1 s.text1 with
    | .error e => .error e
    | .ok v => .ok (s.writeBack k v)
  | _ => .next s

/-- R151: the destination register, then the address, then the cell. -/
def execLoad (o1 o2 : Operand) (s : State) : Host.Outcome State Fault Refusal :=
  complete .load s <| match reqReg o2 s.text2 with
    | .error e => .error e
    | .ok k => match address s o1 s.text1 with
      | .error e => .error e
      | .ok a => .ok (s.writeBack k (s8 (s.memRead a)))

/-- R152: the source register, then the address, then the store; no flags. -/
def execStore (o1 o2 : Operand) (s : State) : Host.Outcome State Fault Refusal :=
  complete .store s <| match reqReg o1 s.text1 with
    | .error e => .error e
    | .ok k => match address s o2 s.text2 with
      | .error e => .error e
      | .ok a => .ok (s.memWrite a (s.reg k))

end Sys2Proof.Machine
end

