-- ==== Sys2Proof/Machine/Dispatch.lean ====
section
/-! DEFINITION. The dispatcher (R111): one arm per instruction. -/

namespace Sys2Proof.Machine

def exec (i : Instr) (s : State) : Host.Outcome State Fault Refusal :=
  match i with
  | .add o1 o2 => Sys2Proof.Machine.execAdd o1 o2 s
  | .sub o1 o2 => Sys2Proof.Machine.execSub o1 o2 s
  | .mul o1 o2 => Sys2Proof.Machine.execMul o1 o2 s
  | .div o1 o2 => Sys2Proof.Machine.execDiv o1 o2 s
  | .inc o1 o2 => Sys2Proof.Machine.execInc o1 o2 s
  | .dec o1 o2 => Sys2Proof.Machine.execDec o1 o2 s
  | .mov o1 o2 => Sys2Proof.Machine.execMov o1 o2 s
  | .load o1 o2 => Sys2Proof.Machine.execLoad o1 o2 s
  | .store o1 o2 => Sys2Proof.Machine.execStore o1 o2 s
  | .rol o1 o2 => Sys2Proof.Machine.execRol o1 o2 s
  | .ror o1 o2 => Sys2Proof.Machine.execRor o1 o2 s
  | .shl o1 o2 => Sys2Proof.Machine.execShl o1 o2 s
  | .shr o1 o2 => Sys2Proof.Machine.execShr o1 o2 s
  | .input o1 o2 => Sys2Proof.Machine.execInput o1 o2 s
  | .display o1 o2 => Sys2Proof.Machine.execDisplay o1 o2 s

end Sys2Proof.Machine
end

