-- ==== Sys2Proof/Machine/Cycle.lean ====
section
/-! DEFINITION. The line cycle (R102), the instruction transaction (R103), the wait for input (R183), dumps on demand (R116),
and what lands from the host (R183, R213, R230, R235). Step.lean only calls this file. -/

namespace Sys2Proof.Machine

/-- R111: `execute(diw)`; a reserved word is refused (R77). -/
def executeDiw (d : Diw) (s : State) : Host.Outcome State Fault Refusal :=
  match decodeDiw d with
  | some i => exec i s
  | none => .refused .reservedDiw

/-- R103, before execution: the header, then the snapshot; the decoder's record is held (R33). -/
def State.beginInstr (s : State) (op : Opcode) (d : Decoded) : State :=
  { s.emitLine (headerLine s.pc op d) with pre := some s.mem, decoded := some d }

/-- The snapshot the memory diff compares with; R103 takes one before every instruction. -/
def State.snapshot (s : State) : Memory := match s.pre with
  | some m => m
  | none => s.mem

/-- R103, after execution: the register line and the memory diff; the transient items end (R33; log 8). -/
def State.endInstr (s : State) : State :=
  { s.emitLines (registerLine s.cfg.radix s.x :: diffLines s.cfg.radix s.snapshot s.mem) with
    decoded := none, pre := none }

/-- The transaction ends, unless INPUT waits: then it is suspended after the header (R103, R183). -/
def State.settle (s : State) : State := if s.runState = .waitInput then s else s.endInstr

/-- R103: the instruction transaction. -/
def instrTransaction (d : Decoded) (s : State) : Host.Outcome State Fault Refusal :=
  match decodeDiw d.diw with
  | none => .refused .reservedDiw
  | some i => match executeDiw d.diw (s.beginInstr i.opcode d) with
    | .next s' => .next s'.settle
    | .fault r => .fault r
    | .refused r => .refused r

/-- R102: a consumed line: `pc` counts it, then it is decoded. -/
def consumeLine (l : Text) (s : State) : Host.Outcome State Fault Refusal :=
  let s1 := { s with pc := s.pc + 1 }
  match decodeLine s.cfg.lineMax l with
  | .noInstr => .next s1
  | .fatal c => .next (s1.raiseFatal c)
  | .instr d => instrTransaction d s1

/-- R102: `NEXT_LINE` is sent, once per line cycle. -/
def State.requestLine (s : State) : State :=
  if s.lineReq then s else { s.emit .nextLine with lineReq := true }

/-- R102: the loader's answer. -/
def takeAnswer (a : SrcAnswer) (s : State) : Host.Outcome State Fault Refusal :=
  match a with
  | .line l => consumeLine l s
  | .eof => .next s.endRun
  | .missing => .next (s.raiseFatal .sourceMissing)

/-- R102: one line cycle; without an answer the core waits (R235; log 4). -/
def lineCycle (s : State) : Host.Outcome State Fault Refusal :=
  match s.src with
  | [] => .next s.requestLine
  | a :: rest => takeAnswer a { s.requestLine with src := rest, lineReq := false }

/-- The register of the pending INPUT (R33, R183). -/
def State.pendingInput (s : State) : Option RegIdx :=
  match s.decoded with
  | none => none
  | some d => match decodeDiw d.diw with
    | some (.input (.reg k) _) => some k
    | _ => none

/-- R183: in WAIT_INPUT an answer ends the wait and INPUT completes; without one the core waits. -/
def resumeInput (s : State) : Host.Outcome State Fault Refusal :=
  match s.pendingInput with
  | none => .fault .noPendingInput
  | some k => match s.inp with
    | [] => .next s
    | r :: rest => .next (finishInput k r { s with runState := .running, inp := rest }).settle

/-- R116: one held dump request is served; nothing else changes. -/
def State.serveDump (s : State) : State := { s.emitDump with dumpPending := s.dumpPending - 1 }

/-- One action of the core: a line cycle, the end of a wait, a dump on demand, or nothing (R102, R115, R116, R183). -/
def coreStep (s : State) : Host.Outcome State Fault Refusal :=
  match s.runState with
  | .waitInput => resumeInput s
  | .halted => if s.dumpPending = 0 then .next s else .next s.serveDump
  | .running => if s.dumpPending = 0 ∨ s.lineReq then lineCycle s else .next s.serveDump

/-- One step: what lands from the host, or the core's own action (R183, R213, R230, R235; log 2). -/
def runStep (s : State) : Host.Outcome State Fault Refusal :=
  match s.async with
  | [] => coreStep s
  | .quiet :: rest => coreStep { s with async := rest }
  | .dumpReq :: rest => .next { s with async := rest, dumpPending := s.dumpPending + 1 }
  | .rst :: rest => .next (State.applyReset { s with async := rest })
  | .rstDuring n :: rest => match coreStep { s with async := rest } with
    | .next t => .next (State.abandonAfter { s with async := rest } t n).applyReset
    | .fault r => .fault r
    | .refused r => .refused r
  | .lineAnswer n a :: rest => .next (State.landLine { s with async := rest } n a)
  | .tokenAnswer n r :: rest => .next (State.landToken { s with async := rest } n r)

/-- The state in which the next step's line cycle is answered with line `l` (log 19). -/
def State.withLine (s : State) (l : Text) : State :=
  { s with
    src := .line l :: s.src, async := [], dumpPending := 0, runState := .running, haltCause := .none,
    decoded := none, pre := none, cfg := { s.cfg with lineMax := none } }

end Sys2Proof.Machine
end

