-- ==== Sys2Proof/Machine/Step.lean ====
section
/-! DEFINITION. One step of the machine, and placing an instruction where the next step fetches it. -/

namespace Sys2Proof.Machine

/-- One step (R102, R237; log 4). -/
def step (s : State) : Host.Outcome State Fault Refusal := runStep s

/-- `s` with the instruction word `w` as the loader's next answer, in the text form that decodes to it (R60, R70; log 19).
A reserved word has no text form, and places nothing. -/
def State.withFetchWord (s : State) (nbits w : Nat) : State :=
  match decodeTableWord nbits w with
  | some i => s.withLine (assemble i)
  | none => s

end Sys2Proof.Machine
end

