-- ==== Sys2Proof/Safety.lean ====
section
/-! DEFINITION. The machine's state invariant and the terms the statements use, written from the rules and not from the machine's own operations. -/

namespace Sys2Proof.Machine

/-- The consequences R104 names: `C = O or U`, `O` and `U` never both 1, `Z` only when the others are 0. -/
def flagsCoherent (f : Flags) : Bool := (f.c == (f.o || f.u)) && !(f.o && f.u) && !(f.z && f.c)

/-- A reset image that keeps the invariant: canonical memory and coherent flags. -/
def imageOk (r : ResetImage) : Bool := Memory.wf r.mem && flagsCoherent r.flags

/-- What holds between two steps: memory is canonical (R30), the flags are coherent (R104), `halt_cause` is NONE exactly
when not halted (R32), the transient items are held exactly in WAIT_INPUT (R33), where an INPUT is pending, and a
line request is outstanding only in RUNNING (R102). -/
def StateInv (s : State) : Bool :=
  Memory.wf s.mem && flagsCoherent s.flags && imageOk s.cfg.image &&
  ((s.haltCause == .none) == (s.runState != .halted)) &&
  (s.decoded.isSome == (s.runState == .waitInput)) &&
  (s.pre == (if s.runState = .waitInput then some s.mem else none)) &&
  (s.pendingInput.isSome == (s.runState == .waitInput)) &&
  (s.runState == .running || !s.lineReq)

/-- The step answers a next state: it neither faults nor refuses. -/
def Proceeds (r : Host.Outcome State Fault Refusal) : Prop := ∃ t, r = .next t

/-- R107 with R104 written out: register `k` holds the low 8 bits of `w`, the flags come from `w`, nothing else changes. -/
def afterWrite (s : State) (k : RegIdx) (w : Int) : State :=
  { s with
    x := s.x.set k.val (BitVec.ofInt 8 w) k.isLt
    flags := { c := decide (w > 127 ∨ w < -128), o := decide (w > 127), u := decide (w < -128), z := decide (w = 0) } }

/-- R211, its table of names. -/
def errorName : ErrCode → String
  | .missingOperand    => "E_MISSING_OPERAND"
  | .invalidRegister   => "E_INVALID_REGISTER"
  | .registerRequired  => "E_REGISTER_REQUIRED"
  | .noRegisterOperand => "E_NO_REGISTER_OPERAND"
  | .badOperand        => "E_BAD_OPERAND"
  | .invalidAddress    => "E_INVALID_ADDRESS"
  | .addressRequired   => "E_ADDRESS_REQUIRED"
  | .divideByZero      => "E_DIVIDE_BY_ZERO"
  | .inputInvalid      => "E_INPUT_INVALID"

/-- R110 with R200 and R211 written out: the diagnostic line is appended to the output, nothing else changes. -/
def afterError (s : State) (mnemonic : String) (e : RecErr) : State :=
  { s with out := s.out ++ [.trace (ascii "ERROR " ++ ascii (errorName e.code) ++ ascii ": " ++ ascii mnemonic ++ ascii " " ++ e.tok)] }

/-- R170 written out: register `k` holds the 8-bit result `n`, the flags come from `n` on the machine's flag basis,
nothing else changes. -/
def afterRotShift (s : State) (k : RegIdx) (n : Byte) : State :=
  { s with
    x := s.x.set k.val n k.isLt
    flags := match s.cfg.flagBasis with
      | .unsigned => { c := decide (127 < n.toNat), o := decide (127 < n.toNat), u := false, z := decide (n.toNat = 0) }
      | .signed => { c := false, o := false, u := false, z := decide (n.toNat = 0) } }

/-- The NEXT_LINE request of a line cycle: sent once (R102). -/
def lineRequest (s : State) : List Output := if s.lineReq then [] else [.nextLine]

/-- At a point where the core itself acts: no asynchronous input lands in this step. -/
def CoreActs (s : State) : Prop := s.async = [] ∨ ∃ rest, s.async = .quiet :: rest

/-- The state with this step's (quiet) landing taken from the host's list. -/
def afterQuiet (s : State) : State := { s with async := s.async.tail }

/-- In RUNNING, with a line cycle due: no dump request is pending, or the cycle has already begun (R102, R116). -/
def LineDue (s : State) : Prop := s.runState = .running ∧ (s.dumpPending = 0 ∨ s.lineReq = true)

/-- The register an instruction writes when it succeeds (R23), from its operands alone. -/
def destReg : Instr → Option RegIdx
  | .add o1 o2 | .sub o1 o2 | .mul o1 o2 | .div o1 o2 =>
    match o2, o1 with
    | .reg k, _ => some k
    | _, .reg k => some k
    | _, _ => none
  | .inc (.reg k) _ | .dec (.reg k) _ => some k
  | .mov _ (.reg k) | .load _ (.reg k) => some k
  | .rol (.reg k) _ | .ror (.reg k) _ | .shl (.reg k) _ | .shr (.reg k) _ => some k
  | .input (.reg k) _ => some k
  | _ => none

/-- Everything but the registers, the flags, the memory, the input queue, `run_state` and the output is the same. -/
def SameRest (s t : State) : Prop :=
  t.pc = s.pc ∧ t.haltCause = s.haltCause ∧ t.decoded = s.decoded ∧ t.pre = s.pre ∧ t.lineReq = s.lineReq ∧
  t.src = s.src ∧ t.dumpPending = s.dumpPending ∧ t.async = s.async ∧ t.cfg = s.cfg ∧ t.resets = s.resets

/-- R73: an optional sign, then one or more decimal digits. -/
def NumericText (t : Text) : Prop :=
  ∃ sign digits : Text, t = sign ++ digits ∧ (sign = [] ∨ sign = [0x2B#8] ∨ sign = [0x2D#8]) ∧ digits ≠ [] ∧
    ∀ b ∈ digits, 0x30 ≤ b.toNat ∧ b.toNat ≤ 0x39

/-- R72: `R`, then one or more decimal digits. -/
def RegisterText (t : Text) : Prop :=
  ∃ digits : Text, t = 0x52#8 :: digits ∧ digits ≠ [] ∧ ∀ b ∈ digits, 0x30 ≤ b.toNat ∧ b.toNat ≤ 0x39

/-- Every byte of memory reads the same. -/
def SameMemory (s t : State) : Prop := ∀ a : Nat, Memory.read t.mem a = Memory.read s.mem a

/-- A reserved operand field of a DIW (R72, R76, R77): a kind above 9, or a payload bit R76 does not name. -/
def ReservedOperand (k : BitVec 4) (p : BitVec 16) : Prop :=
  10 ≤ k.toNat ∨ ((k = 1#4 ∨ k = 6#4) ∧ 8 ≤ p.toNat) ∨ (k = 4#4 ∧ 64 ≤ p.toNat) ∨
  ((k = 0#4 ∨ k = 3#4 ∨ k = 5#4 ∨ k = 7#4 ∨ k = 8#4 ∨ k = 9#4) ∧ p ≠ 0#16)

/-- A reserved DIW (R77): opcode 15 or a reserved operand field. -/
def ReservedDiw (d : Diw) : Prop := d.opc = 15#4 ∨ ReservedOperand d.k1 d.p1 ∨ ReservedOperand d.k2 d.p2

end Sys2Proof.Machine
end

