-- ==== Sys2Proof/Certificates/Slice0/Obligations.lean ====
section
/-! DEFINITION. The statements for the provers, from the spec's numbered rules. -/

open Sys2Proof Sys2Proof.Machine

/-! ## Encoding and decoding -/

/-- R71, R72, R76: decoding the DIW of a well-formed instruction gives the instruction back. -/
def Obligations.DecodeOfEncodeIsTheInstruction : Prop :=
  ∀ i : Instr, i.wf = true → decodeDiw (encodeDiw i) = some i

/-- R71, R72, R76, R77: a DIW with a meaning is the encoding of that well-formed instruction, bit for bit. -/
def Obligations.EncodeOfDecodeIsTheWord : Prop :=
  ∀ (d : Diw) (i : Instr), decodeDiw d = some i → i.wf = true ∧ encodeDiw i = d

/-- R77: exactly the reserved DIWs decode to nothing, the dispatcher refuses them, and no line decodes to one. -/
def Obligations.ReservedDiwIsRefusedAndNeverProduced : Prop :=
  (∀ d : Diw, ReservedDiw d ↔ decodeDiw d = none) ∧
  (∀ (d : Diw) (s : State), ReservedDiw d → executeDiw d s = .refused .reservedDiw) ∧
  (∀ (lineMax : Option Nat) (l : Text) (r : Decoded), decodeLine lineMax l = .instr r → ¬ ReservedDiw r.diw)

/-- R60 to R76: a line written for a well-formed instruction decodes to that instruction's DIW, with a well-formed side-band. -/
def Obligations.AssembledLineDecodesToItsInstruction : Prop :=
  ∀ i : Instr, i.wf = true →
    ∃ d : Decoded, decodeLine none (assemble i) = .instr d ∧ d.diw = encodeDiw i ∧ d.wf = true ∧
      decodeDiw d.diw = some i

/-- The twelve worked encodings of 30_encoding.md §5, row by row: line, record with its DIW, and instruction. -/
def Obligations.WorkedEncodingsDecode : Prop :=
  (decodeLine none (ascii "MOV 5, R0") = .instr ⟨0x00001000526#44, 3, ascii "5", ascii "R0"⟩ ∧
    decodeDiw 0x00001000526#44 = some (.mov (.imm 5) (.reg 0))) ∧
  (decodeLine none (ascii "ADD R0, R1") = .instr ⟨0x00011000010#44, 3, ascii "R0", ascii "R1"⟩ ∧
    decodeDiw 0x00011000010#44 = some (.add (.reg 0) (.reg 1))) ∧
  (decodeLine none (ascii "div r0,r1 ; c") = .instr ⟨0x00011000013#44, 3, ascii "R0", ascii "R1"⟩ ∧
    decodeDiw 0x00011000013#44 = some (.div (.reg 0) (.reg 1))) ∧
  (decodeLine none (ascii "SUB -1, R7") = .instr ⟨0x00071FFFF21#44, 3, ascii "-1", ascii "R7"⟩ ∧
    decodeDiw 0x00071FFFF21#44 = some (.sub (.imm (-1)) (.reg 7))) ∧
  (decodeLine none (ascii "LOAD [10], R3") = .instr ⟨0x00031000A47#44, 3, ascii "[10]", ascii "R3"⟩ ∧
    decodeDiw 0x00031000A47#44 = some (.load (.memDir 10) (.reg 3))) ∧
  (decodeLine none (ascii "STORE R2, [R1]") = .instr ⟨0x00016000218#44, 3, ascii "R2", ascii "[R1]"⟩ ∧
    decodeDiw 0x00016000218#44 = some (.store (.reg 2) (.memInd 1))) ∧
  (decodeLine none (ascii "ROL R0, 3") = .instr ⟨0x00032000019#44, 3, ascii "R0", ascii "3"⟩ ∧
    decodeDiw 0x00032000019#44 = some (.rol (.reg 0) (.imm 3))) ∧
  (decodeLine none (ascii "INC R9") = .instr ⟨0x00000000074#44, 2, ascii "R9", []⟩ ∧
    decodeDiw 0x00000000074#44 = some (.inc .badReg .absent)) ∧
  (decodeLine none (ascii "DISPLAY R0") = .instr ⟨0x0000000001E#44, 2, ascii "R0", []⟩ ∧
    decodeDiw 0x0000000001E#44 = some (.display (.reg 0) .absent)) ∧
  (decodeLine none (ascii "INPUT R4") = .instr ⟨0x0000000041D#44, 2, ascii "R4", []⟩ ∧
    decodeDiw 0x0000000041D#44 = some (.input (.reg 4) .absent)) ∧
  (decodeLine none (ascii "MOV [70], R0") = .instr ⟨0x00001000056#44, 3, ascii "[70]", ascii "R0"⟩ ∧
    decodeDiw 0x00001000056#44 = some (.mov .memDirOor (.reg 0))) ∧
  (decodeLine none (ascii "ADD 40000, R0") = .instr ⟨0x00001000030#44, 3, ascii "40000", ascii "R0"⟩ ∧
    decodeDiw 0x00001000030#44 = some (.add .numBig (.reg 0)))

/-- R66: a line is no instruction exactly when everything before its first `;` is separators. -/
def Obligations.OnlySeparatorLinesAreNoInstruction : Prop :=
  ∀ l : Text, decodeLine none l = .noInstr ↔
    ∀ b ∈ l.takeWhile (fun b => b != 0x3B#8),
      b ∈ ([0x20#8, 0x09#8, 0x0A#8, 0x0B#8, 0x0C#8, 0x0D#8, 0x2C#8] : Text)

/-- R62 to R71, R75, R78, R214: the tokens are the non-empty runs between separators of the upper-cased text before the
first `;`; the length is checked, then the token count, then the opcode, which is matched byte for byte with one of the
fifteen mnemonics; an instruction's record holds tokens 2 and 3 with every byte outside 0x21..0x7E removed, and their
classification. The model's default LINE_MAX is unbounded. That LINE_MAX counts the bytes of the line as delivered is the model's reading
(log 16). -/
def Obligations.DecoderChecksLengthThenCountThenOpcode : Prop :=
  State.reset.cfg.lineMax = none ∧
  ([Opcode.add, .sub, .mul, .div, .inc, .dec, .mov, .load, .store, .rol, .ror, .shl, .shr, .input, .display].map
      fun op => (op.code, op.text)) =
    [(0#4, ascii "ADD"), (1#4, ascii "SUB"), (2#4, ascii "MUL"), (3#4, ascii "DIV"), (4#4, ascii "INC"),
     (5#4, ascii "DEC"), (6#4, ascii "MOV"), (7#4, ascii "LOAD"), (8#4, ascii "STORE"), (9#4, ascii "ROL"),
     (10#4, ascii "ROR"), (11#4, ascii "SHL"), (12#4, ascii "SHR"), (13#4, ascii "INPUT"), (14#4, ascii "DISPLAY")] ∧
  (∀ l : Text, tokens (normalise l) =
    (((l.takeWhile fun b => b != 0x3B#8).map
        fun b => if 0x61 ≤ b.toNat ∧ b.toNat ≤ 0x7A then b - 0x20#8 else b).splitOnP
      fun b => ([0x20#8, 0x09#8, 0x0A#8, 0x0B#8, 0x0C#8, 0x0D#8, 0x2C#8] : Text).contains b).filter fun t => t != []) ∧
  ∀ (lineMax : Option Nat) (l : Text),
    (∀ n, lineMax = some n → n < l.length → decodeLine lineMax l = .fatal .lineTooLong) ∧
    ((∀ n, lineMax = some n → l.length ≤ n) →
      (3 < (tokens (normalise l)).length → decodeLine lineMax l = .fatal .tooManyTokens) ∧
      (∀ t ts, tokens (normalise l) = t :: ts → ts.length ≤ 2 → (∀ op : Opcode, op.text ≠ t) →
        decodeLine lineMax l = .fatal .unknownOpcode) ∧
      (∀ (op : Opcode) (ts : List Text), tokens (normalise l) = op.text :: ts → ts.length ≤ 2 →
        ∃ d, decodeLine lineMax l = .instr d ∧ d.diw.opc = op.code ∧ d.ntok = ts.length + 1 ∧
          d.t1 = ((ts.getD 0 []).filter fun b => decide (0x21 ≤ b.toNat ∧ b.toNat ≤ 0x7E)) ∧
          d.t2 = ((ts.getD 1 []).filter fun b => decide (0x21 ≤ b.toNat ∧ b.toNat ≤ 0x7E)) ∧
          d.diw.k1 = (classify d.t1).kind ∧ d.diw.p1 = (classify d.t1).payload ∧
          d.diw.k2 = (classify d.t2).kind ∧ d.diw.p2 = (classify d.t2).payload ∧
          decodeDiw d.diw = some (Instr.make op (classify d.t1) (classify d.t2))))

/-- R62 to R64 (S-P1): a comment, the case of letters, a comma for a space, and outer whitespace do not change
what a line decodes to. -/
def Obligations.DecodingIgnoresCommentCaseCommaAndOuterSpace : Prop :=
  (∀ l r : Text, decodeLine none (l ++ 0x3B#8 :: r) = decodeLine none l) ∧
  (∀ l : Text, decodeLine none (l.map fun b => if 0x61 ≤ b.toNat ∧ b.toNat ≤ 0x7A then b - 0x20#8 else b) =
    decodeLine none l) ∧
  (∀ l : Text, decodeLine none (l.map fun b => if b = 0x2C#8 then 0x20#8 else b) = decodeLine none l) ∧
  (∀ a l b : Text, (∀ c ∈ a ++ b, c ∈ ([0x20#8, 0x09#8, 0x0A#8, 0x0B#8, 0x0C#8, 0x0D#8] : Text)) →
    decodeLine none (a ++ l ++ b) = decodeLine none l)

/-- R72 to R75: decimal text with any leading zeros and any sign, registers, and both in brackets, classify by value;
BADTOK is exactly a text that is none of these. -/
def Obligations.OperandTextsClassifyByValue : Prop :=
  classify [] = .absent ∧
  (∀ k : RegIdx, classify (0x52#8 :: decText k.val) = .reg k ∧
    classify (0x5B#8 :: 0x52#8 :: (decText k.val ++ [0x5D#8])) = .memInd k) ∧
  (∀ t : Text, classify t = .badTok ↔ t ≠ [] ∧ ¬ NumericText t ∧ ¬ RegisterText t ∧
    ∀ inner, t = 0x5B#8 :: (inner ++ [0x5D#8]) → ¬ NumericText inner ∧ ¬ RegisterText inner) ∧
  ∀ (zeros n : Nat), let digits : Text := List.replicate zeros 0x30#8 ++ decText n
    (classify digits = if n ≤ 32767 then .imm n else .numBig) ∧
    (classify (0x2B#8 :: digits) = if n ≤ 32767 then .imm n else .numBig) ∧
    (classify (0x2D#8 :: digits) = if n ≤ 32768 then .imm (-(n : Int)) else .numBig) ∧
    (∀ a : Addr, n = a.val → classify (0x5B#8 :: (digits ++ [0x5D#8])) = .memDir a ∧
      classify (0x5B#8 :: 0x2B#8 :: (digits ++ [0x5D#8])) = .memDir a) ∧
    (63 < n → classify (0x5B#8 :: (digits ++ [0x5D#8])) = .memDirOor ∧
      classify (0x5B#8 :: 0x2B#8 :: (digits ++ [0x5D#8])) = .memDirOor) ∧
    classify (0x5B#8 :: 0x2D#8 :: (digits ++ [0x5D#8])) = (if n = 0 then .memDir 0 else .memDirOor) ∧
    (0 < zeros ∨ 7 < n → classify (0x52#8 :: digits) = .badReg ∧
      classify (0x5B#8 :: 0x52#8 :: (digits ++ [0x5D#8])) = .badRegInd)

/-! ## Flags, registers, operands -/

/-- R104: the four flags of a wide result, and the consequences the rule names. -/
def Obligations.FlagUnitFollowsTheWideResult : Prop :=
  ∀ w : Int,
    ((deriveFlags w).o = true ↔ 127 < w) ∧ ((deriveFlags w).u = true ↔ w < -128) ∧
    ((deriveFlags w).c = true ↔ 127 < w ∨ w < -128) ∧ ((deriveFlags w).z = true ↔ w = 0) ∧
    ¬ ((deriveFlags w).o = true ∧ (deriveFlags w).u = true) ∧
    ((deriveFlags w).z = true → (deriveFlags w).c = false ∧ (deriveFlags w).o = false ∧ (deriveFlags w).u = false)

/-- R22 (S-P2): a register reads back what was written, truncated to signed 8 bits, and every other register is as before. -/
def Obligations.RegisterReadsBackTruncated : Prop :=
  ∀ (s : State) (k : RegIdx) (v : Int),
    (s.writeBack k v).regVal k = (v + 128) % 256 - 128 ∧
    (∀ j, j ≠ k → (s.writeBack k v).regVal j = s.regVal j) ∧
    (∀ j, -128 ≤ s.regVal j ∧ s.regVal j ≤ 127)

/-- R81: the table of `reqReg`, every kind. -/
def Obligations.RegisterOperandTable : Prop :=
  ∀ t : Text,
    (∀ k, reqReg (.reg k) t = .ok k) ∧
    reqReg .absent t = .error ⟨.missingOperand, ascii "<none>"⟩ ∧
    reqReg .badReg t = .error ⟨.invalidRegister, t⟩ ∧
    (∀ o : Operand, o ≠ .absent → o ≠ .badReg → (∀ k, o ≠ .reg k) → reqReg o t = .error ⟨.registerRequired, t⟩)

/-- R82: the table of `value`, every kind. -/
def Obligations.ValueOperandTable : Prop :=
  ∀ (s : State) (t : Text),
    (∀ k, value s (.reg k) t = .ok (s.x.get k).toInt) ∧
    (∀ v, value s (.imm v) t = .ok v) ∧
    (∀ a : Addr, value s (.memDir a) t = .ok (Memory.read s.mem a.val).toInt) ∧
    (∀ k, (s.x.get k).toNat ≤ 63 → value s (.memInd k) t = .ok (Memory.read s.mem (s.x.get k).toNat).toInt) ∧
    (∀ k, 63 < (s.x.get k).toNat → value s (.memInd k) t = .error ⟨.invalidAddress, t⟩) ∧
    value s .memDirOor t = .error ⟨.invalidAddress, t⟩ ∧
    value s .badReg t = .error ⟨.invalidRegister, t⟩ ∧
    value s .badRegInd t = .error ⟨.invalidRegister, t⟩ ∧
    value s .numBig t = .error ⟨.badOperand, t⟩ ∧
    value s .badTok t = .error ⟨.badOperand, t⟩ ∧
    value s .absent t = .error ⟨.missingOperand, ascii "<none>"⟩

/-- R83: the table of `address`, every kind. -/
def Obligations.AddressOperandTable : Prop :=
  ∀ (s : State) (t : Text),
    (∀ a : Addr, address s (.memDir a) t = .ok a) ∧
    (∀ k (a : Addr), (s.x.get k).toNat = a.val → address s (.memInd k) t = .ok a) ∧
    (∀ k, 63 < (s.x.get k).toNat → address s (.memInd k) t = .error ⟨.invalidAddress, t⟩) ∧
    (∀ (v : Int) (a : Addr), v = a.val → address s (.imm v) t = .ok a) ∧
    (∀ v : Int, v < 0 ∨ 63 < v → address s (.imm v) t = .error ⟨.invalidAddress, t⟩) ∧
    address s .numBig t = .error ⟨.invalidAddress, t⟩ ∧
    address s .memDirOor t = .error ⟨.invalidAddress, t⟩ ∧
    address s .badRegInd t = .error ⟨.invalidRegister, t⟩ ∧
    (∀ k, address s (.reg k) t = .error ⟨.addressRequired, t⟩) ∧
    address s .badReg t = .error ⟨.addressRequired, t⟩ ∧
    address s .badTok t = .error ⟨.badOperand, t⟩ ∧
    address s .absent t = .error ⟨.missingOperand, ascii "<none>"⟩

/-- R130: operand 2 is the destination if it is a register, else operand 1, else an error; the other operand is the source. -/
def Obligations.PairingPrefersOperandTwo : Prop :=
  ∀ (s : State) (o1 o2 : Operand),
    (∀ k, o2 = .reg k →
      (∀ v, value s o1 s.text1 = .ok v →
        pair s o1 o2 = .ok { dst := k, dtok := s.text2, t := s.regVal k, s := v,
                             st := if o1 = .absent then ascii "<none>" else s.text1 }) ∧
      (∀ e, value s o1 s.text1 = .error e → pair s o1 o2 = .error e)) ∧
    (∀ k, (∀ j, o2 ≠ .reg j) → o1 = .reg k →
      (∀ v, value s o2 s.text2 = .ok v →
        pair s o1 o2 = .ok { dst := k, dtok := s.text1, t := s.regVal k, s := v,
                             st := if o2 = .absent then ascii "<none>" else s.text2 }) ∧
      (∀ e, value s o2 s.text2 = .error e → pair s o1 o2 = .error e)) ∧
    ((∀ j, o2 ≠ .reg j) → (∀ j, o1 ≠ .reg j) →
      pair s o1 o2 = .error ⟨.noRegisterOperand, if o1 = .absent then ascii "<none>" else s.text1⟩)

/-- R105: every wide result of R106's table lies in [-4194176, 4194304], so a 32-bit intermediate holds it exactly: ADD, SUB,
MUL and DIV; INC and DEC; MOV; INPUT; LOAD; and the unsigned result of ROL, ROR, SHL and SHR, which lies in 0..255. -/
def Obligations.WideResultsNeverWrap : Prop :=
  (∀ (s : State) (o1 o2 : Operand) (p : Paired), o1.wf = true → o2.wf = true → pair s o1 o2 = .ok p →
    ∀ w : Int, (w = p.t + p.s ∨ w = p.t - p.s ∨ w = p.t * p.s ∨ (p.t ≠ 0 ∧ w = aluDiv s.cfg.divRounding p.t p.s)) →
      -4194176 ≤ w ∧ w ≤ 4194304 ∧ (BitVec.ofInt 32 w).toInt = w) ∧
  (∀ (s : State) (k : RegIdx) (w : Int), (w = s.regVal k + 1 ∨ w = s.regVal k - 1) →
    -4194176 ≤ w ∧ w ≤ 4194304 ∧ (BitVec.ofInt 32 w).toInt = w) ∧
  (∀ (s : State) (o : Operand) (t : Text) (w : Int), o.wf = true → value s o t = .ok w →
    -4194176 ≤ w ∧ w ≤ 4194304 ∧ (BitVec.ofInt 32 w).toInt = w) ∧
  (∀ (b : Text) (w : Int), inputInt b = some w → -4194176 ≤ w ∧ w ≤ 4194304 ∧ (BitVec.ofInt 32 w).toInt = w) ∧
  (∀ (s : State) (a : Addr) (w : Int), w = (Memory.read s.mem a.val).toInt →
    -4194176 ≤ w ∧ w ≤ 4194304 ∧ (BitVec.ofInt 32 w).toInt = w) ∧
  (∀ (s : State) (k : RegIdx) (v w : Int), let u := (s.x.get k).toNat; let c := (v % 8).toNat
    (w = (((u <<< c) ||| (u >>> (8 - c))) % 256 : Nat) ∨ w = (((u >>> c) ||| (u <<< (8 - c))) % 256 : Nat) ∨
      w = ((u <<< c) % 256 : Nat) ∨ w = (u >>> c : Nat)) →
    0 ≤ w ∧ w ≤ 255 ∧ -4194176 ≤ w ∧ w ≤ 4194304 ∧ (BitVec.ofInt 32 w).toInt = w)

/-! ## The instructions: result, completion and errors of every form -/

/-- R131. -/
def Obligations.AddWritesTheSum : Prop :=
  ∀ (s : State) (o1 o2 : Operand),
    (encodeDiw (.add o1 o2)).opc = 0#4 ∧
    (∀ p, pair s o1 o2 = .ok p → exec (.add o1 o2) s = .next (afterWrite s p.dst (p.t + p.s))) ∧
    (∀ e, pair s o1 o2 = .error e → exec (.add o1 o2) s = .next (afterError s "ADD" e))

/-- R132: destination minus source. -/
def Obligations.SubWritesDestinationMinusSource : Prop :=
  ∀ (s : State) (o1 o2 : Operand),
    (encodeDiw (.sub o1 o2)).opc = 1#4 ∧
    (∀ p, pair s o1 o2 = .ok p → exec (.sub o1 o2) s = .next (afterWrite s p.dst (p.t - p.s))) ∧
    (∀ e, pair s o1 o2 = .error e → exec (.sub o1 o2) s = .next (afterError s "SUB" e))

/-- R133. -/
def Obligations.MulWritesTheProduct : Prop :=
  ∀ (s : State) (o1 o2 : Operand),
    (encodeDiw (.mul o1 o2)).opc = 2#4 ∧
    (∀ p, pair s o1 o2 = .ok p → exec (.mul o1 o2) s = .next (afterWrite s p.dst (p.t * p.s))) ∧
    (∀ e, pair s o1 o2 = .error e → exec (.mul o1 o2) s = .next (afterError s "MUL" e))

/-- R134, R108: source over destination, toward zero, both zero checks in order. The last clause, on the named
alternative DIV_ROUNDING = floor (R5, I3), is the model's reading of that name (log 11). -/
def Obligations.DivWritesSourceOverDestination : Prop :=
  ∀ (s : State) (o1 o2 : Operand),
    (encodeDiw (.div o1 o2)).opc = 3#4 ∧
    (∀ e, pair s o1 o2 = .error e → exec (.div o1 o2) s = .next (afterError s "DIV" e)) ∧
    (∀ p, pair s o1 o2 = .ok p →
      (p.s = 0 → exec (.div o1 o2) s = .next (afterError s "DIV" ⟨.divideByZero, p.st⟩)) ∧
      (p.s ≠ 0 → p.t = 0 → exec (.div o1 o2) s = .next (afterError s "DIV" ⟨.divideByZero, p.dtok⟩)) ∧
      (p.s ≠ 0 → p.t ≠ 0 → s.cfg.divRounding = .towardZero →
        exec (.div o1 o2) s =
          .next (afterWrite s p.dst (p.s.sign * p.t.sign * ((p.s.natAbs / p.t.natAbs : Nat) : Int)))) ∧
      (p.s ≠ 0 → p.t ≠ 0 → s.cfg.divRounding = .floor →
        exec (.div o1 o2) s = .next (afterWrite s p.dst ⌊(p.s : ℚ) / (p.t : ℚ)⌋)))

/-- R135, R113. -/
def Obligations.IncAddsOneOrIsSilent : Prop :=
  ∀ (s : State) (o2 : Operand),
    (∀ o1, (encodeDiw (.inc o1 o2)).opc = 4#4) ∧
    (∀ k, exec (.inc (.reg k) o2) s = .next (afterWrite s k (s.regVal k + 1))) ∧
    (∀ o1, (∀ k, o1 ≠ .reg k) → exec (.inc o1 o2) s = .next s)

/-- R136, R113. -/
def Obligations.DecSubtractsOneOrIsSilent : Prop :=
  ∀ (s : State) (o2 : Operand),
    (∀ o1, (encodeDiw (.dec o1 o2)).opc = 5#4) ∧
    (∀ k, exec (.dec (.reg k) o2) s = .next (afterWrite s k (s.regVal k - 1))) ∧
    (∀ o1, (∀ k, o1 ≠ .reg k) → exec (.dec o1 o2) s = .next s)

/-- R150: the destination first, silently; then the source. -/
def Obligations.MovCopiesTheValueOrIsSilent : Prop :=
  ∀ (s : State) (o1 o2 : Operand),
    (encodeDiw (.mov o1 o2)).opc = 6#4 ∧
    ((∀ k, o2 ≠ .reg k) → exec (.mov o1 o2) s = .next s) ∧
    (∀ k v, o2 = .reg k → value s o1 s.text1 = .ok v → exec (.mov o1 o2) s = .next (afterWrite s k v)) ∧
    (∀ k e, o2 = .reg k → value s o1 s.text1 = .error e → exec (.mov o1 o2) s = .next (afterError s "MOV" e))

/-- R151: the register check, the address check, then the cell with its flags. -/
def Obligations.LoadCopiesTheCell : Prop :=
  ∀ (s : State) (o1 o2 : Operand),
    (encodeDiw (.load o1 o2)).opc = 7#4 ∧
    (∀ e, reqReg o2 s.text2 = .error e → exec (.load o1 o2) s = .next (afterError s "LOAD" e)) ∧
    (∀ k e, reqReg o2 s.text2 = .ok k → address s o1 s.text1 = .error e →
      exec (.load o1 o2) s = .next (afterError s "LOAD" e)) ∧
    (∀ k (a : Addr), reqReg o2 s.text2 = .ok k → address s o1 s.text1 = .ok a →
      exec (.load o1 o2) s = .next { s with
        x := s.x.set k.val (Memory.read s.mem a.val) k.isLt
        flags := ⟨false, false, false, decide (Memory.read s.mem a.val = 0#8)⟩ })

/-- R152: the register check, the address check, then the one cell; no register, no flag. -/
def Obligations.StoreWritesTheCell : Prop :=
  ∀ (s : State) (o1 o2 : Operand),
    (encodeDiw (.store o1 o2)).opc = 8#4 ∧
    (∀ e, reqReg o1 s.text1 = .error e → exec (.store o1 o2) s = .next (afterError s "STORE" e)) ∧
    (∀ k e, reqReg o1 s.text1 = .ok k → address s o2 s.text2 = .error e →
      exec (.store o1 o2) s = .next (afterError s "STORE" e)) ∧
    (∀ k (a : Addr), reqReg o1 s.text1 = .ok k → address s o2 s.text2 = .ok a →
      ∃ t, exec (.store o1 o2) s = .next t ∧ t = { s with mem := t.mem } ∧
        (Memory.wf s.mem = true → Memory.read t.mem a.val = s.x.get k) ∧
        (∀ b : Nat, b ≠ a.val → Memory.read t.mem b = Memory.read s.mem b))

/-- R166, R165, R170. The flags on the alternative basis `signed` (in `afterRotShift`) are the model's reading (log 12). -/
def Obligations.RolRotatesLeft : Prop :=
  ∀ (s : State) (o1 o2 : Operand),
    (encodeDiw (.rol o1 o2)).opc = 9#4 ∧
    (∀ e, reqReg o1 s.text1 = .error e → exec (.rol o1 o2) s = .next (afterError s "ROL" e)) ∧
    (∀ k e, reqReg o1 s.text1 = .ok k → value s o2 s.text2 = .error e →
      exec (.rol o1 o2) s = .next (afterError s "ROL" e)) ∧
    (∀ k v, reqReg o1 s.text1 = .ok k → value s o2 s.text2 = .ok v →
      let c := (v % 8).toNat
      ∃ n : Byte, n.toNat = (((s.x.get k).toNat <<< c) ||| ((s.x.get k).toNat >>> (8 - c))) % 256 ∧
        exec (.rol o1 o2) s = .next (afterRotShift s k n))

/-- R167, R165, R170. The flags on the alternative basis `signed` (in `afterRotShift`) are the model's reading (log 12). -/
def Obligations.RorRotatesRight : Prop :=
  ∀ (s : State) (o1 o2 : Operand),
    (encodeDiw (.ror o1 o2)).opc = 10#4 ∧
    (∀ e, reqReg o1 s.text1 = .error e → exec (.ror o1 o2) s = .next (afterError s "ROR" e)) ∧
    (∀ k e, reqReg o1 s.text1 = .ok k → value s o2 s.text2 = .error e →
      exec (.ror o1 o2) s = .next (afterError s "ROR" e)) ∧
    (∀ k v, reqReg o1 s.text1 = .ok k → value s o2 s.text2 = .ok v →
      let c := (v % 8).toNat
      ∃ n : Byte, n.toNat = (((s.x.get k).toNat >>> c) ||| ((s.x.get k).toNat <<< (8 - c))) % 256 ∧
        exec (.ror o1 o2) s = .next (afterRotShift s k n))

/-- R168, R165, R170. The flags on the alternative basis `signed` (in `afterRotShift`) are the model's reading (log 12). -/
def Obligations.ShlShiftsLeft : Prop :=
  ∀ (s : State) (o1 o2 : Operand),
    (encodeDiw (.shl o1 o2)).opc = 11#4 ∧
    (∀ e, reqReg o1 s.text1 = .error e → exec (.shl o1 o2) s = .next (afterError s "SHL" e)) ∧
    (∀ k e, reqReg o1 s.text1 = .ok k → value s o2 s.text2 = .error e →
      exec (.shl o1 o2) s = .next (afterError s "SHL" e)) ∧
    (∀ k v, reqReg o1 s.text1 = .ok k → value s o2 s.text2 = .ok v →
      let c := (v % 8).toNat
      ∃ n : Byte, n.toNat = ((s.x.get k).toNat * 2 ^ c) % 256 ∧ n.toNat % 2 ^ c = 0 ∧
        exec (.shl o1 o2) s = .next (afterRotShift s k n))

/-- R169, R165, R170: logical, so a non-zero count leaves `C`, `O` and `U` clear. The flags on the alternative basis `signed`
(in `afterRotShift`) are the model's reading (log 12). -/
def Obligations.ShrShiftsRightLogically : Prop :=
  ∀ (s : State) (o1 o2 : Operand),
    (encodeDiw (.shr o1 o2)).opc = 12#4 ∧
    (∀ e, reqReg o1 s.text1 = .error e → exec (.shr o1 o2) s = .next (afterError s "SHR" e)) ∧
    (∀ k e, reqReg o1 s.text1 = .ok k → value s o2 s.text2 = .error e →
      exec (.shr o1 o2) s = .next (afterError s "SHR" e)) ∧
    (∀ k v, reqReg o1 s.text1 = .ok k → value s o2 s.text2 = .ok v →
      let c := (v % 8).toNat
      ∃ n : Byte, n.toNat = (s.x.get k).toNat / 2 ^ c ∧ (c ≠ 0 → n.toNat ≤ 127) ∧
        exec (.shr o1 o2) s = .next (afterRotShift s k n))

/-- R180, R182: the register first, then one token, which is consumed; without an answer INPUT waits (R183). That an answer
that is ready completes INPUT in the same step, and that its absence ends the step in WAIT_INPUT, is the model's step
(logs 1 and 4). -/
def Obligations.InputReadsOneToken : Prop :=
  ∀ (s : State) (o1 o2 : Operand),
    (encodeDiw (.input o1 o2)).opc = 13#4 ∧
    (∀ e, reqReg o1 s.text1 = .error e → exec (.input o1 o2) s = .next (afterError s "INPUT" e)) ∧
    (∀ k, reqReg o1 s.text1 = .ok k →
      (s.inp = [] →
        exec (.input o1 o2) s = .next { s with out := s.out ++ [.nextToken], runState := .waitInput }) ∧
      (∀ r rest, s.inp = r :: rest →
        let s1 : State := { s with inp := rest, out := s.out ++ [.nextToken] }
        (r = .eof → exec (.input o1 o2) s = .next (afterError s1 "INPUT" ⟨.inputInvalid, ascii "<EOF>"⟩)) ∧
        (∀ b v, r = .token b → numeric b = some v → -32768 ≤ v → v ≤ 32767 →
          exec (.input o1 o2) s = .next (afterWrite s1 k v)) ∧
        (∀ b, r = .token b → (∀ v, numeric b = some v → v < -32768 ∨ 32767 < v) →
          exec (.input o1 o2) s = .next (afterError s1 "INPUT" ⟨.inputInvalid, b⟩))))

/-- R181, R192: one line is emitted, the register's signed decimal: it spells the value, with `-` exactly for
negatives, no `+` and no padding. -/
def Obligations.DisplayEmitsSignedDecimal : Prop :=
  ∀ (s : State) (o1 o2 : Operand),
    (encodeDiw (.display o1 o2)).opc = 14#4 ∧
    (∀ e, reqReg o1 s.text1 = .error e → exec (.display o1 o2) s = .next (afterError s "DISPLAY" e)) ∧
    (∀ k, reqReg o1 s.text1 = .ok k →
      ∃ line : Text, exec (.display o1 o2) s = .next { s with out := s.out ++ [.trace line] } ∧
        numeric line = some (s.x.get k).toInt ∧ (line.head? = some 0x2D#8 ↔ (s.x.get k).toInt < 0) ∧
        line.head? ≠ some 0x2B#8 ∧
        (∀ rest, line = 0x30#8 :: rest → rest = []) ∧ (∀ rest, line ≠ 0x2D#8 :: 0x30#8 :: rest))

/-! ## Laws of families -/

/-- R167 (S-P3): ROL then ROR by the same count restores the register; ROR by c is ROL by (8 - c) mod 8. -/
def Obligations.RotateRoundTrip : Prop :=
  ∀ (s : State) (k : RegIdx) (v : Int),
    (∃ t u, exec (.rol (.reg k) (.imm v)) s = .next t ∧ exec (.ror (.reg k) (.imm v)) t = .next u ∧ u.x = s.x) ∧
    (∃ t u, exec (.ror (.reg k) (.imm v)) s = .next t ∧ exec (.rol (.reg k) (.imm (8 - v))) s = .next u ∧
      u.x = t.x ∧ u.flags = t.flags)

/-- §8 scenario (R151, R152): a LOAD after a STORE to the same cell gives the stored register's value. -/
def Obligations.LoadAfterStoreGivesTheValue : Prop :=
  ∀ (s : State) (k j : RegIdx) (a : Addr), Memory.wf s.mem = true →
    ∃ t u, exec (.store (.reg k) (.memDir a)) s = .next t ∧ exec (.load (.memDir a) (.reg j)) t = .next u ∧
      u.regVal j = s.regVal k

/-! ## Frames -/

/-- R23, R28, R30, R114: ADD, SUB, MUL, DIV, INC, DEC, MOV, LOAD, ROL, ROR, SHL and SHR change at most their
destination register, the flags and the output. -/
def Obligations.RegisterInstructionsFrame : Prop :=
  ∀ (i : Instr) (s t : State), i.opcode ≠ .store → i.opcode ≠ .input → i.opcode ≠ .display → exec i s = .next t →
    (∀ k, destReg i ≠ some k → t.reg k = s.reg k) ∧ (destReg i = none → t.flags = s.flags) ∧
    SameMemory s t ∧ SameRest s t ∧ t.runState = s.runState ∧ t.inp = s.inp

/-- R152, R42: STORE changes at most the one cell its address operand names, and the output. -/
def Obligations.StoreFrame : Prop :=
  ∀ (o1 o2 : Operand) (s t : State), exec (.store o1 o2) s = .next t →
    (∀ k, t.reg k = s.reg k) ∧ t.flags = s.flags ∧ SameRest s t ∧ t.runState = s.runState ∧ t.inp = s.inp ∧
    (∀ a : Addr, address s o2 s.text2 = .ok a → ∀ b : Nat, b ≠ a.val → Memory.read t.mem b = Memory.read s.mem b) ∧
    ((∀ k, reqReg o1 s.text1 ≠ .ok k) ∨ (∀ a, address s o2 s.text2 ≠ .ok a) → SameMemory s t)

/-- R180, R183: INPUT changes at most its register, the flags, `run_state`, the token taken and the output. -/
def Obligations.InputFrame : Prop :=
  ∀ (o1 o2 : Operand) (s t : State), exec (.input o1 o2) s = .next t →
    (∀ k, o1 ≠ .reg k → t.reg k = s.reg k) ∧ ((∀ k, o1 ≠ .reg k) → t.flags = s.flags ∧ t.inp = s.inp) ∧
    SameMemory s t ∧ SameRest s t ∧ (t.inp = s.inp ∨ t.inp = s.inp.tail) ∧
    (t.runState = s.runState ∨ (s.inp = [] ∧ t.runState = .waitInput))

/-- R181: DISPLAY changes nothing but the output. -/
def Obligations.DisplayFrame : Prop :=
  ∀ (o1 o2 : Operand) (s t : State), exec (.display o1 o2) s = .next t →
    (∀ k, t.reg k = s.reg k) ∧ t.flags = s.flags ∧ SameMemory s t ∧ SameRest s t ∧
    t.runState = s.runState ∧ t.inp = s.inp

/-! ## Rules about all instructions -/

/-- R110: an instruction that emits a diagnostic writes no register, no cell and no flag, and the run goes on. -/
def Obligations.RecoverableErrorWritesNothing : Prop :=
  ∀ (i : Instr) (s t : State) (l : Text), exec i s = .next t →
    Output.trace (ascii "ERROR " ++ l) ∈ t.out.drop s.out.length →
    t.x = s.x ∧ t.mem = s.mem ∧ t.flags = s.flags ∧ t.pc = s.pc ∧ t.runState = s.runState ∧ t.haltCause = s.haltCause

/-- R43: only a STORE with a register source and a legal address can change a cell. -/
def Obligations.OnlyStoreWritesMemory : Prop :=
  ∀ (i : Instr) (s t : State) (a : Nat), exec i s = .next t → Memory.read t.mem a ≠ Memory.read s.mem a →
    ∃ k o2, i = .store (.reg k) o2 ∧ ∃ b : Addr, address s o2 s.text2 = .ok b ∧ a = b.val

/-- R28, R107: STORE and DISPLAY never write a flag or a register; when an instruction changes a flag or a register, its
destination register and all four flags come from one wide result. -/
def Obligations.FlagsAreReplacedTogether : Prop :=
  ∀ (i : Instr) (s t : State), exec i s = .next t → (t.flags ≠ s.flags ∨ t.x ≠ s.x) →
    i.opcode ≠ .store ∧ i.opcode ≠ .display ∧
    ∃ (k : RegIdx) (w : Int), destReg i = some k ∧ t.flags = deriveFlags w ∧ t.reg k = BitVec.ofInt 8 w

/-- R29: no instruction reads the flags: everything but the flags comes out the same from any flags. -/
def Obligations.NoInstructionReadsTheFlags : Prop :=
  ∀ (i : Instr) (s t : State) (f : Flags), exec i s = .next t →
    ∃ g, exec i { s with flags := f } = .next { t with flags := g } ∧ (g = t.flags ∨ (t.flags = s.flags ∧ g = f))

/-- R194: the diff is the ascending list of the addresses 0..63 whose cell differs; one instruction changes at most one. -/
def Obligations.MemoryDiffListsTheChangedCell : Prop :=
  (∀ (pre now : Memory) (a : Nat), a ∈ changedCells pre now ↔ a < 64 ∧ Memory.read now a ≠ Memory.read pre a) ∧
  (∀ pre now : Memory, (changedCells pre now).Pairwise (· < ·)) ∧
  (∀ (radix : TraceRadix) (pre now : Memory), changedCells pre now = [] →
    diffLines radix pre now = [ascii "Memory unchanged"]) ∧
  (∀ (radix : TraceRadix) (pre now : Memory), changedCells pre now ≠ [] →
    diffLines radix pre now =
      (changedCells pre now).map fun a => decText a ++ ascii " = " ++ hh radix (Memory.read now a)) ∧
  (∀ (i : Instr) (s t : State), exec i s = .next t → (changedCells s.mem t.mem).length ≤ 1)

/-- R193, R196, TRC4: two uppercase hexadecimal digits a byte, 25 bytes of register line, 23 of a memory row; the
machine's radix is 16. With the alternative radix 10 a byte is its decimal, zero-padded to at least two digits (R196). -/
def Obligations.HexTraceLayout : Prop :=
  State.reset.cfg.radix = .hex ∧
  (∀ b : Byte, hh .hex b =
    [(ascii "0123456789ABCDEF").getD (b.toNat / 16) 0#8, (ascii "0123456789ABCDEF").getD (b.toNat % 16) 0#8]) ∧
  (∀ x : Vector Byte 8, (registerLine .hex x).length = 25) ∧
  (∀ (m : Memory) (r : Nat), (memRow .hex m r).length = 23) ∧
  (∀ b : Byte, let digit (n : Nat) : Byte := (ascii "0123456789").getD n 0#8
    (b.toNat < 100 → hh .dec b = [digit (b.toNat / 10), digit (b.toNat % 10)]) ∧
    (100 ≤ b.toNat → hh .dec b = [digit (b.toNat / 100), digit (b.toNat / 10 % 10), digit (b.toNat % 10)]))

/-- R197: the fourteen lines of a dump, with the radix 16: registers, flags, counter, an empty line, the label, eight rows
of eight cells in ascending order, and the closing mark. -/
def Obligations.DumpRecordLayout : Prop :=
  ∀ s : State, s.cfg.radix = .hex →
    let d := dumpRecord s
    d.length = 14 ∧
    (∀ k : RegIdx, ((d.getD 0 []).drop (3 * k.val)).take 3 = hh .hex (s.x.get k) ++ ascii " ") ∧
    (d.getD 0 []).drop 24 = ascii "#" ∧
    d.getD 1 [] = [if s.flags.c then 0x31#8 else 0x30#8, 0x20#8, if s.flags.o then 0x31#8 else 0x30#8, 0x20#8,
      if s.flags.u then 0x31#8 else 0x30#8, 0x20#8, if s.flags.z then 0x31#8 else 0x30#8] ∧
    d.getD 2 [] = decText s.pc.toNat ∧ d.getD 3 [] = [] ∧ d.getD 4 [] = ascii "Memory" ∧
    (∀ r : Fin 8, (d.getD (5 + r.val) []).length = 23 ∧
      ∀ j : Fin 8, ((d.getD (5 + r.val) []).drop (3 * j.val)).take 3 =
        hh .hex (Memory.read s.mem (8 * r.val + j.val)) ++ if j = 7 then [] else ascii " ") ∧
    d.getD 13 [] = ascii "#"

/-! ## The step -/

/-- R103, R191: when the loader's answer is a line that decodes to instruction `i`, the step is `exec i` between the
header with the snapshot and the register line with the memory diff; a waiting INPUT suspends it. The fields `async`,
`src` and `lineReq` are the model's form of the ports (logs 1, 2, 4 and 5), and that the transient items are empty after
the transaction is the model's choice (log 8). -/
def Obligations.StepRunsTheDecodedInstruction : Prop :=
  ∀ (s : State) (l : Text) (rest : List SrcAnswer) (d : Decoded) (i : Instr),
    CoreActs s → LineDue s → s.src = .line l :: rest →
    decodeLine s.cfg.lineMax l = .instr d → decodeDiw d.diw = some i →
    let header := ascii "Step " ++ decText (s.pc + 1).toNat ++ ascii ": " ++ i.opcode.text ++
      (if 2 ≤ d.ntok then ascii " " ++ d.t1 else []) ++ (if d.ntok = 3 then ascii ", " ++ d.t2 else [])
    let s1 : State := { s with
      async := s.async.tail, src := rest, lineReq := false, pc := s.pc + 1, decoded := some d, pre := some s.mem,
      out := s.out ++ lineRequest s ++ [.trace header] }
    ∀ t, exec i s1 = .next t →
      (t.runState = .waitInput → step s = .next t) ∧
      (t.runState ≠ .waitInput → step s = .next { t with
        decoded := none, pre := none,
        out := t.out ++ (registerLine t.cfg.radix t.x :: diffLines t.cfg.radix s.mem t.mem).map .trace })

/-- R102: END halts with a dump; a line that is no instruction only counts; without an answer the core waits (R235; that
waiting is a step of its own is the model's choice, log 4, and the request is remembered in `lineReq`, log 5) until the
loader's answer lands (the form of a landing is the model's, log 2). -/
def Obligations.LineCycleWithoutInstruction : Prop :=
  ∀ s : State, LineDue s →
    (CoreActs s →
      (∀ rest, s.src = .eof :: rest → step s = .next { s with
        async := s.async.tail, src := rest, lineReq := false, runState := .halted, haltCause := .endOfSource,
        out := s.out ++ lineRequest s ++ [.dump (dumpRecord s)] }) ∧
      (∀ l rest, s.src = .line l :: rest → decodeLine s.cfg.lineMax l = .noInstr → step s = .next { s with
        async := s.async.tail, src := rest, lineReq := false, pc := s.pc + 1, out := s.out ++ lineRequest s }) ∧
      (s.src = [] → step s = .next { s with
        async := s.async.tail, lineReq := true, out := s.out ++ lineRequest s })) ∧
    (∀ a rest, s.lineReq = true → s.src = [] → s.async = .lineAnswer s.resets a :: rest →
      step s = .next { s with async := rest, src := [a] })

/-- R109, R195, R212: a fatal error emits its line with the cause's name, then a dump, and halts with its cause; a missing
source names no line. That MISSING is taken at any request is the model's choice (log 20), and the step's form is
(logs 1, 2 and 5). -/
def Obligations.FatalErrorReportsDumpsAndHalts : Prop :=
  ∀ (s : State) (rest : List SrcAnswer), CoreActs s → LineDue s →
    (∀ l c, s.src = .line l :: rest → decodeLine s.cfg.lineMax l = .fatal c →
      ∃ name : String,
        ((c = .tooManyTokens ∧ name = "TOO_MANY_TOKENS") ∨ (c = .unknownOpcode ∧ name = "UNKNOWN_OPCODE") ∨
          (c = .lineTooLong ∧ name = "LINE_TOO_LONG")) ∧
        step s = .next { s with
          async := s.async.tail, src := rest, lineReq := false, pc := s.pc + 1, runState := .halted, haltCause := c,
          out := s.out ++ lineRequest s ++
            [.trace (ascii "FATAL line " ++ decText (s.pc + 1).toNat ++ ascii ": " ++ ascii name),
             .dump (dumpRecord { s with pc := s.pc + 1 })] }) ∧
    (s.src = .missing :: rest → step s = .next { s with
      async := s.async.tail, src := rest, lineReq := false, runState := .halted, haltCause := .sourceMissing,
      out := s.out ++ lineRequest s ++ [.trace (ascii "FATAL: SOURCE_MISSING"), .dump (dumpRecord s)] })

/-- R183: while it waits the core does nothing; an answer that lands is taken up, it ends the wait, INPUT completes, and the
transaction ends (a waiting step, a landing and a completing step are the model's steps, logs 1, 2 and 4, and the emptied
transient items are its choice, log 8). -/
def Obligations.WaitingInputCompletesOnAnswer : Prop :=
  ∀ (s : State) (k : RegIdx), StateInv s = true → s.runState = .waitInput → s.pendingInput = some k →
    (CoreActs s → s.inp = [] → step s = .next (afterQuiet s)) ∧
    (∀ r rest, s.inp = [] → s.async = .tokenAnswer s.resets r :: rest →
      step s = .next { s with async := rest, inp := [r] }) ∧
    (CoreActs s → ∀ r rest, s.inp = r :: rest →
      let s1 : State := { s with async := s.async.tail, runState := .running, inp := rest }
      ∃ u, step s = .next { u with
          decoded := none, pre := none,
          out := u.out ++ [.trace (registerLine u.cfg.radix u.x), .trace (ascii "Memory unchanged")] } ∧
        (r = .eof → u = afterError s1 "INPUT" ⟨.inputInvalid, ascii "<EOF>"⟩) ∧
        (∀ b v, r = .token b → numeric b = some v → -32768 ≤ v → v ≤ 32767 → u = afterWrite s1 k v) ∧
        (∀ b, r = .token b → (∀ v, numeric b = some v → v < -32768 ∨ 32767 < v) →
          u = afterError s1 "INPUT" ⟨.inputInvalid, b⟩))

/-- R115: a halted core changes nothing without a reset, for any number of steps, whatever else lands: quiet steps and
late answers leave every field but the list of landings as it was, and dump requests give dumps of that same state and
nothing else. The list, its landings and the held count are the model's form (logs 2 and 6). -/
def Obligations.HaltedCoreStaysHalted : Prop :=
  ∀ (s : State) (n : Nat), StateInv s = true → s.runState = .halted →
    (∀ e ∈ s.async, e ≠ .rst ∧ ∀ m, e ≠ .rstDuring m) →
    (s.dumpPending = 0 → (∀ e ∈ s.async, e ≠ .dumpReq) →
      Host.Core.run Sys2Proof.core n s = .next { s with async := s.async.drop n }) ∧
    ∃ held sent : Nat, Host.Core.run Sys2Proof.core n s = .next { s with
      async := s.async.drop n, dumpPending := held,
      out := s.out ++ List.replicate sent (.dump (dumpRecord s)) } ∧
      held + sent = s.dumpPending + (s.async.take n).count .dumpReq

/-- R116: a dump request is served between line cycles or when halted, changes nothing else, and is held in a line cycle.
That a request lands and is served in steps of their own, and that several are counted, is the model's choice (logs 2 and 6). -/
def Obligations.DumpOnDemandAtABoundaryOnly : Prop :=
  ∀ s : State,
    (∀ rest, s.async = .dumpReq :: rest → step s = .next { s with async := rest, dumpPending := s.dumpPending + 1 }) ∧
    (CoreActs s → 0 < s.dumpPending →
      ((s.runState = .running ∧ s.lineReq = false) ∨ s.runState = .halted →
        step s = .next { s with
          async := s.async.tail, dumpPending := s.dumpPending - 1, out := s.out ++ [.dump (dumpRecord s)] }) ∧
      (s.runState = .running → s.lineReq = true → s.src = [] → step s = .next (afterQuiet s)) ∧
      (StateInv s = true → s.runState = .waitInput → s.inp = [] → step s = .next (afterQuiet s)))

/-- R25, R27: `pc` is changed by one thing only, a consumed line, which adds 1 modulo 2^32. -/
def Obligations.PcCountsConsumedLines : Prop :=
  ∀ s t : State, coreStep s = .next t →
    (LineDue s → (∃ l rest, s.src = .line l :: rest) → t.pc.toNat = (s.pc.toNat + 1) % 2 ^ 32) ∧
    (¬ (LineDue s ∧ ∃ l rest, s.src = .line l :: rest) → t.pc = s.pc)

/-! ## Reset -/

/-- R35: the architectural state after reset; and the parameter values R5 gives (`LINE_MAX` at the model's default, R78). -/
def Obligations.ResetStateIsZero : Prop :=
  (∀ k, State.reset.regVal k = 0) ∧ (∀ a : Nat, Memory.read State.reset.mem a = 0#8) ∧
  State.reset.flags = ⟨false, false, false, false⟩ ∧ State.reset.pc = 0#32 ∧
  State.reset.runState = .running ∧ State.reset.haltCause = .none ∧
  State.reset.cfg.divRounding = .towardZero ∧ State.reset.cfg.flagBasis = .unsigned ∧ State.reset.cfg.radix = .hex ∧
  State.reset.cfg.lineMax = none ∧ State.reset.cfg.image = ResetImage.zero

/-- R230, R231: `rst` in any state sets every piece of state to its reset value, cancels a port request together with an
answer to it that has not been taken, and keeps the trace. An answer to a request of before the last reset is lost
whenever it lands, also when a later request is outstanding, and so is one that lands with no request outstanding. The
lists `src` and `inp`, the form of a landing, and the count of resets that tells the requests apart are the model's
(logs 1, 2, 7 and 23). -/
def Obligations.ResetRestoresEveryState : Prop :=
  (∀ (s : State) (rest : List AsyncInput), s.async = .rst :: rest → s.cfg.image = ResetImage.zero →
    ∃ t, step s = .next t ∧ (∀ k, t.regVal k = 0) ∧ (∀ a : Nat, Memory.read t.mem a = 0#8) ∧
      t.flags = ⟨false, false, false, false⟩ ∧ t.pc = 0#32 ∧ t.runState = .running ∧ t.haltCause = .none ∧
      t.lineReq = false ∧ t.out = s.out ∧ t.async = rest ∧ t.cfg = s.cfg ∧
      t.resets = s.resets + 1 ∧
      t.src = (if s.lineReq = true then s.src.tail else s.src) ∧
      t.inp = (if s.runState = .waitInput then s.inp.tail else s.inp)) ∧
  (∀ (s : State) (n : Nat) (a : SrcAnswer) (rest : List AsyncInput), s.async = .lineAnswer n a :: rest →
    n < s.resets ∨ s.lineReq = false → step s = .next { s with async := rest }) ∧
  (∀ (s : State) (n : Nat) (r : InpAnswer) (rest : List AsyncInput), s.async = .tokenAnswer n r :: rest →
    n < s.resets ∨ s.runState ≠ .waitInput → step s = .next { s with async := rest })

/-- R230: `rst` inside an action of the core abandons it: the state is the reset state, and the output keeps exactly the
first `n` transactions that action would have sent. The clauses on `src` and `inp` are the model's choice (log 25), and so is
that the transient items are empty after reset (log 8). -/
def Obligations.ResetInsideACycleAbandonsIt : Prop :=
  ∀ (s u : State) (n : Nat) (rest : List AsyncInput), s.async = .rstDuring n :: rest →
    coreStep { s with async := rest } = .next u →
    ∃ t, step s = .next t ∧ t.x = s.cfg.image.x ∧ t.mem = s.cfg.image.mem ∧ t.flags = s.cfg.image.flags ∧
      t.pc = s.cfg.image.pc ∧ t.runState = .running ∧ t.haltCause = .none ∧ t.decoded = none ∧ t.lineReq = false ∧
      (∃ sent, u.out = s.out ++ sent ∧ t.out = s.out ++ sent.take n) ∧
      (t.src = s.src ∨ t.src = s.src.tail) ∧ (t.inp = s.inp ∨ t.inp = s.inp.tail)

/-! ## Invariants of every step -/

/-- The invariant holds at reset. -/
def Obligations.ResetStateMeetsTheInvariant : Prop := StateInv State.reset = true

/-- R30, R32, R33, R104: every step keeps the invariant: canonical memory, coherent flags, `halt_cause` NONE exactly
when not halted, transient items exactly in WAIT_INPUT with an INPUT pending. -/
def Obligations.EveryStepKeepsTheInvariant : Prop :=
  ∀ s t : State, StateInv s = true → step s = .next t → StateInv t = true

/-- R77, R115, R235: from every state that meets the invariant the step answers a next state; it never faults and
never refuses. -/
def Obligations.EveryStepProceeds : Prop := ∀ s : State, StateInv s = true → ∃ t, step s = .next t

/-- R190, R5: no step takes back an output or changes a parameter; and only a reset adds one to the model's count of resets
(logs 7 and 23). -/
def Obligations.OutputIsAppendOnly : Prop :=
  ∀ s t : State, step s = .next t → s.out <+: t.out ∧ t.cfg = s.cfg ∧ s.resets ≤ t.resets ∧ t.resets ≤ s.resets + 1 ∧
    (t.resets = s.resets + 1 ↔ (∃ rest, s.async = .rst :: rest) ∨ ∃ n rest, s.async = .rstDuring n :: rest)

/-- R32, R211, R212: the status ports: RUNNING 0, WAIT_INPUT 1, HALTED 2, never 3; `halt_cause` is the cause's number, 0
exactly when not HALTED, and never 6 or 7; and the numbers and names of the causes and of the errors. -/
def Obligations.StatusPortsFollowTheRun : Prop :=
  (∀ s : State, StateInv s = true →
    (s.runStatePort = 0#2 ↔ s.runState = .running) ∧ (s.runStatePort = 1#2 ↔ s.runState = .waitInput) ∧
    (s.runStatePort = 2#2 ↔ s.runState = .halted) ∧ s.runStatePort ≠ 3#2 ∧
    [HaltCause.none, .endOfSource, .sourceMissing, .tooManyTokens, .unknownOpcode, .lineTooLong][s.haltCausePort.toNat]? =
      some s.haltCause ∧
    (s.haltCausePort = 0#3 ↔ s.runStatePort ≠ 2#2) ∧ s.haltCausePort ≠ 6#3 ∧ s.haltCausePort ≠ 7#3) ∧
  ([HaltCause.none, .endOfSource, .sourceMissing, .tooManyTokens, .unknownOpcode, .lineTooLong].map
      fun c => (causeCode c, causeText c)) =
    [(0#3, ascii "NONE"), (1#3, ascii "END_OF_SOURCE"), (2#3, ascii "SOURCE_MISSING"), (3#3, ascii "TOO_MANY_TOKENS"),
     (4#3, ascii "UNKNOWN_OPCODE"), (5#3, ascii "LINE_TOO_LONG")] ∧
  ([ErrCode.missingOperand, .invalidRegister, .registerRequired, .noRegisterOperand, .badOperand, .invalidAddress,
      .addressRequired, .divideByZero, .inputInvalid].map fun e => (e.number, e.text)) =
    [(1, ascii "E_MISSING_OPERAND"), (2, ascii "E_INVALID_REGISTER"), (3, ascii "E_REGISTER_REQUIRED"),
     (4, ascii "E_NO_REGISTER_OPERAND"), (5, ascii "E_BAD_OPERAND"), (6, ascii "E_INVALID_ADDRESS"),
     (7, ascii "E_ADDRESS_REQUIRED"), (8, ascii "E_DIVIDE_BY_ZERO"), (9, ascii "E_INPUT_INVALID")]

/-! ## A run -/

/-- R183 as a run: an INPUT without an answer ends its step in WAIT_INPUT, an answer that lands leaves it there, and the
next step is RUNNING again with INPUT completed: the integer's low 8 bits and its flags, or a diagnostic with no register,
cell or flag changed. One step for each of the three is the model's form (logs 1, 2 and 4). -/
def Obligations.UnansweredInputWaitsIsAnsweredAndRunsOn : Prop :=
  ∀ (s : State) (l : Text) (more : List SrcAnswer) (d : Decoded) (k : RegIdx) (o2 : Operand) (r : InpAnswer)
    (rest : List AsyncInput),
    LineDue s → s.inp = [] → s.src = .line l :: more →
    decodeLine s.cfg.lineMax l = .instr d → decodeDiw d.diw = some (.input (.reg k) o2) →
    s.async = .quiet :: .tokenAnswer s.resets r :: .quiet :: rest →
    ∃ a b c, step s = .next a ∧ step a = .next b ∧ step b = .next c ∧
      a.runState = .waitInput ∧ a.pendingInput = some k ∧ a.out.getLast? = some .nextToken ∧
      b.runState = .waitInput ∧ b.out = a.out ∧
      c.runState = .running ∧ c.inp = [] ∧ c.src = more ∧ c.async = rest ∧ c.pc = s.pc + 1 ∧ SameMemory s c ∧
      (∀ j, j ≠ k → c.reg j = s.reg j) ∧
      (∀ t v, r = .token t → numeric t = some v → -32768 ≤ v → v ≤ 32767 →
        c.regVal k = (v + 128) % 256 - 128 ∧ c.flags = deriveFlags v ∧
        c.out = a.out ++ [.trace (registerLine s.cfg.radix c.x), .trace (ascii "Memory unchanged")]) ∧
      (∀ tok, (r = .eof ∧ tok = ascii "<EOF>") ∨
          (r = .token tok ∧ ∀ v, numeric tok = some v → v < -32768 ∨ 32767 < v) →
        c.x = s.x ∧ c.flags = s.flags ∧
        c.out = a.out ++ [.trace (ascii "ERROR E_INPUT_INVALID: INPUT " ++ tok),
          .trace (registerLine s.cfg.radix s.x), .trace (ascii "Memory unchanged")])
end

