-- ==== Sys2Proof/Laws/Text.lean ====
section
/-! SUPPORT. Tokens of a line, and decimal text read back as its number. -/

namespace Sys2Proof

/-! ## Tokens (R63 to R65) -/

theorem splitSep_ne_nil (l : Text) : splitSep l ≠ [] := by
  induction l with
  | nil => simp [splitSep]
  | cons b r ih =>
    simp only [splitSep]
    split
    · simp
    · split <;> simp

theorem splitSep_sep {b : Byte} (h : isSep b = true) (r : Text) : splitSep (b :: r) = [] :: splitSep r := by
  simp [splitSep, h]

/-- A text without separators is one run. -/
theorem splitSep_free {t : Text} (h : ∀ b ∈ t, isSep b = false) : splitSep t = [t] := by
  induction t with
  | nil => rfl
  | cons b r ih => simp [splitSep, h b (by simp), ih fun c hc => h c (by simp [hc])]

/-- A separator ends a run. -/
theorem splitSep_append_sep {t : Text} (h : ∀ b ∈ t, isSep b = false) {c : Byte} (hc : isSep c = true) (r : Text) :
    splitSep (t ++ c :: r) = t :: splitSep r := by
  induction t with
  | nil => simp [splitSep, hc]
  | cons b r' ih => simp [splitSep, h b (by simp), ih fun c hc => h c (by simp [hc])]

theorem splitSep_snoc_sep {c : Byte} (hc : isSep c = true) (l : Text) : splitSep (l ++ [c]) = splitSep l ++ [[]] := by
  induction l with
  | nil => simp [splitSep, hc]
  | cons b r ih =>
    simp only [List.cons_append, splitSep, ih]
    split
    · simp
    · obtain ⟨t, ts, hts⟩ := List.exists_cons_of_ne_nil (splitSep_ne_nil r)
      simp [hts]

theorem tokens_cons_sep {b : Byte} (h : isSep b = true) (r : Text) : tokens (b :: r) = tokens r := by
  simp [tokens, splitSep, h]

theorem tokens_snoc_sep {b : Byte} (h : isSep b = true) (l : Text) : tokens (l ++ [b]) = tokens l := by
  simp [tokens, splitSep_snoc_sep h]

/-- A token before a separator. -/
theorem tokens_append_sep {t : Text} (hne : t ≠ []) (h : ∀ b ∈ t, isSep b = false) {c : Byte} (hc : isSep c = true)
    (r : Text) : tokens (t ++ c :: r) = t :: tokens r := by
  simp [tokens, splitSep_append_sep h hc, hne]

theorem tokens_free {t : Text} (hne : t ≠ []) (h : ∀ b ∈ t, isSep b = false) : tokens t = [t] := by
  simp [tokens, splitSep_free h, hne]

theorem isSep_of_isSpace {b : Byte} (h : isSpace b = true) : isSep b = true := by simp [isSep, h]

theorem tokens_dropWhile_space (l : Text) : tokens (l.dropWhile isSpace) = tokens l := by
  induction l with
  | nil => rfl
  | cons b r ih =>
    by_cases h : isSpace b = true
    · simp [List.dropWhile, h, ih, tokens_cons_sep (isSep_of_isSpace h)]
    · simp [List.dropWhile, h]

theorem tokens_reverse_dropWhile_space (l : Text) : tokens (l.dropWhile isSpace).reverse = tokens l.reverse := by
  induction l with
  | nil => rfl
  | cons b r ih =>
    by_cases h : isSpace b = true
    · simp [List.dropWhile, h, ih, tokens_snoc_sep (isSep_of_isSpace h)]
    · simp [List.dropWhile, h]

/-- R63: trimming cannot change the tokens. -/
theorem tokens_trim (l : Text) : tokens (trim l) = tokens l := by
  rw [trim, tokens_reverse_dropWhile_space, List.reverse_reverse, tokens_dropWhile_space]

theorem upper_toNat (b : Byte) :
    (upper b).toNat = if 0x61 ≤ b.toNat ∧ b.toNat ≤ 0x7A then b.toNat - 0x20 else b.toNat := by
  unfold upper isLower
  by_cases h : 0x61 ≤ b.toNat ∧ b.toNat ≤ 0x7A
  · simp only [h, decide_true, Bool.and_self, if_true, and_self]
    have := b.isLt
    simp [BitVec.toNat_sub]
    omega
  · rw [if_neg h, if_neg (by simpa using h)]

theorem isSep_upper (b : Byte) : isSep (upper b) = isSep b := by
  have h := upper_toNat b
  simp only [isSep, isSpace, h]
  split
  · rw [Bool.eq_iff_iff]
    simp
    omega
  · rfl

theorem splitSep_map_upper (l : Text) : splitSep (l.map upper) = (splitSep l).map (List.map upper) := by
  induction l with
  | nil => rfl
  | cons b r ih =>
    simp only [List.map_cons, splitSep, isSep_upper, ih]
    split
    · simp
    · obtain ⟨t, ts, hts⟩ := List.exists_cons_of_ne_nil (splitSep_ne_nil r)
      simp [hts]

/-- Case does not move a token's ends (R63, R65). -/
theorem tokens_map_upper (l : Text) : tokens (l.map upper) = (tokens l).map (List.map upper) := by
  simp only [tokens, splitSep_map_upper, List.filter_map]
  congr 1
  apply List.filter_congr
  intro t _
  simp

/-- The tokens of the normalised line, from the line without its comment. -/
theorem tokens_normalise (l : Text) : tokens (normalise l) = (tokens (stripComment l)).map (List.map upper) := by
  rw [normalise, tokens_map_upper, tokens_trim]

theorem upper_upper (b : Byte) : upper (upper b) = upper b := by
  apply BitVec.eq_of_toNat_eq
  rw [upper_toNat, upper_toNat]
  by_cases h : 0x61 ≤ b.toNat ∧ b.toNat ≤ 0x7A
  · rw [if_pos h, if_neg (by omega)]
  · rw [if_neg h, if_neg h]

theorem upper_of_not_lower {b : Byte} (h : isLower b = false) : upper b = b := by simp [upper, h]

/-- A line has no token exactly when it holds only separators. -/
theorem tokens_eq_nil (l : Text) : tokens l = [] ↔ ∀ b ∈ l, isSep b = true := by
  induction l with
  | nil => simp [tokens, splitSep]
  | cons b r ih =>
    by_cases h : isSep b = true
    · simp [tokens_cons_sep h, ih, h]
    · have hb : isSep b = false := by simpa using h
      obtain ⟨t, ts, hts⟩ := List.exists_cons_of_ne_nil (splitSep_ne_nil r)
      simp [tokens, splitSep, hb, hts]

/-- R65: the runs between separators are the pieces of the line split at them. -/
theorem splitSep_eq_splitOnP (l : Text) : splitSep l = l.splitOnP isSep := by
  induction l with
  | nil => simp [splitSep]
  | cons b r ih =>
    rw [List.splitOnP_cons_eq_if_modifyHead, splitSep, ← ih]
    split
    · rfl
    · obtain ⟨t, ts, hts⟩ := List.exists_cons_of_ne_nil (splitSep_ne_nil r)
      simp [hts]

/-- R62 to R65: the tokens of a line, from the bytes of the rules. -/
theorem tokens_normalise_eq_splitOnP (l : Text) : tokens (normalise l) =
    (((l.takeWhile fun b => b != 0x3B#8).map
        fun b => if 0x61 ≤ b.toNat ∧ b.toNat ≤ 0x7A then b - 0x20#8 else b).splitOnP
      fun b => ([0x20#8, 0x09#8, 0x0A#8, 0x0B#8, 0x0C#8, 0x0D#8, 0x2C#8] : Text).contains b).filter fun t => t != [] := by
  have h1 : stripComment l = l.takeWhile fun b => b != 0x3B#8 := by
    unfold stripComment; congr 1; funext b
    rw [Bool.eq_iff_iff]; simp [← BitVec.toNat_inj]
  have h2 : (fun b : Byte => if 0x61 ≤ b.toNat ∧ b.toNat ≤ 0x7A then b - 0x20#8 else b) = upper := by
    funext b; simp [upper, isLower]
  have h3 : (fun b => ([0x20#8, 0x09#8, 0x0A#8, 0x0B#8, 0x0C#8, 0x0D#8, 0x2C#8] : Text).contains b) = isSep := by
    funext b
    rw [Bool.eq_iff_iff]; simp [isSep, isSpace, ← BitVec.toNat_inj]; omega
  have h4 : (fun t : Text => !t.isEmpty) = fun t => t != [] := by
    funext t; cases t <;> rfl
  rw [tokens_normalise, ← tokens_map_upper, tokens, splitSep_eq_splitOnP, h1, h2, h3, h4]

/-! ## Decimal text (R73, R191, R192) -/

theorem digitByte_toNat {n : Nat} (h : n < 10) : (digitByte n).toNat = 0x30 + n := by
  simp [digitByte]
  omega

theorem isDigit_digitByte {n : Nat} (h : n < 10) : isDigit (digitByte n) = true := by
  simp [isDigit, digitByte_toNat h]
  omega

theorem decDigits_isDigit (fuel n : Nat) : ∀ b ∈ decDigits fuel n, isDigit b = true := by
  induction fuel generalizing n with
  | zero => simp [decDigits]
  | succ f ih =>
    simp only [decDigits]
    split
    · rename_i h
      simpa using isDigit_digitByte h
    · intro b hb
      rcases List.mem_append.mp hb with h | h
      · exact ih _ b h
      · rw [List.mem_singleton.mp h]
        exact isDigit_digitByte (Nat.mod_lt _ (by decide))

theorem digitsValue_snoc (t : Text) (b : Byte) : digitsValue (t ++ [b]) = 10 * digitsValue t + (b.toNat - 0x30) := by
  simp [digitsValue]

theorem digitsValue_decDigits {fuel n : Nat} (h : n < fuel) : digitsValue (decDigits fuel n) = n := by
  induction fuel generalizing n with
  | zero => omega
  | succ f ih =>
    simp only [decDigits]
    split
    · rename_i h10
      simp [digitsValue, digitByte_toNat h10]
    · rename_i h10
      rw [digitsValue_snoc, ih (by omega), digitByte_toNat (Nat.mod_lt _ (by decide))]
      omega

theorem decText_isDigit (n : Nat) : ∀ b ∈ decText n, isDigit b = true := decDigits_isDigit _ _

theorem decText_ne_nil (n : Nat) : decText n ≠ [] := by
  simp only [decText, decDigits]
  split <;> simp

theorem natToken_decText (n : Nat) : natToken (decText n) = some n := by
  have h : (decText n).all isDigit = true := List.all_eq_true.mpr (decText_isDigit n)
  have hv : digitsValue (decText n) = n := digitsValue_decDigits (Nat.lt_succ_self n)
  simp [natToken, decText_ne_nil, h, hv]

/-- The first byte of a digit run. -/
theorem decText_head (n : Nat) : ∃ b r, decText n = b :: r ∧ isDigit b = true := by
  obtain ⟨b, r, h⟩ := List.exists_cons_of_ne_nil (decText_ne_nil n)
  exact ⟨b, r, h, decText_isDigit n b (by simp [h])⟩

theorem isDigit_iff {b : Byte} : isDigit b = true ↔ 0x30 ≤ b.toNat ∧ b.toNat ≤ 0x39 := by simp [isDigit]

theorem numeric_decText (n : Nat) : numeric (decText n) = some (n : Int) := by
  obtain ⟨b, r, h, hb⟩ := decText_head n
  have hn := natToken_decText n
  rw [h] at hn ⊢
  obtain ⟨h1, h2⟩ := isDigit_iff.mp hb
  simp only [numeric]
  rw [if_neg (by omega), if_neg (by omega), hn]
  rfl

/-- R192 against R73: signed decimal text spells its value. -/
theorem numeric_decSigned (v : Int) : numeric (decSigned v) = some v := by
  unfold decSigned
  split
  · have h : numeric (0x2D#8 :: decText v.natAbs) = some (-(v.natAbs : Int)) := by
      simp [numeric, natToken_decText]
    rw [h]
    congr 1
    omega
  · rw [numeric_decText]
    congr 1
    omega

/-- The bytes of signed decimal text: a digit or `-`. -/
theorem decSigned_bytes (v : Int) : ∀ b ∈ decSigned v, isDigit b = true ∨ b = 0x2D#8 := by
  intro b hb
  unfold decSigned at hb
  split at hb
  · rcases List.mem_cons.mp hb with h | h
    · exact .inr h
    · exact .inl (decText_isDigit _ b h)
  · exact .inl (decText_isDigit _ b hb)

theorem decSigned_ne_nil (v : Int) : decSigned v ≠ [] := by
  unfold decSigned
  split
  · simp
  · exact decText_ne_nil _

end Sys2Proof
end

