-- ==== Sys2Proof/Laws/Decode.lean ====
section
/-! SUPPORT. The pieces of the decoder and the encoders: operands, opcodes, fields, tokens. -/

namespace Sys2Proof

/-! ## DIW fields (R71) -/

theorem Diw.opc_pack (p2 : BitVec 16) (k2 : BitVec 4) (p1 : BitVec 16) (k1 opc : BitVec 4) :
    (Diw.pack p2 k2 p1 k1 opc).opc = opc := by
  ext i hi
  simp only [Diw.opc, Diw.pack, BitVec.getElem_extractLsb', BitVec.getLsbD_append]
  simp [hi, ← BitVec.getLsbD_eq_getElem]

theorem Diw.k1_pack (p2 : BitVec 16) (k2 : BitVec 4) (p1 : BitVec 16) (k1 opc : BitVec 4) :
    (Diw.pack p2 k2 p1 k1 opc).k1 = k1 := by
  ext i hi
  simp only [Diw.k1, Diw.pack, BitVec.getElem_extractLsb', BitVec.getLsbD_append]
  simp [hi, ← BitVec.getLsbD_eq_getElem]

theorem Diw.p1_pack (p2 : BitVec 16) (k2 : BitVec 4) (p1 : BitVec 16) (k1 opc : BitVec 4) :
    (Diw.pack p2 k2 p1 k1 opc).p1 = p1 := by
  ext i hi
  have e : ¬ 8 + i < 4 := by omega
  have e' : ¬ 8 + i - 4 < 4 := by omega
  have e'' : 8 + i - 4 - 4 = i := by omega
  simp only [Diw.p1, Diw.pack, BitVec.getElem_extractLsb', BitVec.getLsbD_append, e, e', e'', hi]
  simp [← BitVec.getLsbD_eq_getElem]

theorem Diw.k2_pack (p2 : BitVec 16) (k2 : BitVec 4) (p1 : BitVec 16) (k1 opc : BitVec 4) :
    (Diw.pack p2 k2 p1 k1 opc).k2 = k2 := by
  ext i hi
  have e : ¬ 24 + i < 4 := by omega
  have e' : ¬ 24 + i - 4 < 4 := by omega
  have e2 : ¬ 24 + i - 4 - 4 < 16 := by omega
  have e3 : 24 + i - 4 - 4 - 16 = i := by omega
  simp only [Diw.k2, Diw.pack, BitVec.getElem_extractLsb', BitVec.getLsbD_append, e, e', e2, e3, hi]
  simp [← BitVec.getLsbD_eq_getElem]

theorem Diw.p2_pack (p2 : BitVec 16) (k2 : BitVec 4) (p1 : BitVec 16) (k1 opc : BitVec 4) :
    (Diw.pack p2 k2 p1 k1 opc).p2 = p2 := by
  ext i hi
  have e : ¬ 28 + i < 4 := by omega
  have e' : ¬ 28 + i - 4 < 4 := by omega
  have e2 : ¬ 28 + i - 4 - 4 < 16 := by omega
  have e3 : ¬ 28 + i - 4 - 4 - 16 < 4 := by omega
  have e4 : 28 + i - 4 - 4 - 16 - 4 = i := by omega
  simp only [Diw.p2, Diw.pack, BitVec.getElem_extractLsb', BitVec.getLsbD_append, e, e', e2, e3, e4]
  simp [← BitVec.getLsbD_eq_getElem]

/-- A DIW is its five fields. -/
theorem Diw.pack_fields (d : Diw) : Diw.pack d.p2 d.k2 d.p1 d.k1 d.opc = d := by
  apply BitVec.eq_of_getLsbD_eq
  intro i hi
  simp only [Diw.pack, Diw.opc, Diw.k1, Diw.p1, Diw.k2, Diw.p2, BitVec.getLsbD_append, BitVec.getLsbD_extractLsb']
  have h4 : i < 4 ∨ (4 ≤ i ∧ i < 8) ∨ (8 ≤ i ∧ i < 24) ∨ (24 ≤ i ∧ i < 28) ∨ 28 ≤ i := by omega
  rcases h4 with h | h | h | h | h
  · simp [h]
  · have e1 : ¬ i < 4 := by omega
    have e2 : i - 4 < 4 := by omega
    have e3 : 4 + (i - 4) = i := by omega
    simp [e1, e2, e3]
  · have e1 : ¬ i < 4 := by omega
    have e2 : ¬ i - 4 < 4 := by omega
    have e3 : i - 4 - 4 < 16 := by omega
    have e4 : 8 + (i - 4 - 4) = i := by omega
    simp [e1, e2, e3, e4]
  · have e1 : ¬ i < 4 := by omega
    have e2 : ¬ i - 4 < 4 := by omega
    have e3 : ¬ i - 4 - 4 < 16 := by omega
    have e4 : i - 4 - 4 - 16 < 4 := by omega
    have e5 : 24 + (i - 4 - 4 - 16) = i := by omega
    simp [e1, e2, e3, e4, e5]
  · have e1 : ¬ i < 4 := by omega
    have e2 : ¬ i - 4 < 4 := by omega
    have e3 : ¬ i - 4 - 4 < 16 := by omega
    have e4 : ¬ i - 4 - 4 - 16 < 4 := by omega
    have e5 : i - 4 - 4 - 16 - 4 < 16 := by omega
    have e6 : 28 + (i - 4 - 4 - 16 - 4) = i := by omega
    simp [e1, e2, e3, e4, e5, e6]

/-! ## Opcodes (R68) -/

theorem Opcode.ofCode_code (op : Opcode) : Opcode.ofCode op.code = some op := by cases op <;> decide

theorem Opcode.ofText_text (op : Opcode) : Opcode.ofText op.text = some op := by cases op <;> decide

theorem Opcode.mem_all (op : Opcode) : op ∈ Opcode.all := by cases op <;> decide

theorem Opcode.text_of_ofText {t : Text} {op : Opcode} (h : Opcode.ofText t = some op) : op.text = t := by
  simpa using List.find?_some h

theorem Opcode.code_of_ofCode {c : BitVec 4} {op : Opcode} (h : Opcode.ofCode c = some op) : op.code = c := by
  simpa using List.find?_some h

theorem Instr.make_opcode (i : Instr) : Instr.make i.opcode i.operands.1 i.operands.2 = i := by cases i <;> rfl

@[simp] theorem Instr.opcode_make (op : Opcode) (a b : Operand) : (Instr.make op a b).opcode = op := by cases op <;> rfl

@[simp] theorem Instr.operands_make (op : Opcode) (a b : Operand) : (Instr.make op a b).operands = (a, b) := by
  cases op <;> rfl

/-! ## Operands (R72, R76, R77) -/

theorem payloadReg_ofNat (k : RegIdx) : payloadReg (BitVec.ofNat 16 k.val) = some k := by
  have h : (BitVec.ofNat 16 k.val).toNat = k.val := by
    rw [BitVec.toNat_ofNat]; omega
  simp [payloadReg, h]

theorem payloadAddr_ofNat (a : Addr) : payloadAddr (BitVec.ofNat 16 a.val) = some a := by
  have h : (BitVec.ofNat 16 a.val).toNat = a.val := by
    rw [BitVec.toNat_ofNat]; omega
  simp [payloadAddr, h]

theorem immInRange_iff {v : Int} : immInRange v = true ↔ -32768 ≤ v ∧ v ≤ 32767 := by simp [immInRange]

theorem immInRange_toInt (p : BitVec 16) : immInRange p.toInt = true := by
  have h1 := BitVec.toInt_lt (x := p)
  have h2 := BitVec.le_toInt (x := p)
  norm_num at h1 h2
  exact immInRange_iff.mpr ⟨h2, by omega⟩

theorem toInt_ofInt_imm {v : Int} (h : immInRange v = true) : (BitVec.ofInt 16 v).toInt = v := by
  obtain ⟨h1, h2⟩ := immInRange_iff.mp h
  rw [BitVec.toInt_ofInt]
  exact Int.bmod_eq_of_le (by norm_num; omega) (by norm_num; omega)

/-- An operand's kind and payload give it back. -/
theorem decodeOperand_encode {o : Operand} (h : o.wf = true) : decodeOperand o.kind o.payload = some o := by
  cases o with
  | imm v => simpa [decodeOperand, Operand.kind, Operand.payload] using toInt_ofInt_imm h
  | reg k => simp [decodeOperand, Operand.kind, Operand.payload, payloadReg_ofNat]
  | memInd k => simp [decodeOperand, Operand.kind, Operand.payload, payloadReg_ofNat]
  | memDir a => simp [decodeOperand, Operand.kind, Operand.payload, payloadAddr_ofNat]
  | _ => rfl

/-! ## Tokens (R72 to R75) -/

/-- The bytes of an operand's token: printable but for the one of ABSENT, no `;`, `,` or lowercase letter. -/
def tokenByte (b : Byte) : Bool := !isSep b && b.toNat != 0x3B && !isLower b

theorem tokenByte_of_isDigit {b : Byte} (h : isDigit b = true) : tokenByte b = true := by
  obtain ⟨h1, h2⟩ := isDigit_iff.mp h
  simp [tokenByte, isSep, isSpace, isLower]
  omega

theorem isPrint_of_isDigit {b : Byte} (h : isDigit b = true) : isPrint b = true := by
  obtain ⟨h1, h2⟩ := isDigit_iff.mp h
  simp [isPrint]
  omega

theorem regText_bytes (k : RegIdx) : (regText k).all tokenByte = true ∧ (regText k).all isPrint = true := by
  revert k; decide

theorem Operand.token_bytes (o : Operand) : ∀ b ∈ o.token, tokenByte b = true := by
  cases o with
  | imm v =>
    intro b hb
    rcases decSigned_bytes v b hb with h | h
    · exact tokenByte_of_isDigit h
    · subst h; decide
  | memDir a =>
    intro b hb
    simp only [Operand.token, List.mem_cons, List.mem_append, List.not_mem_nil, or_false] at hb
    rcases hb with rfl | h | rfl
    · decide
    · exact tokenByte_of_isDigit (decText_isDigit _ b h)
    · decide
  | reg k => exact List.all_eq_true.mp (regText_bytes k).1
  | memInd k =>
    intro b hb
    simp only [Operand.token, List.mem_cons, List.mem_append, List.not_mem_nil, or_false] at hb
    rcases hb with rfl | h | rfl
    · decide
    · exact List.all_eq_true.mp (regText_bytes k).1 b h
    · decide
  | _ => decide

theorem Operand.token_ne_nil (o : Operand) : o.token ≠ [] := by
  cases o with
  | imm v => exact decSigned_ne_nil v
  | _ => simp [Operand.token, regText, ascii]

theorem sanitise_of_all {t : Text} (h : ∀ b ∈ t, isPrint b = true) : sanitise t = t := List.filter_eq_self.mpr h

/-- R69 on an operand's token: only ABSENT's is emptied. -/
theorem sanitise_token (o : Operand) : sanitise o.token = if o = .absent then [] else o.token := by
  cases o with
  | absent => decide
  | imm v =>
    rw [if_neg (by simp)]
    refine sanitise_of_all fun b hb => ?_
    rcases decSigned_bytes v b hb with h | h
    · exact isPrint_of_isDigit h
    · subst h; decide
  | memDir a =>
    rw [if_neg (by simp)]
    refine sanitise_of_all fun b hb => ?_
    simp only [Operand.token, List.mem_cons, List.mem_append, List.not_mem_nil, or_false] at hb
    rcases hb with rfl | h | rfl
    · decide
    · exact isPrint_of_isDigit (decText_isDigit _ b h)
    · decide
  | reg k =>
    rw [if_neg (by simp)]
    exact sanitise_of_all (List.all_eq_true.mp (regText_bytes k).2)
  | memInd k =>
    rw [if_neg (by simp)]
    refine sanitise_of_all fun b hb => ?_
    simp only [Operand.token, List.mem_cons, List.mem_append, List.not_mem_nil, or_false] at hb
    rcases hb with rfl | h | rfl
    · decide
    · exact List.all_eq_true.mp (regText_bytes k).2 b h
    · decide
  | _ => decide

/-- A register token begins with `R`. -/
theorem regToken_eq_none {b : Byte} (h : b.toNat ≠ 0x52) (r : Text) : regToken (b :: r) = none := by
  unfold regToken
  split
  · rename_i heq
    cases heq
    simp [h]
  · rfl

theorem rDigits_eq_false {b : Byte} (h : b.toNat ≠ 0x52) (r : Text) : rDigits (b :: r) = false := by
  simp [rDigits, h]

theorem bracketed_eq_none {b : Byte} (h : b.toNat ≠ 0x5B) (r : Text) : bracketed (b :: r) = none := by
  simp [bracketed, h]

/-- A bracketed token's inner text. -/
theorem bracketed_brackets (inner : Text) : bracketed (0x5B#8 :: (inner ++ [0x5D#8])) = some inner := by
  simp [bracketed]

theorem decSigned_head (v : Int) : ∃ b r, decSigned v = b :: r ∧ b.toNat ≠ 0x52 ∧ b.toNat ≠ 0x5B := by
  obtain ⟨b, r, h⟩ := List.exists_cons_of_ne_nil (decSigned_ne_nil v)
  refine ⟨b, r, h, ?_⟩
  rcases decSigned_bytes v b (by simp [h]) with hb | rfl
  · obtain ⟨h1, h2⟩ := isDigit_iff.mp hb
    omega
  · decide

/-- Signed decimal text classifies by its value's range (R74). -/
theorem classify_decSigned (v : Int) : classify (decSigned v) = if immInRange v then .imm v else .numBig := by
  obtain ⟨b, r, h, h1, h2⟩ := decSigned_head v
  have hn := numeric_decSigned v
  rw [h] at hn ⊢
  simp [classify, regToken_eq_none h1, bracketed_eq_none h2, classifyBare, hn]

theorem classify_brackets (inner : Text) : classify (0x5B#8 :: (inner ++ [0x5D#8])) = classifyInner inner := by
  have h : regToken (0x5B#8 :: (inner ++ [0x5D#8])) = none := regToken_eq_none (by decide) _
  have hb := bracketed_brackets inner
  simp only [classify, h, hb]
  rfl

theorem classifyInner_decText (a : Addr) : classifyInner (decText a.val) = .memDir a := by
  obtain ⟨b, r, h, hb⟩ := decText_head a.val
  have hn := numeric_decText a.val
  obtain ⟨h1, h2⟩ := isDigit_iff.mp hb
  rw [h] at hn ⊢
  simp [classifyInner, regToken_eq_none (by omega : b.toNat ≠ 0x52), rDigits_eq_false (by omega : b.toNat ≠ 0x52), hn]

/-- R75 on the sanitised token of an operand gives the operand. -/
theorem classify_token {o : Operand} (h : o.wf = true) : classify (sanitise o.token) = o := by
  cases o with
  | imm v =>
    rw [sanitise_token, if_neg (by simp)]
    simpa [Operand.token, show immInRange v = true from h] using classify_decSigned v
  | memDir a =>
    rw [sanitise_token, if_neg (by simp)]
    exact (classify_brackets _).trans (classifyInner_decText a)
  | reg k => revert k; decide
  | memInd k => revert k; decide
  | _ => decide

/-- The operand of a classified text is well formed (R74). -/
theorem classify_wf (t : Text) : (classify t).wf = true := by
  unfold classify
  split
  · rfl
  · split
    · rfl
    · split
      · unfold classifyInner
        split
        · rfl
        · split
          · rfl
          · split
            · split
              · split <;> rfl
              · rfl
            · rfl
      · unfold classifyBare
        split
        · split
          · assumption
          · rfl
        · split <;> rfl

/-! ## Lines of tokens -/

theorem tokenByte_iff {b : Byte} : tokenByte b = true ↔ isSep b = false ∧ b.toNat ≠ 0x3B ∧ isLower b = false := by
  simp [tokenByte, and_assoc]

theorem stripComment_of_free {l : Text} (h : ∀ b ∈ l, b.toNat ≠ 0x3B) : stripComment l = l := by
  rw [stripComment, List.takeWhile_eq_self_iff]
  simpa using h

theorem map_upper_of_free {t : Text} (h : ∀ b ∈ t, isLower b = false) : t.map upper = t := by
  conv_rhs => rw [← List.map_id t]
  exact List.map_congr_left fun b hb => upper_of_not_lower (h b hb)

theorem Opcode.text_bytes (op : Opcode) : ∀ b ∈ op.text, tokenByte b = true := by
  cases op <;> decide

theorem Opcode.text_ne_nil (op : Opcode) : op.text ≠ [] := by cases op <;> decide

end Sys2Proof
end

