-- ==== Sys2Proof/Laws/Operands.lean ====
section
/-! SUPPORT. What the resolver and the flag unit can answer, said once. -/

namespace Sys2Proof.Machine

/-- A register operand is needed and found exactly for REG (R81). -/
theorem reqReg_ok {o : Operand} {t : Text} {k : RegIdx} (h : reqReg o t = .ok k) : o = .reg k := by
  cases o <;> simp_all [reqReg, fail]

/-- The pairing's destination is the REG operand R130 prefers. -/
theorem pairing_ok {o1 o2 : Operand} {t1 t2 : Text} {p : Pairing} (h : pairing o1 t1 o2 t2 = .ok p) :
    (o2 = .reg p.dst ∧ p.so = o1 ∧ p.st = t1 ∧ p.dtok = t2) ∨
    (o1 = .reg p.dst ∧ (∀ k, o2 ≠ .reg k) ∧ p.so = o2 ∧ p.st = t2 ∧ p.dtok = t1) := by
  unfold pairing at h
  split at h
  · cases h; exact .inl ⟨rfl, rfl, rfl, rfl⟩
  · rename_i hne
    split at h
    · cases h; exact .inr ⟨rfl, hne, rfl, rfl, rfl⟩
    · cases h

/-- An indirect address is the register's unsigned pattern, when it is one (R82, R83). -/
theorem indirect_ok {s : State} {k : RegIdx} {t : Text} {a : Addr} (h : indirect s k t = .ok a) :
    a.val = (s.reg k).toNat := by
  unfold indirect at h
  split at h
  · cases h; rfl
  · cases h

theorem s8_range (b : Byte) : -128 ≤ s8 b ∧ s8 b ≤ 127 := by
  have h1 := BitVec.toInt_lt (x := b)
  have h2 := BitVec.le_toInt (x := b)
  norm_num at h1 h2
  exact ⟨h2, by simp only [s8]; omega⟩

/-- A resolved value is a byte's signed value or the immediate itself (R82, R105). -/
theorem value_ok {s : State} {o : Operand} {t : Text} {v : Int} (h : value s o t = .ok v) :
    (∃ b : Byte, v = s8 b) ∨ o = .imm v := by
  cases o with
  | reg k => cases h; exact .inl ⟨_, rfl⟩
  | imm w => cases h; exact .inr rfl
  | memDir a => cases h; exact .inl ⟨_, rfl⟩
  | memInd k =>
    simp only [value, indirect] at h
    split at h
    · cases h; exact .inl ⟨_, rfl⟩
    · cases h
  | _ => cases h

/-- A well-formed operand's value lies in the immediate range (R105). -/
theorem value_range {s : State} {o : Operand} {t : Text} {v : Int} (hw : o.wf = true) (h : value s o t = .ok v) :
    -32768 ≤ v ∧ v ≤ 32767 := by
  rcases value_ok h with ⟨b, rfl⟩ | rfl
  · have := s8_range b
    omega
  · simpa [Operand.wf, immInRange] using hw

/-- What `pair` answers: the pairing with its two values (R130). -/
theorem pair_ok {s : State} {o1 o2 : Operand} {p : Paired} (h : pair s o1 o2 = .ok p) :
    ∃ q, pairing o1 s.text1 o2 s.text2 = .ok q ∧ value s q.so q.st = .ok p.s ∧ p.dst = q.dst ∧ p.dtok = q.dtok ∧
      p.t = s.regVal q.dst ∧ p.st = operandTok q.so q.st := by
  unfold pair at h
  split at h
  · cases h
  · rename_i q hq
    split at h
    · cases h
    · rename_i v hv
      cases h
      exact ⟨q, hq, hv, rfl, rfl, rfl, rfl⟩

/-- The count is 0 to 7 (R165). -/
theorem count_lt (v : Int) : count v < 8 := by
  unfold count
  omega

@[simp] theorem deriveFlags_o (w : Int) : (deriveFlags w).o = decide (w > 127) := rfl
@[simp] theorem deriveFlags_u (w : Int) : (deriveFlags w).u = decide (w < -128) := rfl
@[simp] theorem deriveFlags_c (w : Int) : (deriveFlags w).c = (decide (w > 127) || decide (w < -128)) := rfl
@[simp] theorem deriveFlags_z (w : Int) : (deriveFlags w).z = decide (w = 0) := rfl

end Sys2Proof.Machine
end

