-- ==== Sys2Proof/Laws/State.lean ====
section
/-! SUPPORT. What each update of the state leaves in each field: true by rfl, for simp. -/

namespace Sys2Proof.Machine

variable (s : State)

/-! Wrappers of the updates below. -/

@[simp] theorem State.emitLine_eq (l : Text) : s.emitLine l = s.emit (.trace l) := rfl
@[simp] theorem State.emitDump_eq : s.emitDump = s.emit (.dump (dumpRecord s)) := rfl
@[simp] theorem State.recover_eq (op : Opcode) (e : RecErr) : s.recover op e = s.emit (.trace (diagLine op e)) := rfl
@[simp] theorem State.writeBack_eq (k : RegIdx) (w : Int) :
    s.writeBack k w = s.writeResult k (trunc8 w) (deriveFlags w) := rfl

/-! emit -/

@[simp] theorem State.emit_x (o : Output) : (s.emit o).x = s.x := rfl
@[simp] theorem State.emit_mem (o : Output) : (s.emit o).mem = s.mem := rfl
@[simp] theorem State.emit_flags (o : Output) : (s.emit o).flags = s.flags := rfl
@[simp] theorem State.emit_pc (o : Output) : (s.emit o).pc = s.pc := rfl
@[simp] theorem State.emit_runState (o : Output) : (s.emit o).runState = s.runState := rfl
@[simp] theorem State.emit_haltCause (o : Output) : (s.emit o).haltCause = s.haltCause := rfl
@[simp] theorem State.emit_decoded (o : Output) : (s.emit o).decoded = s.decoded := rfl
@[simp] theorem State.emit_pre (o : Output) : (s.emit o).pre = s.pre := rfl
@[simp] theorem State.emit_lineReq (o : Output) : (s.emit o).lineReq = s.lineReq := rfl
@[simp] theorem State.emit_src (o : Output) : (s.emit o).src = s.src := rfl
@[simp] theorem State.emit_inp (o : Output) : (s.emit o).inp = s.inp := rfl
@[simp] theorem State.emit_dumpPending (o : Output) : (s.emit o).dumpPending = s.dumpPending := rfl
@[simp] theorem State.emit_async (o : Output) : (s.emit o).async = s.async := rfl
@[simp] theorem State.emit_resets (o : Output) : (s.emit o).resets = s.resets := rfl
@[simp] theorem State.emit_out (o : Output) : (s.emit o).out = s.out ++ [o] := rfl
@[simp] theorem State.emit_cfg (o : Output) : (s.emit o).cfg = s.cfg := rfl

/-! emitLines -/

@[simp] theorem State.emitLines_x (ls : List Text) : (s.emitLines ls).x = s.x := rfl
@[simp] theorem State.emitLines_mem (ls : List Text) : (s.emitLines ls).mem = s.mem := rfl
@[simp] theorem State.emitLines_flags (ls : List Text) : (s.emitLines ls).flags = s.flags := rfl
@[simp] theorem State.emitLines_pc (ls : List Text) : (s.emitLines ls).pc = s.pc := rfl
@[simp] theorem State.emitLines_runState (ls : List Text) : (s.emitLines ls).runState = s.runState := rfl
@[simp] theorem State.emitLines_haltCause (ls : List Text) : (s.emitLines ls).haltCause = s.haltCause := rfl
@[simp] theorem State.emitLines_decoded (ls : List Text) : (s.emitLines ls).decoded = s.decoded := rfl
@[simp] theorem State.emitLines_pre (ls : List Text) : (s.emitLines ls).pre = s.pre := rfl
@[simp] theorem State.emitLines_lineReq (ls : List Text) : (s.emitLines ls).lineReq = s.lineReq := rfl
@[simp] theorem State.emitLines_src (ls : List Text) : (s.emitLines ls).src = s.src := rfl
@[simp] theorem State.emitLines_inp (ls : List Text) : (s.emitLines ls).inp = s.inp := rfl
@[simp] theorem State.emitLines_dumpPending (ls : List Text) : (s.emitLines ls).dumpPending = s.dumpPending := rfl
@[simp] theorem State.emitLines_async (ls : List Text) : (s.emitLines ls).async = s.async := rfl
@[simp] theorem State.emitLines_resets (ls : List Text) : (s.emitLines ls).resets = s.resets := rfl
@[simp] theorem State.emitLines_out (ls : List Text) : (s.emitLines ls).out = s.out ++ ls.map .trace := rfl
@[simp] theorem State.emitLines_cfg (ls : List Text) : (s.emitLines ls).cfg = s.cfg := rfl

/-! memWrite -/

@[simp] theorem State.memWrite_x (a : Addr) (b : Byte) : (s.memWrite a b).x = s.x := rfl
@[simp] theorem State.memWrite_mem (a : Addr) (b : Byte) : (s.memWrite a b).mem = Memory.write s.mem a.val b := rfl
@[simp] theorem State.memWrite_flags (a : Addr) (b : Byte) : (s.memWrite a b).flags = s.flags := rfl
@[simp] theorem State.memWrite_pc (a : Addr) (b : Byte) : (s.memWrite a b).pc = s.pc := rfl
@[simp] theorem State.memWrite_runState (a : Addr) (b : Byte) : (s.memWrite a b).runState = s.runState := rfl
@[simp] theorem State.memWrite_haltCause (a : Addr) (b : Byte) : (s.memWrite a b).haltCause = s.haltCause := rfl
@[simp] theorem State.memWrite_decoded (a : Addr) (b : Byte) : (s.memWrite a b).decoded = s.decoded := rfl
@[simp] theorem State.memWrite_pre (a : Addr) (b : Byte) : (s.memWrite a b).pre = s.pre := rfl
@[simp] theorem State.memWrite_lineReq (a : Addr) (b : Byte) : (s.memWrite a b).lineReq = s.lineReq := rfl
@[simp] theorem State.memWrite_src (a : Addr) (b : Byte) : (s.memWrite a b).src = s.src := rfl
@[simp] theorem State.memWrite_inp (a : Addr) (b : Byte) : (s.memWrite a b).inp = s.inp := rfl
@[simp] theorem State.memWrite_dumpPending (a : Addr) (b : Byte) : (s.memWrite a b).dumpPending = s.dumpPending := rfl
@[simp] theorem State.memWrite_async (a : Addr) (b : Byte) : (s.memWrite a b).async = s.async := rfl
@[simp] theorem State.memWrite_resets (a : Addr) (b : Byte) : (s.memWrite a b).resets = s.resets := rfl
@[simp] theorem State.memWrite_out (a : Addr) (b : Byte) : (s.memWrite a b).out = s.out := rfl
@[simp] theorem State.memWrite_cfg (a : Addr) (b : Byte) : (s.memWrite a b).cfg = s.cfg := rfl

/-! writeResult -/

@[simp] theorem State.writeResult_x (k : RegIdx) (b : Byte) (f : Flags) : (s.writeResult k b f).x = s.x.set k.val b k.isLt := rfl
@[simp] theorem State.writeResult_mem (k : RegIdx) (b : Byte) (f : Flags) : (s.writeResult k b f).mem = s.mem := rfl
@[simp] theorem State.writeResult_flags (k : RegIdx) (b : Byte) (f : Flags) : (s.writeResult k b f).flags = f := rfl
@[simp] theorem State.writeResult_pc (k : RegIdx) (b : Byte) (f : Flags) : (s.writeResult k b f).pc = s.pc := rfl
@[simp] theorem State.writeResult_runState (k : RegIdx) (b : Byte) (f : Flags) : (s.writeResult k b f).runState = s.runState := rfl
@[simp] theorem State.writeResult_haltCause (k : RegIdx) (b : Byte) (f : Flags) : (s.writeResult k b f).haltCause = s.haltCause := rfl
@[simp] theorem State.writeResult_decoded (k : RegIdx) (b : Byte) (f : Flags) : (s.writeResult k b f).decoded = s.decoded := rfl
@[simp] theorem State.writeResult_pre (k : RegIdx) (b : Byte) (f : Flags) : (s.writeResult k b f).pre = s.pre := rfl
@[simp] theorem State.writeResult_lineReq (k : RegIdx) (b : Byte) (f : Flags) : (s.writeResult k b f).lineReq = s.lineReq := rfl
@[simp] theorem State.writeResult_src (k : RegIdx) (b : Byte) (f : Flags) : (s.writeResult k b f).src = s.src := rfl
@[simp] theorem State.writeResult_inp (k : RegIdx) (b : Byte) (f : Flags) : (s.writeResult k b f).inp = s.inp := rfl
@[simp] theorem State.writeResult_dumpPending (k : RegIdx) (b : Byte) (f : Flags) : (s.writeResult k b f).dumpPending = s.dumpPending := rfl
@[simp] theorem State.writeResult_async (k : RegIdx) (b : Byte) (f : Flags) : (s.writeResult k b f).async = s.async := rfl
@[simp] theorem State.writeResult_resets (k : RegIdx) (b : Byte) (f : Flags) : (s.writeResult k b f).resets = s.resets := rfl
@[simp] theorem State.writeResult_out (k : RegIdx) (b : Byte) (f : Flags) : (s.writeResult k b f).out = s.out := rfl
@[simp] theorem State.writeResult_cfg (k : RegIdx) (b : Byte) (f : Flags) : (s.writeResult k b f).cfg = s.cfg := rfl

/-! beginInstr -/

@[simp] theorem State.beginInstr_x (op : Opcode) (d : Decoded) : (s.beginInstr op d).x = s.x := rfl
@[simp] theorem State.beginInstr_mem (op : Opcode) (d : Decoded) : (s.beginInstr op d).mem = s.mem := rfl
@[simp] theorem State.beginInstr_flags (op : Opcode) (d : Decoded) : (s.beginInstr op d).flags = s.flags := rfl
@[simp] theorem State.beginInstr_pc (op : Opcode) (d : Decoded) : (s.beginInstr op d).pc = s.pc := rfl
@[simp] theorem State.beginInstr_runState (op : Opcode) (d : Decoded) : (s.beginInstr op d).runState = s.runState := rfl
@[simp] theorem State.beginInstr_haltCause (op : Opcode) (d : Decoded) : (s.beginInstr op d).haltCause = s.haltCause := rfl
@[simp] theorem State.beginInstr_decoded (op : Opcode) (d : Decoded) : (s.beginInstr op d).decoded = some d := rfl
@[simp] theorem State.beginInstr_pre (op : Opcode) (d : Decoded) : (s.beginInstr op d).pre = some s.mem := rfl
@[simp] theorem State.beginInstr_lineReq (op : Opcode) (d : Decoded) : (s.beginInstr op d).lineReq = s.lineReq := rfl
@[simp] theorem State.beginInstr_src (op : Opcode) (d : Decoded) : (s.beginInstr op d).src = s.src := rfl
@[simp] theorem State.beginInstr_inp (op : Opcode) (d : Decoded) : (s.beginInstr op d).inp = s.inp := rfl
@[simp] theorem State.beginInstr_dumpPending (op : Opcode) (d : Decoded) : (s.beginInstr op d).dumpPending = s.dumpPending := rfl
@[simp] theorem State.beginInstr_async (op : Opcode) (d : Decoded) : (s.beginInstr op d).async = s.async := rfl
@[simp] theorem State.beginInstr_resets (op : Opcode) (d : Decoded) : (s.beginInstr op d).resets = s.resets := rfl
@[simp] theorem State.beginInstr_out (op : Opcode) (d : Decoded) : (s.beginInstr op d).out = s.out ++ [.trace (headerLine s.pc op d)] := rfl
@[simp] theorem State.beginInstr_cfg (op : Opcode) (d : Decoded) : (s.beginInstr op d).cfg = s.cfg := rfl

/-! endInstr -/

@[simp] theorem State.endInstr_x : s.endInstr.x = s.x := rfl
@[simp] theorem State.endInstr_mem : s.endInstr.mem = s.mem := rfl
@[simp] theorem State.endInstr_flags : s.endInstr.flags = s.flags := rfl
@[simp] theorem State.endInstr_pc : s.endInstr.pc = s.pc := rfl
@[simp] theorem State.endInstr_runState : s.endInstr.runState = s.runState := rfl
@[simp] theorem State.endInstr_haltCause : s.endInstr.haltCause = s.haltCause := rfl
@[simp] theorem State.endInstr_decoded : s.endInstr.decoded = none := rfl
@[simp] theorem State.endInstr_pre : s.endInstr.pre = none := rfl
@[simp] theorem State.endInstr_lineReq : s.endInstr.lineReq = s.lineReq := rfl
@[simp] theorem State.endInstr_src : s.endInstr.src = s.src := rfl
@[simp] theorem State.endInstr_inp : s.endInstr.inp = s.inp := rfl
@[simp] theorem State.endInstr_dumpPending : s.endInstr.dumpPending = s.dumpPending := rfl
@[simp] theorem State.endInstr_async : s.endInstr.async = s.async := rfl
@[simp] theorem State.endInstr_resets : s.endInstr.resets = s.resets := rfl
@[simp] theorem State.endInstr_out : s.endInstr.out = s.out ++ (registerLine s.cfg.radix s.x :: diffLines s.cfg.radix s.snapshot s.mem).map .trace := rfl
@[simp] theorem State.endInstr_cfg : s.endInstr.cfg = s.cfg := rfl

/-! raiseFatal -/

@[simp] theorem State.raiseFatal_x (c : HaltCause) : (s.raiseFatal c).x = s.x := rfl
@[simp] theorem State.raiseFatal_mem (c : HaltCause) : (s.raiseFatal c).mem = s.mem := rfl
@[simp] theorem State.raiseFatal_flags (c : HaltCause) : (s.raiseFatal c).flags = s.flags := rfl
@[simp] theorem State.raiseFatal_pc (c : HaltCause) : (s.raiseFatal c).pc = s.pc := rfl
@[simp] theorem State.raiseFatal_runState (c : HaltCause) : (s.raiseFatal c).runState = .halted := rfl
@[simp] theorem State.raiseFatal_haltCause (c : HaltCause) : (s.raiseFatal c).haltCause = c := rfl
@[simp] theorem State.raiseFatal_decoded (c : HaltCause) : (s.raiseFatal c).decoded = s.decoded := rfl
@[simp] theorem State.raiseFatal_pre (c : HaltCause) : (s.raiseFatal c).pre = s.pre := rfl
@[simp] theorem State.raiseFatal_lineReq (c : HaltCause) : (s.raiseFatal c).lineReq = s.lineReq := rfl
@[simp] theorem State.raiseFatal_src (c : HaltCause) : (s.raiseFatal c).src = s.src := rfl
@[simp] theorem State.raiseFatal_inp (c : HaltCause) : (s.raiseFatal c).inp = s.inp := rfl
@[simp] theorem State.raiseFatal_dumpPending (c : HaltCause) : (s.raiseFatal c).dumpPending = s.dumpPending := rfl
@[simp] theorem State.raiseFatal_async (c : HaltCause) : (s.raiseFatal c).async = s.async := rfl
@[simp] theorem State.raiseFatal_resets (c : HaltCause) : (s.raiseFatal c).resets = s.resets := rfl
@[simp] theorem State.raiseFatal_cfg (c : HaltCause) : (s.raiseFatal c).cfg = s.cfg := rfl

/-! endRun -/

@[simp] theorem State.endRun_x : s.endRun.x = s.x := rfl
@[simp] theorem State.endRun_mem : s.endRun.mem = s.mem := rfl
@[simp] theorem State.endRun_flags : s.endRun.flags = s.flags := rfl
@[simp] theorem State.endRun_pc : s.endRun.pc = s.pc := rfl
@[simp] theorem State.endRun_runState : s.endRun.runState = .halted := rfl
@[simp] theorem State.endRun_haltCause : s.endRun.haltCause = .endOfSource := rfl
@[simp] theorem State.endRun_decoded : s.endRun.decoded = s.decoded := rfl
@[simp] theorem State.endRun_pre : s.endRun.pre = s.pre := rfl
@[simp] theorem State.endRun_lineReq : s.endRun.lineReq = s.lineReq := rfl
@[simp] theorem State.endRun_src : s.endRun.src = s.src := rfl
@[simp] theorem State.endRun_inp : s.endRun.inp = s.inp := rfl
@[simp] theorem State.endRun_dumpPending : s.endRun.dumpPending = s.dumpPending := rfl
@[simp] theorem State.endRun_async : s.endRun.async = s.async := rfl
@[simp] theorem State.endRun_resets : s.endRun.resets = s.resets := rfl
@[simp] theorem State.endRun_out : s.endRun.out = s.out ++ [.dump (dumpRecord s)] := rfl
@[simp] theorem State.endRun_cfg : s.endRun.cfg = s.cfg := rfl

/-! serveDump -/

@[simp] theorem State.serveDump_x : s.serveDump.x = s.x := rfl
@[simp] theorem State.serveDump_mem : s.serveDump.mem = s.mem := rfl
@[simp] theorem State.serveDump_flags : s.serveDump.flags = s.flags := rfl
@[simp] theorem State.serveDump_pc : s.serveDump.pc = s.pc := rfl
@[simp] theorem State.serveDump_runState : s.serveDump.runState = s.runState := rfl
@[simp] theorem State.serveDump_haltCause : s.serveDump.haltCause = s.haltCause := rfl
@[simp] theorem State.serveDump_decoded : s.serveDump.decoded = s.decoded := rfl
@[simp] theorem State.serveDump_pre : s.serveDump.pre = s.pre := rfl
@[simp] theorem State.serveDump_lineReq : s.serveDump.lineReq = s.lineReq := rfl
@[simp] theorem State.serveDump_src : s.serveDump.src = s.src := rfl
@[simp] theorem State.serveDump_inp : s.serveDump.inp = s.inp := rfl
@[simp] theorem State.serveDump_dumpPending : s.serveDump.dumpPending = s.dumpPending - 1 := rfl
@[simp] theorem State.serveDump_async : s.serveDump.async = s.async := rfl
@[simp] theorem State.serveDump_resets : s.serveDump.resets = s.resets := rfl
@[simp] theorem State.serveDump_out : s.serveDump.out = s.out ++ [.dump (dumpRecord s)] := rfl
@[simp] theorem State.serveDump_cfg : s.serveDump.cfg = s.cfg := rfl

/-! landLine -/

@[simp] theorem State.landLine_x (n : Nat) (a : SrcAnswer) : (s.landLine n a).x = s.x := rfl
@[simp] theorem State.landLine_mem (n : Nat) (a : SrcAnswer) : (s.landLine n a).mem = s.mem := rfl
@[simp] theorem State.landLine_flags (n : Nat) (a : SrcAnswer) : (s.landLine n a).flags = s.flags := rfl
@[simp] theorem State.landLine_pc (n : Nat) (a : SrcAnswer) : (s.landLine n a).pc = s.pc := rfl
@[simp] theorem State.landLine_runState (n : Nat) (a : SrcAnswer) : (s.landLine n a).runState = s.runState := rfl
@[simp] theorem State.landLine_haltCause (n : Nat) (a : SrcAnswer) : (s.landLine n a).haltCause = s.haltCause := rfl
@[simp] theorem State.landLine_decoded (n : Nat) (a : SrcAnswer) : (s.landLine n a).decoded = s.decoded := rfl
@[simp] theorem State.landLine_pre (n : Nat) (a : SrcAnswer) : (s.landLine n a).pre = s.pre := rfl
@[simp] theorem State.landLine_lineReq (n : Nat) (a : SrcAnswer) : (s.landLine n a).lineReq = s.lineReq := rfl
@[simp] theorem State.landLine_src (n : Nat) (a : SrcAnswer) : (s.landLine n a).src = if n == s.resets && s.lineReq && s.src.isEmpty then [a] else s.src := rfl
@[simp] theorem State.landLine_inp (n : Nat) (a : SrcAnswer) : (s.landLine n a).inp = s.inp := rfl
@[simp] theorem State.landLine_dumpPending (n : Nat) (a : SrcAnswer) : (s.landLine n a).dumpPending = s.dumpPending := rfl
@[simp] theorem State.landLine_async (n : Nat) (a : SrcAnswer) : (s.landLine n a).async = s.async := rfl
@[simp] theorem State.landLine_resets (n : Nat) (a : SrcAnswer) : (s.landLine n a).resets = s.resets := rfl
@[simp] theorem State.landLine_out (n : Nat) (a : SrcAnswer) : (s.landLine n a).out = s.out := rfl
@[simp] theorem State.landLine_cfg (n : Nat) (a : SrcAnswer) : (s.landLine n a).cfg = s.cfg := rfl

/-- An answer to the outstanding request is taken up (R101). -/
theorem State.landLine_taken (a : SrcAnswer) (h : s.lineReq = true) (h2 : s.src = []) :
    s.landLine s.resets a = { s with src := [a] } := by
  simp [State.landLine, h, h2]

/-- An answer to a cancelled request, or to none, is lost (R231). -/
theorem State.landLine_lost {n : Nat} (a : SrcAnswer) (h : n ≠ s.resets ∨ s.lineReq = false) : s.landLine n a = s := by
  rcases h with h | h <;> cases s <;> simp_all [State.landLine]

/-! landToken -/

@[simp] theorem State.landToken_x (n : Nat) (r : InpAnswer) : (s.landToken n r).x = s.x := rfl
@[simp] theorem State.landToken_mem (n : Nat) (r : InpAnswer) : (s.landToken n r).mem = s.mem := rfl
@[simp] theorem State.landToken_flags (n : Nat) (r : InpAnswer) : (s.landToken n r).flags = s.flags := rfl
@[simp] theorem State.landToken_pc (n : Nat) (r : InpAnswer) : (s.landToken n r).pc = s.pc := rfl
@[simp] theorem State.landToken_runState (n : Nat) (r : InpAnswer) : (s.landToken n r).runState = s.runState := rfl
@[simp] theorem State.landToken_haltCause (n : Nat) (r : InpAnswer) : (s.landToken n r).haltCause = s.haltCause := rfl
@[simp] theorem State.landToken_decoded (n : Nat) (r : InpAnswer) : (s.landToken n r).decoded = s.decoded := rfl
@[simp] theorem State.landToken_pre (n : Nat) (r : InpAnswer) : (s.landToken n r).pre = s.pre := rfl
@[simp] theorem State.landToken_lineReq (n : Nat) (r : InpAnswer) : (s.landToken n r).lineReq = s.lineReq := rfl
@[simp] theorem State.landToken_src (n : Nat) (r : InpAnswer) : (s.landToken n r).src = s.src := rfl
@[simp] theorem State.landToken_inp (n : Nat) (r : InpAnswer) : (s.landToken n r).inp = if n == s.resets && s.runState == .waitInput && s.inp.isEmpty then [r] else s.inp := rfl
@[simp] theorem State.landToken_dumpPending (n : Nat) (r : InpAnswer) : (s.landToken n r).dumpPending = s.dumpPending := rfl
@[simp] theorem State.landToken_async (n : Nat) (r : InpAnswer) : (s.landToken n r).async = s.async := rfl
@[simp] theorem State.landToken_resets (n : Nat) (r : InpAnswer) : (s.landToken n r).resets = s.resets := rfl
@[simp] theorem State.landToken_out (n : Nat) (r : InpAnswer) : (s.landToken n r).out = s.out := rfl
@[simp] theorem State.landToken_cfg (n : Nat) (r : InpAnswer) : (s.landToken n r).cfg = s.cfg := rfl

/-- An answer to a waiting INPUT is taken up (R183). -/
theorem State.landToken_taken (r : InpAnswer) (h : s.runState = .waitInput) (h2 : s.inp = []) :
    s.landToken s.resets r = { s with inp := [r] } := by
  simp [State.landToken, h, h2]

/-- An answer to a cancelled request, or while no INPUT waits, is lost (R231). -/
theorem State.landToken_lost {n : Nat} (r : InpAnswer) (h : n ≠ s.resets ∨ s.runState ≠ .waitInput) :
    s.landToken n r = s := by
  rcases h with h | h <;> cases s <;> simp_all [State.landToken]

/-! applyReset -/

@[simp] theorem State.applyReset_x : s.applyReset.x = s.cfg.image.x := rfl
@[simp] theorem State.applyReset_mem : s.applyReset.mem = s.cfg.image.mem := rfl
@[simp] theorem State.applyReset_flags : s.applyReset.flags = s.cfg.image.flags := rfl
@[simp] theorem State.applyReset_pc : s.applyReset.pc = s.cfg.image.pc := rfl
@[simp] theorem State.applyReset_runState : s.applyReset.runState = .running := rfl
@[simp] theorem State.applyReset_haltCause : s.applyReset.haltCause = .none := rfl
@[simp] theorem State.applyReset_decoded : s.applyReset.decoded = none := rfl
@[simp] theorem State.applyReset_pre : s.applyReset.pre = none := rfl
@[simp] theorem State.applyReset_lineReq : s.applyReset.lineReq = false := rfl
@[simp] theorem State.applyReset_src : s.applyReset.src = if s.lineReq then s.src.tail else s.src := rfl
@[simp] theorem State.applyReset_inp : s.applyReset.inp = if s.runState == .waitInput then s.inp.tail else s.inp := rfl
@[simp] theorem State.applyReset_dumpPending : s.applyReset.dumpPending = if Config.resetKeepsDumpRequest s.resets then s.dumpPending else 0 := rfl
@[simp] theorem State.applyReset_async : s.applyReset.async = s.async := rfl
@[simp] theorem State.applyReset_resets : s.applyReset.resets = s.resets + 1 := rfl
@[simp] theorem State.applyReset_out : s.applyReset.out = s.out := rfl
@[simp] theorem State.applyReset_cfg : s.applyReset.cfg = s.cfg := rfl

theorem State.raiseFatal_out (c : HaltCause) :
    (s.raiseFatal c).out = s.out ++ [.trace (fatalLine c s.pc), .dump (dumpRecord (s.emitLine (fatalLine c s.pc)))] := by
  simp [State.raiseFatal]

/-! Registers. -/

@[simp] theorem State.writeResult_reg_self (k : RegIdx) (b : Byte) (f : Flags) : (s.writeResult k b f).reg k = b := by
  simp [State.reg, Vector.get_eq_getElem]

theorem State.writeResult_reg_other {k j : RegIdx} (h : j ≠ k) (b : Byte) (f : Flags) :
    (s.writeResult k b f).reg j = s.reg j := by
  have : k.val ≠ j.val := fun e => h (Fin.ext e.symm)
  simp [State.reg, Vector.get_eq_getElem, this]

end Sys2Proof.Machine
end

