-- ==== Sys2Proof/Laws/Exec.lean ====
section
/-! SUPPORT. What executing an instruction can do, said once per shared operation and once for all instructions. -/

namespace Sys2Proof.Machine

theorem flagsCoherent_deriveFlags (w : Int) : flagsCoherent (deriveFlags w) = true := by
  simp only [flagsCoherent, deriveFlags]
  by_cases h1 : w > 127 <;> by_cases h2 : w < -128 <;> by_cases h3 : w = 0 <;> (simp_all; try omega)

theorem flagsCoherent_rotShiftFlags (b : FlagBasis) (n : Byte) : flagsCoherent (rotShiftFlags b n) = true := by
  cases b <;> exact flagsCoherent_deriveFlags _

/-- The two ways an instruction transaction's body ends (R103). -/
theorem complete_eq_next {op : Opcode} {s t : State} {r : Except RecErr State} (h : complete op s r = .next t) :
    r = .ok t ∨ ∃ e, r = .error e ∧ t = s.recover op e := by
  cases r with
  | ok s' => cases h; exact .inl rfl
  | error e => cases h; exact .inr ⟨e, rfl, rfl⟩

/-- `binary` writes the destination back, or raises an error (R130, R107, R110). -/
theorem binary_cases {op : Opcode} {f : Paired → Except RecErr Int} {o1 o2 : Operand} {s t : State}
    (h : binary op f o1 o2 s = .next t) :
    (∃ e, t = s.recover op e) ∨ ∃ p w, pair s o1 o2 = .ok p ∧ f p = .ok w ∧ t = s.writeBack p.dst w := by
  rcases complete_eq_next h with h | ⟨e, _, ht⟩
  · split at h
    · cases h
    · rename_i p hp
      split at h
      · cases h
      · rename_i w hw
        cases h
        exact .inr ⟨p, w, hp, hw, rfl⟩
  · exact .inl ⟨e, ht⟩

/-- `unary` writes its register back, or is silent (R113). -/
theorem unary_cases {f : Int → Int} {o1 : Operand} {s t : State} (h : unary f o1 s = .next t) :
    (t = s ∧ ∀ k, o1 ≠ .reg k) ∨ ∃ k, o1 = .reg k ∧ t = s.writeBack k (f (s.regVal k)) := by
  unfold unary at h
  split at h
  · cases h; exact .inr ⟨_, rfl, rfl⟩
  · rename_i hne; cases h; exact .inl ⟨rfl, hne⟩

/-- `rotShift` writes its register and flags, or raises an error (R165, R170). -/
theorem rotShift_cases {op : Opcode} {f : Byte → Nat → Byte} {o1 o2 : Operand} {s t : State}
    (h : rotShift op f o1 o2 s = .next t) :
    (∃ e, t = s.recover op e) ∨ ∃ k v, o1 = .reg k ∧ value s o2 s.text2 = .ok v ∧
      t = s.writeResult k (f (s.reg k) (count v)) (rotShiftFlags s.cfg.flagBasis (f (s.reg k) (count v))) := by
  rcases complete_eq_next h with h | ⟨e, _, ht⟩
  · split at h
    · cases h
    · rename_i k hk
      split at h
      · cases h
      · rename_i v hv
        cases h
        exact .inr ⟨k, v, reqReg_ok hk, hv, rfl⟩
  · exact .inl ⟨e, ht⟩

theorem execMov_cases {o1 o2 : Operand} {s t : State} (h : execMov o1 o2 s = .next t) :
    (t = s ∧ ∀ k, o2 ≠ .reg k) ∨ (∃ e, t = s.recover .mov e) ∨
    ∃ k v, o2 = .reg k ∧ value s o1 s.text1 = .ok v ∧ t = s.writeBack k v := by
  unfold execMov at h
  split at h
  · rename_i k
    rcases complete_eq_next h with h | ⟨e, _, ht⟩
    · split at h
      · cases h
      · rename_i v hv
        cases h
        exact .inr (.inr ⟨k, v, rfl, hv, rfl⟩)
    · exact .inr (.inl ⟨e, ht⟩)
  · rename_i hne; cases h; exact .inl ⟨rfl, hne⟩

theorem execLoad_cases {o1 o2 : Operand} {s t : State} (h : execLoad o1 o2 s = .next t) :
    (∃ e, t = s.recover .load e) ∨
    ∃ k a, o2 = .reg k ∧ address s o1 s.text1 = .ok a ∧ t = s.writeBack k (s8 (s.memRead a)) := by
  rcases complete_eq_next h with h | ⟨e, _, ht⟩
  · split at h
    · cases h
    · rename_i k hk
      split at h
      · cases h
      · rename_i a ha
        cases h
        exact .inr ⟨k, a, reqReg_ok hk, ha, rfl⟩
  · exact .inl ⟨e, ht⟩

theorem execStore_cases {o1 o2 : Operand} {s t : State} (h : execStore o1 o2 s = .next t) :
    (∃ e, t = s.recover .store e) ∨
    ∃ k a, o1 = .reg k ∧ address s o2 s.text2 = .ok a ∧ t = s.memWrite a (s.reg k) := by
  rcases complete_eq_next h with h | ⟨e, _, ht⟩
  · split at h
    · cases h
    · rename_i k hk
      split at h
      · cases h
      · rename_i a ha
        cases h
        exact .inr ⟨k, a, reqReg_ok hk, ha, rfl⟩
  · exact .inl ⟨e, ht⟩

theorem execInput_cases {o1 o2 : Operand} {s t : State} (h : execInput o1 o2 s = .next t) :
    (∃ e, t = s.recover .input e) ∨ ∃ k, o1 = .reg k ∧ t = requestInput k s := by
  rcases complete_eq_next h with h | ⟨e, _, ht⟩
  · split at h
    · cases h
    · rename_i k hk
      cases h
      exact .inr ⟨k, reqReg_ok hk, rfl⟩
  · exact .inl ⟨e, ht⟩

theorem execDisplay_cases {o1 o2 : Operand} {s t : State} (h : execDisplay o1 o2 s = .next t) :
    (∃ e, t = s.recover .display e) ∨ ∃ k, o1 = .reg k ∧ t = s.emitLine (decSigned (s.regVal k)) := by
  rcases complete_eq_next h with h | ⟨e, _, ht⟩
  · split at h
    · cases h
    · rename_i k hk
      cases h
      exact .inr ⟨k, reqReg_ok hk, rfl⟩
  · exact .inl ⟨e, ht⟩

/-- INPUT's completion writes the register back, or raises `E_INPUT_INVALID` (R180). -/
theorem finishInput_cases (k : RegIdx) (r : InpAnswer) (s : State) :
    (∃ e, finishInput k r s = s.recover .input e) ∨ ∃ v, finishInput k r s = s.writeBack k v := by
  unfold finishInput
  split
  · exact .inl ⟨_, rfl⟩
  · split
    · exact .inr ⟨_, rfl⟩
    · exact .inl ⟨_, rfl⟩

/-- The destination of a pairing is the instruction's destination register. -/
theorem pairing_destReg {o1 o2 : Operand} {t1 t2 : Text} {p : Pairing} (h : pairing o1 t1 o2 t2 = .ok p) :
    destReg (.add o1 o2) = some p.dst := by
  rcases pairing_ok h with ⟨rfl, -⟩ | ⟨rfl, hne, -⟩
  · rfl
  · cases o2 <;> simp_all [destReg]

/-- R107, R170: a rotate's or shift's write is the write-back of the reading its flags come from. -/
theorem rotShift_writeBack (s : State) (k : RegIdx) (b : FlagBasis) (n : Byte) :
    ∃ w, s.writeResult k n (rotShiftFlags b n) = s.writeBack k w := by
  cases b with
  | unsigned =>
    refine ⟨(n.toNat : Int), ?_⟩
    have : trunc8 (n.toNat : Int) = n := by simp [trunc8]
    simp [State.writeBack, this, rotShiftFlags]
  | signed =>
    refine ⟨s8 n, ?_⟩
    have : trunc8 (s8 n) = n := by simp [trunc8, s8]
    simp [State.writeBack, this, rotShiftFlags]

/-- Everything one instruction can do (R103, R110, R112, R113): nothing, a diagnostic, one register with its flags,
one memory cell, a request for input, or one DISPLAY line. -/
theorem exec_cases {i : Instr} {s t : State} (h : exec i s = .next t) :
    (t = s) ∨ (∃ e, t = s.recover i.opcode e) ∨
    (∃ k w, destReg i = some k ∧ t = s.writeBack k w ∧ ∀ o1 o2, i ≠ .input o1 o2) ∨
    (∃ k o2 a, i = .store (.reg k) o2 ∧ address s o2 s.text2 = .ok a ∧ t = s.memWrite a (s.reg k)) ∨
    (∃ k o2, i = .input (.reg k) o2 ∧ t = requestInput k s) ∨
    (∃ k o2, i = .display (.reg k) o2 ∧ t = s.emitLine (decSigned (s.regVal k))) := by
  have hbin : ∀ {op : Opcode} {f : Paired → Except RecErr Int} {o1 o2 : Operand}, binary op f o1 o2 s = .next t →
      (∃ e, t = s.recover op e) ∨
      ∃ k w, destReg (.add o1 o2) = some k ∧ t = s.writeBack k w := by
    intro op f o1 o2 hb
    rcases binary_cases hb with h | ⟨p, w, hp, -, rfl⟩
    · exact .inl h
    · obtain ⟨q, hq, -, hd, -⟩ := pair_ok hp
      exact .inr ⟨p.dst, w, by rw [hd]; exact pairing_destReg hq, rfl⟩
  have hrot : ∀ {op : Opcode} {f : Byte → Nat → Byte} {o1 o2 : Operand}, rotShift op f o1 o2 s = .next t →
      (∃ e, t = s.recover op e) ∨
      ∃ k w, o1 = .reg k ∧ t = s.writeBack k w := by
    intro op f o1 o2 hr
    rcases rotShift_cases hr with h | ⟨k, v, rfl, -, rfl⟩
    · exact .inl h
    · obtain ⟨w, hw⟩ := rotShift_writeBack s k s.cfg.flagBasis (f (s.reg k) (count v))
      exact .inr ⟨k, w, rfl, hw⟩
  cases i with
  | add o1 o2 =>
    simp only [exec, execAdd] at h
    rcases hbin h with h | ⟨k, w, hd, ht⟩
    · exact .inr (.inl h)
    · exact .inr (.inr (.inl ⟨k, w, hd, ht, by simp⟩))
  | sub o1 o2 =>
    simp only [exec, execSub] at h
    rcases hbin h with h | ⟨k, w, hd, ht⟩
    · exact .inr (.inl h)
    · exact .inr (.inr (.inl ⟨k, w, hd, ht, by simp⟩))
  | mul o1 o2 =>
    simp only [exec, execMul] at h
    rcases hbin h with h | ⟨k, w, hd, ht⟩
    · exact .inr (.inl h)
    · exact .inr (.inr (.inl ⟨k, w, hd, ht, by simp⟩))
  | div o1 o2 =>
    simp only [exec, execDiv] at h
    rcases hbin h with h | ⟨k, w, hd, ht⟩
    · exact .inr (.inl h)
    · exact .inr (.inr (.inl ⟨k, w, hd, ht, by simp⟩))
  | inc o1 o2 =>
    simp only [exec, execInc] at h
    rcases unary_cases h with ⟨rfl, -⟩ | ⟨k, rfl, rfl⟩
    · exact .inl rfl
    · exact .inr (.inr (.inl ⟨k, _, rfl, rfl, by simp⟩))
  | dec o1 o2 =>
    simp only [exec, execDec] at h
    rcases unary_cases h with ⟨rfl, -⟩ | ⟨k, rfl, rfl⟩
    · exact .inl rfl
    · exact .inr (.inr (.inl ⟨k, _, rfl, rfl, by simp⟩))
  | mov o1 o2 =>
    rcases execMov_cases h with ⟨rfl, -⟩ | h | ⟨k, v, rfl, -, rfl⟩
    · exact .inl rfl
    · exact .inr (.inl h)
    · exact .inr (.inr (.inl ⟨k, _, rfl, rfl, by simp⟩))
  | load o1 o2 =>
    rcases execLoad_cases h with h | ⟨k, a, rfl, -, rfl⟩
    · exact .inr (.inl h)
    · exact .inr (.inr (.inl ⟨k, _, rfl, rfl, by simp⟩))
  | store o1 o2 =>
    rcases execStore_cases h with h | ⟨k, a, rfl, ha, rfl⟩
    · exact .inr (.inl h)
    · exact .inr (.inr (.inr (.inl ⟨k, o2, a, rfl, ha, rfl⟩)))
  | rol o1 o2 =>
    simp only [exec, execRol] at h
    rcases hrot h with h | ⟨k, w, rfl, ht⟩
    · exact .inr (.inl h)
    · exact .inr (.inr (.inl ⟨k, w, rfl, ht, by simp⟩))
  | ror o1 o2 =>
    simp only [exec, execRor] at h
    rcases hrot h with h | ⟨k, w, rfl, ht⟩
    · exact .inr (.inl h)
    · exact .inr (.inr (.inl ⟨k, w, rfl, ht, by simp⟩))
  | shl o1 o2 =>
    simp only [exec, execShl] at h
    rcases hrot h with h | ⟨k, w, rfl, ht⟩
    · exact .inr (.inl h)
    · exact .inr (.inr (.inl ⟨k, w, rfl, ht, by simp⟩))
  | shr o1 o2 =>
    simp only [exec, execShr] at h
    rcases hrot h with h | ⟨k, w, rfl, ht⟩
    · exact .inr (.inl h)
    · exact .inr (.inr (.inl ⟨k, w, rfl, ht, by simp⟩))
  | input o1 o2 =>
    rcases execInput_cases (o2 := o2) h with h | ⟨k, rfl, rfl⟩
    · exact .inr (.inl h)
    · exact .inr (.inr (.inr (.inr (.inl ⟨k, o2, rfl, rfl⟩))))
  | display o1 o2 =>
    rcases execDisplay_cases (o2 := o2) h with h | ⟨k, rfl, rfl⟩
    · exact .inr (.inl h)
    · exact .inr (.inr (.inr (.inr (.inr ⟨k, o2, rfl, rfl⟩))))

end Sys2Proof.Machine
end

