-- ==== Sys2Proof/Laws/Memory.lean ====
section
/-! SUPPORT. Reading after a write, and that a write keeps the canonical form. -/

namespace Sys2Proof

theorem Memory.wfFrom_cons {lo k : Nat} {b : Byte} {r : Memory} :
    Memory.wfFrom lo ((k, b) :: r) = true ↔ lo ≤ k ∧ k < 64 ∧ b ≠ 0#8 ∧ Memory.wfFrom (k + 1) r = true := by
  simp [Memory.wfFrom, and_assoc]

theorem Memory.wfFrom_mono {m : Memory} {lo lo' : Nat} (h : lo' ≤ lo) (hw : Memory.wfFrom lo m = true) :
    Memory.wfFrom lo' m = true := by
  cases m with
  | nil => rfl
  | cons p r =>
    obtain ⟨h1, h2⟩ := Memory.wfFrom_cons.mp hw
    exact Memory.wfFrom_cons.mpr ⟨h.trans h1, h2⟩

/-- Below its lower bound a canonical memory lists nothing. -/
theorem Memory.read_below {m : Memory} {lo a : Nat} (hw : Memory.wfFrom lo m = true) (h : a < lo) :
    Memory.read m a = 0#8 := by
  induction m generalizing lo with
  | nil => rfl
  | cons p r ih =>
    obtain ⟨h1, _, _, h4⟩ := Memory.wfFrom_cons.mp hw
    simp only [Memory.read]
    rw [if_neg (by omega)]
    exact ih h4 (by omega)

/-- R42: the written cell reads as written. -/
theorem Memory.read_write_self {m : Memory} {lo : Nat} (hw : Memory.wfFrom lo m = true) (a : Nat) (b : Byte) :
    Memory.read (Memory.write m a b) a = b := by
  induction m generalizing lo with
  | nil => by_cases hb : b = 0#8 <;> simp [Memory.write, Memory.read, hb]
  | cons p r ih =>
    obtain ⟨k, c⟩ := p
    obtain ⟨h1, _, _, h4⟩ := Memory.wfFrom_cons.mp hw
    simp only [Memory.write]
    split
    · simp only [Memory.read]
      rw [if_neg (by omega)]
      exact ih h4
    · split
      · rename_i hk
        subst hk
        by_cases hb : b = 0#8
        · simp [hb, Memory.read_below h4 (Nat.lt_succ_self _)]
        · simp [hb, Memory.read]
      · by_cases hb : b = 0#8
        · simp only [hb, if_true, Memory.read]
          rw [if_neg (by omega)]
          exact Memory.read_below h4 (by omega)
        · simp [hb, Memory.read]

/-- R42: no other cell changes. -/
theorem Memory.read_write_other (m : Memory) {a a' : Nat} (h : a' ≠ a) (b : Byte) :
    Memory.read (Memory.write m a b) a' = Memory.read m a' := by
  induction m with
  | nil => by_cases hb : b = 0#8 <;> simp [Memory.write, Memory.read, hb, Ne.symm h]
  | cons p r ih =>
    obtain ⟨k, c⟩ := p
    simp only [Memory.write]
    split
    · simp [Memory.read, ih]
    · split
      · rename_i hk
        subst hk
        by_cases hb : b = 0#8 <;> simp [hb, Memory.read, Ne.symm h]
      · by_cases hb : b = 0#8 <;> simp [hb, Memory.read, Ne.symm h]

/-- A write keeps the canonical form. -/
theorem Memory.wfFrom_write {m : Memory} {lo a : Nat} (hw : Memory.wfFrom lo m = true) (hlo : lo ≤ a) (ha : a < 64)
    (b : Byte) : Memory.wfFrom lo (Memory.write m a b) = true := by
  induction m generalizing lo with
  | nil => by_cases hb : b = 0#8 <;> simp [Memory.write, Memory.wfFrom, hb, hlo, ha]
  | cons p r ih =>
    obtain ⟨k, c⟩ := p
    obtain ⟨h1, h2, h3, h4⟩ := Memory.wfFrom_cons.mp hw
    simp only [Memory.write]
    split
    · exact Memory.wfFrom_cons.mpr ⟨h1, h2, h3, ih h4 (by omega)⟩
    · split
      · rename_i hk
        subst hk
        by_cases hb : b = 0#8
        · simpa [hb] using Memory.wfFrom_mono (by omega) h4
        · simpa [hb] using Memory.wfFrom_cons.mpr ⟨h1, h2, hb, h4⟩
      · by_cases hb : b = 0#8
        · simpa [hb] using hw
        · simpa [hb] using Memory.wfFrom_cons.mpr ⟨hlo, ha, hb, Memory.wfFrom_cons.mpr ⟨by omega, h2, h3, h4⟩⟩

theorem Memory.wf_write {m : Memory} (hw : Memory.wf m = true) (a : Addr) (b : Byte) :
    Memory.wf (Memory.write m a.val b) = true :=
  Memory.wfFrom_write hw (Nat.zero_le _) a.isLt b

/-- The only cell a write can change is the one written. -/
theorem Memory.read_write_ne {m : Memory} {a a' : Nat} {b : Byte}
    (h : Memory.read (Memory.write m a b) a' ≠ Memory.read m a') : a' = a := by
  by_contra hne
  exact h (Memory.read_write_other m hne b)

theorem Memory.wf_nil : Memory.wf [] = true := rfl

end Sys2Proof
end

