-- ==== Sys2Proof/Laws/Cycle.lean ====
section
/-! SUPPORT. What one action of the core can do, and the invariant taken apart. -/

namespace Sys2Proof.Machine

/-! ## The line cycle (R102, R103) -/

/-- The state once the loader's answer has been taken from the port. -/
def State.answered (s : State) (rest : List SrcAnswer) : State := { s.requestLine with src := rest, lineReq := false }

/-- The state once a line has been consumed and counted. -/
def State.counted (s : State) (rest : List SrcAnswer) : State :=
  { s.answered rest with pc := s.pc + 1 }

theorem State.requestLine_eq (s : State) :
    s.requestLine = { s with out := s.out ++ (if s.lineReq then [] else [.nextLine]), lineReq := true } := by
  unfold State.requestLine
  split
  · rename_i h; cases s; simp_all
  · rfl

theorem State.counted_eq (s : State) (rest : List SrcAnswer) :
    s.counted rest = { s with src := rest, lineReq := false, pc := s.pc + 1,
                              out := s.out ++ (if s.lineReq then [] else [.nextLine]) } := by
  simp [State.counted, State.answered, State.requestLine_eq]

theorem instrTransaction_next {d : Decoded} {s t : State} (h : instrTransaction d s = .next t) :
    ∃ i s', decodeDiw d.diw = some i ∧ exec i (s.beginInstr i.opcode d) = .next s' ∧ t = s'.settle := by
  unfold instrTransaction at h
  split at h
  · cases h
  · rename_i i hi
    simp only [executeDiw, hi] at h
    split at h
    · rename_i s' hs
      cases h
      exact ⟨i, s', hi, hs, rfl⟩
    · cases h
    · cases h

/-- What consuming a line can do (R102). -/
theorem consumeLine_next {l : Text} {s t : State} (h : consumeLine l s = .next t) :
    (decodeLine s.cfg.lineMax l = .noInstr ∧ t = { s with pc := s.pc + 1 }) ∨
    (∃ c, decodeLine s.cfg.lineMax l = .fatal c ∧ t = State.raiseFatal { s with pc := s.pc + 1 } c) ∨
    (∃ d i s', decodeLine s.cfg.lineMax l = .instr d ∧ decodeDiw d.diw = some i ∧
      exec i (State.beginInstr { s with pc := s.pc + 1 } i.opcode d) = .next s' ∧ t = s'.settle) := by
  unfold consumeLine at h
  split at h
  · rename_i hd; cases h; exact .inl ⟨hd, rfl⟩
  · rename_i c hd; cases h; exact .inr (.inl ⟨c, hd, rfl⟩)
  · rename_i d hd
    obtain ⟨i, s', h1, h2, h3⟩ := instrTransaction_next h
    exact .inr (.inr ⟨d, i, s', hd, h1, h2, h3⟩)

/-- What one line cycle can do (R102). -/
theorem lineCycle_next {s t : State} (h : lineCycle s = .next t) :
    (s.src = [] ∧ t = s.requestLine) ∨
    (∃ rest, s.src = .eof :: rest ∧ t = (s.answered rest).endRun) ∨
    (∃ rest, s.src = .missing :: rest ∧ t = (s.answered rest).raiseFatal .sourceMissing) ∨
    (∃ l rest, s.src = .line l :: rest ∧ consumeLine l (s.answered rest) = .next t) := by
  unfold lineCycle at h
  split at h
  · rename_i hs; cases h; exact .inl ⟨hs, rfl⟩
  · rename_i a rest hs
    cases a with
    | line l => exact .inr (.inr (.inr ⟨l, rest, hs, h⟩))
    | eof => cases h; exact .inr (.inl ⟨rest, hs, rfl⟩)
    | missing => cases h; exact .inr (.inr (.inl ⟨rest, hs, rfl⟩))

/-- What the end of a wait can do (R183). -/
theorem resumeInput_next {s t : State} (h : resumeInput s = .next t) :
    ∃ k, s.pendingInput = some k ∧
    ((s.inp = [] ∧ t = s) ∨
     ∃ r rest, s.inp = r :: rest ∧ t = (finishInput k r { s with runState := .running, inp := rest }).settle) := by
  unfold resumeInput at h
  split at h
  · cases h
  · rename_i k hk
    split at h
    · rename_i hi; cases h; exact ⟨k, hk, .inl ⟨hi, rfl⟩⟩
    · rename_i r rest hi; cases h; exact ⟨k, hk, .inr ⟨r, rest, hi, rfl⟩⟩

/-- Everything one action of the core can do (R102, R115, R116, R183). -/
theorem coreStep_next {s t : State} (h : coreStep s = .next t) :
    (s.runState = .waitInput ∧ resumeInput s = .next t) ∨
    (s.runState = .halted ∧ s.dumpPending = 0 ∧ t = s) ∨
    (s.runState ≠ .waitInput ∧ s.dumpPending ≠ 0 ∧ t = s.serveDump) ∨
    (s.runState = .running ∧ (s.dumpPending = 0 ∨ s.lineReq = true) ∧ lineCycle s = .next t) := by
  unfold coreStep at h
  split at h
  · rename_i hr; exact .inl ⟨hr, h⟩
  · rename_i hr
    split at h
    · rename_i hd; cases h; exact .inr (.inl ⟨hr, hd, rfl⟩)
    · rename_i hd; cases h; exact .inr (.inr (.inl ⟨by simp [hr], hd, rfl⟩))
  · rename_i hr
    split at h
    · rename_i hd; exact .inr (.inr (.inr ⟨hr, hd, h⟩))
    · rename_i hd
      cases h
      exact .inr (.inr (.inl ⟨by simp [hr], fun e => hd (.inl e), rfl⟩))

/-- Everything one step can do: the core's action, or a landing of `dump_req`, `rst` or an answer (R183, R213, R230, R235). -/
theorem step_next {s t : State} (h : step s = .next t) :
    (s.async = [] ∧ coreStep s = .next t) ∨
    (∃ rest, s.async = .quiet :: rest ∧ coreStep { s with async := rest } = .next t) ∨
    (∃ rest, s.async = .dumpReq :: rest ∧ t = { s with async := rest, dumpPending := s.dumpPending + 1 }) ∨
    (∃ rest, s.async = .rst :: rest ∧ t = State.applyReset { s with async := rest }) ∨
    (∃ n rest u, s.async = .rstDuring n :: rest ∧ coreStep { s with async := rest } = .next u ∧
      t = (State.abandonAfter { s with async := rest } u n).applyReset) ∨
    (∃ n a rest, s.async = .lineAnswer n a :: rest ∧ t = State.landLine { s with async := rest } n a) ∨
    (∃ n r rest, s.async = .tokenAnswer n r :: rest ∧ t = State.landToken { s with async := rest } n r) := by
  simp only [step, runStep] at h
  split at h
  · rename_i ha; exact .inl ⟨ha, h⟩
  · rename_i rest ha; exact .inr (.inl ⟨rest, ha, h⟩)
  · rename_i rest ha; cases h; exact .inr (.inr (.inl ⟨rest, ha, rfl⟩))
  · rename_i rest ha; cases h; exact .inr (.inr (.inr (.inl ⟨rest, ha, rfl⟩)))
  · rename_i n rest ha
    split at h
    · rename_i u hu; cases h; exact .inr (.inr (.inr (.inr (.inl ⟨n, rest, u, ha, hu, rfl⟩))))
    · cases h
    · cases h
  · rename_i n a rest ha; cases h; exact .inr (.inr (.inr (.inr (.inr (.inl ⟨n, a, rest, ha, rfl⟩)))))
  · rename_i n r rest ha; cases h; exact .inr (.inr (.inr (.inr (.inr (.inr ⟨n, r, rest, ha, rfl⟩)))))

/-! ## The invariant -/

/-- The invariant, field by field. -/
theorem inv_iff (s : State) : StateInv s = true ↔
    Memory.wf s.mem = true ∧ flagsCoherent s.flags = true ∧ imageOk s.cfg.image = true ∧
    (s.haltCause = .none ↔ s.runState ≠ .halted) ∧ (s.decoded.isSome = true ↔ s.runState = .waitInput) ∧
    s.pre = (if s.runState = .waitInput then some s.mem else none) ∧
    (s.pendingInput.isSome = true ↔ s.runState = .waitInput) ∧
    (s.runState = .running ∨ s.lineReq = false) := by
  unfold StateInv
  simp only [Bool.and_eq_true, and_assoc, Bool.or_eq_true, beq_iff_eq, Bool.not_eq_true']
  refine and_congr_right fun _ => and_congr_right fun _ => and_congr_right fun _ => and_congr ?_ (and_congr ?_
    (and_congr_right fun _ => and_congr ?_ Iff.rfl))
  · cases s.haltCause <;> cases s.runState <;> decide
  · cases s.decoded <;> cases s.runState <;> simp
  · cases s.pendingInput <;> cases s.runState <;> simp

/-- The invariant does not look at the host's lists (R101). -/
theorem inv_congr_host (s : State) (src : List SrcAnswer) (inp : List InpAnswer) (async : List AsyncInput) :
    StateInv { s with src := src, inp := inp, async := async } = StateInv s := rfl

/-- A landing answer keeps the invariant. -/
theorem landLine_inv (s : State) (n : Nat) (a : SrcAnswer) : StateInv (s.landLine n a) = StateInv s := rfl

/-- A landing token keeps the invariant. -/
theorem landToken_inv (s : State) (n : Nat) (r : InpAnswer) : StateInv (s.landToken n r) = StateInv s := rfl

theorem imageOk_iff (r : ResetImage) : imageOk r = true ↔ Memory.wf r.mem = true ∧ flagsCoherent r.flags = true := by
  simp [imageOk]

end Sys2Proof.Machine
end

