-- ==== Sys2Proof/Laws/Effects.lean ====
section
/-! SUPPORT. What an instruction does, in the terms of Safety.lean, and what it leaves alone. -/

namespace Sys2Proof.Machine

/-- R7: truncation and the signed reading, as arithmetic. -/
theorem s8_trunc8 (v : Int) : s8 (trunc8 v) = (v + 128) % 256 - 128 := by
  simp only [s8, trunc8, BitVec.toInt_ofInt, Int.bmod_def]; norm_num; split <;> omega

/-- R107 in the statements' terms. -/
theorem writeBack_eq_afterWrite (s : State) (k w) : s.writeBack k w = afterWrite s k w := by
  simp only [State.writeBack, State.writeResult, afterWrite, trunc8, deriveFlags]
  congr; rw [Bool.eq_iff_iff]; simp

theorem ascii_space : ascii " " = [0x20#8] := by decide

/-- R211: the model's names are those of the table. -/
theorem ErrCode.text_eq (c : ErrCode) : c.text = ascii (errorName c) := by cases c <;> rfl

/-- R110 in the statements' terms. -/
theorem recover_eq_afterError (s : State) (op : Opcode) (e) (m : String) (h : op.text = ascii m) :
    s.recover op e = afterError s m e := by
  simp [State.recover, State.emitLine, State.emit, afterError, diagLine, h, ascii_space, ErrCode.text_eq]

/-- R170 in the statements' terms. -/
theorem writeResult_eq_afterRotShift (s : State) (k n) :
    s.writeResult k n (rotShiftFlags s.cfg.flagBasis n) = afterRotShift s k n := by
  simp only [State.writeResult, afterRotShift, rotShiftFlags]
  have hn := n.isLt
  obtain ⟨c, d⟩ := s8_range n
  cases s.cfg.flagBasis <;> simp only [deriveFlags]
  · have : ¬ ((n.toNat : Int) < -128) := by omega
    have e : ((n.toNat : Int) > 127) ↔ 127 < n.toNat := by omega
    simp [this, e]
  · have h1 : ¬ (s8 n > 127) := by omega
    have h2 : ¬ (s8 n < -128) := by omega
    have h4 : (s8 n = 0) ↔ n.toNat = 0 := by
      have : n.toNat = 0 ↔ n = 0#8 := by simp [← BitVec.toNat_inj]
      rw [this]; simp [s8, ← BitVec.toInt_inj]
    simp [h1, h2, h4]

/-- R180: END. -/
theorem finishInput_eof (k s) : finishInput k .eof s = afterError s "INPUT" ⟨.inputInvalid, ascii "<EOF>"⟩ := by
  simp only [finishInput]; rw [recover_eq_afterError _ _ _ "INPUT" rfl]

/-- R180: an integer in range. -/
theorem finishInput_integer (k s b v) (h : numeric b = some v) (h1 : -32768 ≤ v) (h2 : v ≤ 32767) :
    finishInput k (.token b) s = afterWrite s k v := by
  have : inputInt b = some v := by simp [inputInt, h, immInRange, h1, h2]
  simp only [finishInput, this, writeBack_eq_afterWrite]

/-- R180: any other token. -/
theorem finishInput_bad (k s b) (h : ∀ v, numeric b = some v → v < -32768 ∨ 32767 < v) :
    finishInput k (.token b) s = afterError s "INPUT" ⟨.inputInvalid, b⟩ := by
  have : inputInt b = none := by
    unfold inputInt
    split
    · rename_i v hv; have := h v hv; rw [if_neg]; rw [immInRange_iff]; omega
    · rfl
  simp only [finishInput, this]; rw [recover_eq_afterError _ _ _ "INPUT" rfl]

/-- R105: a 32-bit intermediate holds the result exactly. -/
theorem wide_fits {w : Int} (h1 : -4194176 ≤ w) (h2 : w ≤ 4194304) :
    -4194176 ≤ w ∧ w ≤ 4194304 ∧ (BitVec.ofInt 32 w).toInt = w := by
  refine ⟨h1, h2, ?_⟩
  rw [BitVec.toInt_ofInt]; exact Int.bmod_eq_of_le (by norm_num; omega) (by norm_num; omega)

/-- A quotient is no larger than its dividend. -/
theorem aluDiv_bounds (r) (t s : Int) (ht : t ≠ 0) (h1 : -32768 ≤ s) (h2 : s ≤ 32767) :
    -32768 ≤ aluDiv r t s ∧ aluDiv r t s ≤ 32768 := by
  cases r with
  | towardZero =>
    simp only [aluDiv]
    have : (s.tdiv t).natAbs ≤ s.natAbs := by rw [Int.natAbs_tdiv]; exact Nat.div_le_self _ _
    omega
  | floor =>
    simp only [aluDiv]
    rw [Int.fdiv_eq_ediv]
    have h := Int.natAbs_ediv_le_natAbs s t
    have h3 : 0 < t ∨ t < 0 := by omega
    rcases h3 with h3 | h3
    · rw [if_pos (Or.inl (by omega))]; omega
    · split
      · omega
      · rename_i hh
        have : ¬ t ∣ s := fun h => hh (Or.inr h)
        by_cases hs : s ≤ 0
        · have : 0 ≤ s / t := Int.ediv_nonneg_of_nonpos_of_nonpos hs (by omega)
          omega
        · have e : s / t = -(s / (-t)) := by rw [Int.ediv_neg]; ring
          have : s / (-t) ≤ s := Int.ediv_le_self _ (by omega)
          omega

/-- R108 written out. -/
theorem tdiv_eq (a b : Int) : a.tdiv b = a.sign * b.sign * ((a.natAbs / b.natAbs : Nat) : Int) := by
  have hm : ∀ m : Nat, |(m:Int)+1| = m+1 := fun m => abs_of_nonneg (by omega)
  rcases a with (_ | m) | m <;> rcases b with (_ | n) | n <;> simp [Int.tdiv, Int.sign, hm]

/-- The named alternative rounding (I3). -/
theorem fdiv_eq_floor (a b : Int) : Int.fdiv a b = ⌊(a : ℚ) / (b : ℚ)⌋ := by
  rcases Int.natAbs_eq b with h | h
  · rw [h, Int.fdiv_eq_ediv_of_nonneg _ (by omega)]
    exact (Rat.floor_intCast_div_natCast _ _).symm
  · rw [h, ← Int.neg_fdiv_neg, neg_neg, Int.fdiv_eq_ediv_of_nonneg _ (by omega)]
    have := (Rat.floor_intCast_div_natCast (-a) b.natAbs).symm
    rw [this]; generalize b.natAbs = n; congr 1; push_cast; rw [neg_div, div_neg]

/-- What INPUT's completion leaves alone. -/
theorem finishInput_frame (k r) (s : State) :
    (∀ j, j ≠ k → (finishInput k r s).reg j = s.reg j) ∧ (finishInput k r s).mem = s.mem ∧
    SameRest s (finishInput k r s) ∧ (finishInput k r s).inp = s.inp ∧ (finishInput k r s).runState = s.runState := by
  rcases finishInput_cases k r s with ⟨e, h⟩ | ⟨v, h⟩ <;> rw [h]
  · exact ⟨fun _ _ => rfl, rfl, ⟨rfl, rfl, rfl, rfl, rfl, rfl, rfl, rfl, rfl, rfl⟩, rfl, rfl⟩
  · exact ⟨fun j hj => State.writeResult_reg_other _ hj _ _, rfl, ⟨rfl, rfl, rfl, rfl, rfl, rfl, rfl, rfl, rfl, rfl⟩, rfl, rfl⟩

/-- R29: an operand's value does not depend on the flags. -/
theorem value_withFlags (s : State) (f o t) : value { s with flags := f } o t = value s o t := by cases o <;> rfl

theorem address_withFlags (s : State) (f o t) : address { s with flags := f } o t = address s o t := by cases o <;> rfl

theorem pair_withFlags (s : State) (f o1 o2) : pair { s with flags := f } o1 o2 = pair s o1 o2 := by
  simp only [pair, value_withFlags]; rfl

theorem changedCells_same (s t : State) (h : t.mem = s.mem) : (changedCells s.mem t.mem) = [] := by
  rw [h]; simp [changedCells]

/-- Every instruction answers a next state. -/
theorem exec_proceeds (i s) : ∃ t, exec i s = .next t := by
  have hc : ∀ op s r, ∃ t, complete op s r = .next t := by intro op s r; cases r <;> exact ⟨_, rfl⟩
  cases i with
  | inc o1 o2 => cases o1 <;> exact ⟨_, rfl⟩
  | dec o1 o2 => cases o1 <;> exact ⟨_, rfl⟩
  | mov o1 o2 => cases o2 <;> first | exact ⟨_, rfl⟩ | exact hc _ _ _
  | _ => exact hc _ _ _

end Sys2Proof.Machine
end

