-- ==== Sys2Proof/Laws/Lines.lean ====
section
/-! SUPPORT. From a DIW back to its operands, from an assembled line back to its instruction, and which operand texts are
numeric, registers or neither. -/

namespace Sys2Proof.Machine

/-- An operand that decodes is well formed, and its kind and payload are the fields decoded. -/
theorem decodeOperand_some {k p o} (h : decodeOperand k p = some o) : o.wf = true ∧ o.kind = k ∧ o.payload = p := by
  unfold decodeOperand at h
  have hk : ∀ n, k.toNat = n → k = BitVec.ofNat 4 n := fun n e => by
    apply BitVec.eq_of_toNat_eq; rw [BitVec.toNat_ofNat, e, Nat.mod_eq_of_lt (e ▸ k.isLt)]
  split at h
  all_goals first | (cases h; done) | skip
  all_goals (rename_i e; try rw [hk _ e])
  · unfold payloadNone at h; split at h <;> cases h; subst_vars; exact ⟨rfl, rfl, rfl⟩
  · unfold payloadReg at h; split at h <;> cases h; refine ⟨rfl, rfl, ?_⟩; simp [Operand.payload]
  · cases h; exact ⟨immInRange_toInt p, rfl, by simp [Operand.payload]⟩
  · unfold payloadNone at h; split at h <;> cases h; subst_vars; exact ⟨rfl, rfl, rfl⟩
  · unfold payloadAddr at h; split at h <;> cases h; refine ⟨rfl, rfl, ?_⟩; simp [Operand.payload]
  · unfold payloadNone at h; split at h <;> cases h; subst_vars; exact ⟨rfl, rfl, rfl⟩
  · unfold payloadReg at h; split at h <;> cases h; refine ⟨rfl, rfl, ?_⟩; simp [Operand.payload]
  · unfold payloadNone at h; split at h <;> cases h; subst_vars; exact ⟨rfl, rfl, rfl⟩
  · unfold payloadNone at h; split at h <;> cases h; subst_vars; exact ⟨rfl, rfl, rfl⟩
  · unfold payloadNone at h; split at h <;> cases h; subst_vars; exact ⟨rfl, rfl, rfl⟩

/-- R77: 15 is the one opcode number without an opcode. -/
theorem Opcode.ofCode_eq_none : ∀ c : BitVec 4, Opcode.ofCode c = none ↔ c = 15#4 := by decide

/-- A decoded line carries the DIW of a well-formed instruction. -/
theorem decodeLine_instr {lm l d} (h : decodeLine lm l = .instr d) :
    ∃ i : Instr, i.wf = true ∧ d.diw = encodeDiw i := by
  unfold decodeLine at h
  split at h; · cases h
  split at h; · cases h
  split at h; · cases h
  split at h; · cases h
  cases h
  refine ⟨_, ?_, rfl⟩
  simp [Instr.wf, classify_wf]

/-- An assembled line holds token bytes and spaces only. -/
theorem assemble_bytes (i : Instr) : ∀ b ∈ assemble i, (tokenByte b = true ∨ b = 0x20#8) := by
  intro b hb
  unfold assemble at hb
  split at hb
  · exact .inl (Opcode.text_bytes _ _ hb)
  · simp only [List.mem_append, List.mem_cons] at hb
    rcases hb with h | h | h
    · exact .inl (Opcode.text_bytes _ _ h)
    · exact .inr h
    · exact .inl (Operand.token_bytes _ _ h)
  · simp only [List.mem_append, List.mem_cons] at hb
    rcases hb with h | h | h | h | h
    · exact .inl (Opcode.text_bytes _ _ h)
    · exact .inr h
    · exact .inl (Operand.token_bytes _ _ h)
    · exact .inr h
    · exact .inl (Operand.token_bytes _ _ h)

/-- The operand tokens of an assembled line. -/
def operandTokens (i : Instr) : List Text :=
  match i.operands with
  | (.absent, .absent) => []
  | (o1, .absent) => [o1.token]
  | (o1, o2) => [o1.token, o2.token]

/-- The tokens of an assembled line. -/
theorem tokens_assemble (i : Instr) : tokens (assemble i) = i.opcode.text :: operandTokens i := by
  have ft : ∀ b ∈ i.opcode.text, isSep b = false := fun b hb => (tokenByte_iff.mp (Opcode.text_bytes _ b hb)).1
  have fo : ∀ o : Operand, ∀ b ∈ o.token, isSep b = false := fun o b hb => (tokenByte_iff.mp (Operand.token_bytes o b hb)).1
  have hs : isSep 0x20#8 = true := by decide
  unfold assemble operandTokens
  split <;> rename_i heq <;> (try simp only [heq])
  · exact tokens_free (Opcode.text_ne_nil _) ft
  · rw [tokens_append_sep (Opcode.text_ne_nil _) ft hs, tokens_free (Operand.token_ne_nil _) (fo _)]
  · rw [tokens_append_sep (Opcode.text_ne_nil _) ft hs, tokens_append_sep (Operand.token_ne_nil _) (fo _) hs, tokens_free (Operand.token_ne_nil _) (fo _)]

/-- Normalising an assembled line keeps its tokens. -/
theorem tokens_normalise_assemble (i : Instr) : tokens (normalise (assemble i)) = tokens (assemble i) := by
  have hb := assemble_bytes i
  rw [tokens_normalise, stripComment_of_free, ← tokens_map_upper, map_upper_of_free]
  · intro b h; rcases hb b h with h | rfl
    · exact (tokenByte_iff.mp h).2.2
    · decide
  · intro b h; rcases hb b h with h | rfl
    · exact (tokenByte_iff.mp h).2.1
    · decide

/-- A sanitised token without lower-case letters is an operand text. -/
theorem sanitise_operandByte {t : Text} (h : ∀ b ∈ t, isLower b = false) : (sanitise t).all operandByte = true := by
  simp only [List.all_eq_true, sanitise, List.mem_filter]
  rintro b ⟨hb, hp⟩
  have := h b hb
  simp [isPrint, isLower, operandByte] at *
  omega

/-- A line decodes by its tokens alone when its length is not limited. -/
theorem decodeLine_congr {l l' : Text} (h : tokens (normalise l) = tokens (normalise l')) :
    decodeLine none l = decodeLine none l' := by
  unfold decodeLine; rw [h]; rfl

/-- R62: what follows a comment mark is not read. -/
theorem stripComment_append_comment (l r : Text) : stripComment (l ++ 0x3B#8 :: r) = stripComment l := by
  induction l with
  | nil => simp [stripComment]
  | cons b t ih =>
    simp only [stripComment, List.cons_append, List.takeWhile_cons] at ih ⊢
    split <;> simp_all

/-- A byte map that keeps the comment mark passes through comment stripping. -/
theorem stripComment_map (f : Byte → Byte) (hf : ∀ b, (f b).toNat = 0x3B ↔ b.toNat = 0x3B) (l : Text) :
    stripComment (l.map f) = (stripComment l).map f := by
  induction l with
  | nil => rfl
  | cons b t ih =>
    simp only [stripComment, List.map_cons, List.takeWhile_cons] at ih ⊢
    have : ((f b).toNat != 0x3B) = (b.toNat != 0x3B) := by
      rw [Bool.eq_iff_iff]; simp [hf b]
    rw [this]; split <;> simp_all

/-- Leading separators hold no token. -/
theorem tokens_append_left_seps {a : Text} (h : ∀ c ∈ a, isSep c = true) (l : Text) : tokens (a ++ l) = tokens l := by
  induction a with
  | nil => rfl
  | cons b t ih => rw [List.cons_append, tokens_cons_sep (h b (by simp)), ih fun c hc => h c (by simp [hc])]

/-- Trailing separators hold no token. -/
theorem tokens_append_right_seps {a : Text} (h : ∀ c ∈ a, isSep c = true) (l : Text) : tokens (l ++ a) = tokens l := by
  induction a using List.reverseRecOn with
  | nil => simp
  | append_singleton t b ih => rw [← List.append_assoc, tokens_snoc_sep (h b (by simp)), ih fun c hc => h c (by simp [hc])]

/-- R73: leading zeros do not change a number. -/
theorem digitsValue_zeros (z n : Nat) : digitsValue (List.replicate z 0x30#8 ++ decText n) = n := by
  have : digitsValue (decText n) = n := digitsValue_decDigits (Nat.lt_succ_self n)
  induction z with
  | zero => simpa using this
  | succ k ih => simpa [digitsValue, List.replicate_succ] using ih

theorem zeros_isDigit (z n : Nat) : ∀ b ∈ List.replicate z 0x30#8 ++ decText n, isDigit b = true := by
  intro b hb
  rcases List.mem_append.mp hb with h | h
  · rw [List.eq_of_mem_replicate h]; decide
  · exact decText_isDigit n b h

theorem natToken_zeros (z n : Nat) : natToken (List.replicate z 0x30#8 ++ decText n) = some n := by
  have h : (List.replicate z 0x30#8 ++ decText n).all isDigit = true := List.all_eq_true.mpr (zeros_isDigit z n)
  have h2 : (List.replicate z 0x30#8 ++ decText n) ≠ [] := by simp [decText_ne_nil]
  simp only [natToken, h, digitsValue_zeros]; simp [decText_ne_nil]

theorem zeros_head (z n : Nat) :
    ∃ b r, List.replicate z 0x30#8 ++ decText n = b :: r ∧ 0x30 ≤ b.toNat ∧ b.toNat ≤ 0x39 := by
  obtain ⟨b, r, h⟩ := List.exists_cons_of_ne_nil (l := List.replicate z 0x30#8 ++ decText n) (by simp [decText_ne_nil])
  exact ⟨b, r, h, isDigit_iff.mp (zeros_isDigit z n b (by simp [h]))⟩

theorem numeric_zeros (z n : Nat) : numeric (List.replicate z 0x30#8 ++ decText n) = some (n : Int) := by
  obtain ⟨b, r, h, h1, h2⟩ := zeros_head z n
  have := natToken_zeros z n
  rw [h] at this ⊢
  simp only [numeric]; rw [if_neg (by omega), if_neg (by omega), this]; rfl

/-- A number of ten or more has two or more digits. -/
theorem decText_length {n : Nat} (h : 10 ≤ n) : 2 ≤ (decText n).length := by
  have : decText n = decDigits n (n/10) ++ [digitByte (n % 10)] := by
    simp only [decText, decDigits]; rw [if_neg (by omega)]
  have h2 : decDigits n (n/10) ≠ [] := by
    obtain ⟨m, rfl⟩ := Nat.exists_eq_succ_of_ne_zero (show n ≠ 0 by omega)
    simp only [decDigits]; split <;> simp
  rw [this]; have := List.length_pos_of_ne_nil h2; simp; omega

/-! ## Which texts are numeric, registers, bracketed or none of these (R72, R73, R75) -/

/-- One or more decimal digits. -/
theorem natToken_isSome (t : Text) :
    (natToken t).isSome = true ↔ t ≠ [] ∧ ∀ b ∈ t, 0x30 ≤ b.toNat ∧ b.toNat ≤ 0x39 := by
  simp only [natToken]
  split <;> rename_i h <;> simp [isDigit] at h ⊢
  · exact ⟨h.1, h.2⟩
  · exact h

theorem isSome_of_bind {x : Option Nat} {f : Nat → Int} : (x.bind fun a => some (f a)).isSome = x.isSome := by
  cases x <;> rfl

/-- R73: the numeric texts are exactly those with a value. -/
theorem numeric_isSome (t : Text) : (numeric t).isSome = true ↔ NumericText t := by
  constructor
  · intro h
    cases t with
    | nil => cases h
    | cons b r =>
      simp only [numeric] at h
      split at h
      · rename_i hb
        have : b = 0x2B#8 := BitVec.eq_of_toNat_eq hb
        obtain ⟨h1, h2⟩ := (natToken_isSome r).mp (by simpa [isSome_of_bind] using h)
        exact ⟨[0x2B#8], r, by rw [this]; rfl, .inr (.inl rfl), h1, h2⟩
      · split at h
        · rename_i hb
          have : b = 0x2D#8 := BitVec.eq_of_toNat_eq hb
          obtain ⟨h1, h2⟩ := (natToken_isSome r).mp (by simpa [isSome_of_bind] using h)
          exact ⟨[0x2D#8], r, by rw [this]; rfl, .inr (.inr rfl), h1, h2⟩
        · obtain ⟨h1, h2⟩ := (natToken_isSome (b :: r)).mp (by simpa [isSome_of_bind] using h)
          exact ⟨[], b :: r, rfl, .inl rfl, h1, h2⟩
  · rintro ⟨sign, ds, rfl, hs, hne, hd⟩
    have hn := (natToken_isSome ds).mpr ⟨hne, hd⟩
    rcases hs with rfl | rfl | rfl
    · obtain ⟨b, r, rfl⟩ := List.exists_cons_of_ne_nil hne
      have := hd b (by simp)
      simp only [List.nil_append, numeric]
      rw [if_neg (by omega), if_neg (by omega)]; simpa [isSome_of_bind] using hn
    · simpa [numeric, isSome_of_bind] using hn
    · simpa [numeric, isSome_of_bind] using hn

/-- R72: `R` and digits. -/
theorem rDigits_iff (t : Text) : rDigits t = true ↔ RegisterText t := by
  cases t with
  | nil => simp [rDigits, RegisterText]
  | cons r ds =>
    have : r.toNat = 0x52 ↔ r = 0x52#8 := by simp [← BitVec.toNat_inj]
    simp [rDigits, RegisterText, isDigit, this]
    constructor
    · rintro ⟨⟨rfl, h1⟩, h2⟩; exact ⟨rfl, h1, h2⟩
    · rintro ⟨rfl, h1, h2⟩; exact ⟨⟨rfl, h1⟩, h2⟩

/-- A register's text is `R` and digits (R72). -/
theorem regToken_rDigits {t : Text} {k : RegIdx} (h : regToken t = some k) : rDigits t = true := by
  match t, h with
  | [r, d], h =>
    simp only [regToken] at h
    split at h
    · rename_i h1
      split at h
      · simp [rDigits, isDigit]; omega
      · cases h
    · cases h

/-- R75: the bracketed texts. -/
theorem bracketed_iff (t inner : Text) : bracketed t = some inner ↔ t = 0x5B#8 :: (inner ++ [0x5D#8]) := by
  constructor
  · intro h
    cases t with
    | nil => cases h
    | cons b r =>
      simp only [bracketed] at h
      split at h
      · rename_i hb
        cases h
        obtain ⟨h1, h2⟩ := hb
        have hb : b = 0x5B#8 := BitVec.eq_of_toNat_eq h1
        cases hl : r.getLast? with
        | none => rw [hl] at h2; cases h2
        | some c =>
          rw [hl] at h2
          have hc : c = 0x5D#8 := BitVec.eq_of_toNat_eq (by simpa using h2)
          rw [hb, ← hc, List.dropLast_append_getLast? c (by simp [hl])]
      · cases h
  · rintro rfl; exact bracketed_brackets inner

/-- R75: BADTOK is what is left. -/
theorem classify_badTok (t : Text) : classify t = .badTok ↔ t ≠ [] ∧ ¬ NumericText t ∧ ¬ RegisterText t ∧
    ∀ inner, t = 0x5B#8 :: (inner ++ [0x5D#8]) → ¬ NumericText inner ∧ ¬ RegisterText inner := by
  simp only [← numeric_isSome, ← rDigits_iff, ← bracketed_iff]
  unfold classify
  cases t with
  | nil => simp
  | cons b r =>
    simp only [List.isEmpty_cons, Bool.false_eq_true, if_false]
    cases hr : regToken (b :: r) with
    | some k => simp [regToken_rDigits hr]
    | none =>
      simp only
      cases hb : bracketed (b :: r) with
      | some inner =>
        have hb' := (bracketed_iff _ _).mp hb
        have hbb : b.toNat = 0x5B := by rw [List.cons_eq_cons.mp hb' |>.1]; rfl
        have h1 : numeric (b :: r) = none := by simp [numeric, natToken, isDigit, hbb]
        have h2 : rDigits (b :: r) = false := rDigits_eq_false (by omega) _
        simp only [h1, h2, classifyInner]
        cases hk : regToken inner with
        | some k => simp [regToken_rDigits hk]
        | none =>
          simp only
          cases hd : rDigits inner with
          | true => simp [hd]
          | false =>
            cases hn : numeric inner with
            | none => simp [hd, hn]
            | some v => simp [hd, hn]; split <;> (try split) <;> simp
      | none =>
        simp only [classifyBare]
        cases hn : numeric (b :: r) with
        | some v => simp; split <;> simp
        | none => cases hd : rDigits (b :: r) <;> simp

end Sys2Proof.Machine
end

