-- ==== Sys2Proof/Laws/PerInstr.lean ====
section
/-! SUPPORT. The family DiwOpcode: the low four bits of an instruction's DIW are its row's opcode number (R68, R71),
one lemma per constructor of Instr. -/

namespace Sys2Proof.Laws.DiwOpcode

/-- The opcode field of the encoded instruction is the number R68 gives its mnemonic, and it is not the reserved 15. -/
def Statement (i : Instr) : Prop := (encodeDiw i).opc = i.opcode.code ∧ i.opcode.code ≠ 15#4

theorem opc_encode (i : Instr) : (encodeDiw i).opc = i.opcode.code := Diw.opc_pack _ _ _ _ _

theorem code_ne_reserved (op : Opcode) : op.code ≠ 15#4 := by cases op <;> decide

theorem add (o1 o2 : Operand) : Statement (.add o1 o2) := ⟨opc_encode _, code_ne_reserved _⟩
theorem sub (o1 o2 : Operand) : Statement (.sub o1 o2) := ⟨opc_encode _, code_ne_reserved _⟩
theorem mul (o1 o2 : Operand) : Statement (.mul o1 o2) := ⟨opc_encode _, code_ne_reserved _⟩
theorem div (o1 o2 : Operand) : Statement (.div o1 o2) := ⟨opc_encode _, code_ne_reserved _⟩
theorem inc (o1 o2 : Operand) : Statement (.inc o1 o2) := ⟨opc_encode _, code_ne_reserved _⟩
theorem dec (o1 o2 : Operand) : Statement (.dec o1 o2) := ⟨opc_encode _, code_ne_reserved _⟩
theorem mov (o1 o2 : Operand) : Statement (.mov o1 o2) := ⟨opc_encode _, code_ne_reserved _⟩
theorem load (o1 o2 : Operand) : Statement (.load o1 o2) := ⟨opc_encode _, code_ne_reserved _⟩
theorem store (o1 o2 : Operand) : Statement (.store o1 o2) := ⟨opc_encode _, code_ne_reserved _⟩
theorem rol (o1 o2 : Operand) : Statement (.rol o1 o2) := ⟨opc_encode _, code_ne_reserved _⟩
theorem ror (o1 o2 : Operand) : Statement (.ror o1 o2) := ⟨opc_encode _, code_ne_reserved _⟩
theorem shl (o1 o2 : Operand) : Statement (.shl o1 o2) := ⟨opc_encode _, code_ne_reserved _⟩
theorem shr (o1 o2 : Operand) : Statement (.shr o1 o2) := ⟨opc_encode _, code_ne_reserved _⟩
theorem input (o1 o2 : Operand) : Statement (.input o1 o2) := ⟨opc_encode _, code_ne_reserved _⟩
theorem display (o1 o2 : Operand) : Statement (.display o1 o2) := ⟨opc_encode _, code_ne_reserved _⟩

end Sys2Proof.Laws.DiwOpcode
end

