-- ==== Sys2Proof/Laws/Run.lean ====
section
/-! SUPPORT. What one action of the core leaves alone and what it sends. -/

namespace Sys2Proof.Machine

/-- Where nothing lands, the step is the core's own action. -/
theorem step_of_coreActs (s : State) (h : CoreActs s) : step s = coreStep (afterQuiet s) := by
  rcases h with h | ⟨r, h⟩ <;> simp only [step, runStep, h, afterQuiet]
  · cases s; simp only at h; subst h; rfl
  · rfl

theorem coreStep_of_lineDue (s : State) (h : LineDue s) : coreStep s = lineCycle s := by
  obtain ⟨h1, h2⟩ := h
  simp only [coreStep, h1]; rw [if_pos h2]

theorem lineDue_afterQuiet (s : State) (h : LineDue s) : LineDue (afterQuiet s) := h

/-- Where a line is due, the step is the line cycle. -/
theorem step_of_lineDue (s : State) (h : CoreActs s) (h2 : LineDue s) : step s = lineCycle (afterQuiet s) := by
  rw [step_of_coreActs s h, coreStep_of_lineDue _ (lineDue_afterQuiet s h2)]

/-- No instruction touches the transient items, the parameters, `halt_cause` or the line request. -/
theorem exec_keeps_transient {i s t} (h : exec i s = .next t) :
    t.pre = s.pre ∧ t.decoded = s.decoded ∧ t.cfg = s.cfg ∧ t.haltCause = s.haltCause ∧ t.lineReq = s.lineReq := by
  rcases exec_cases h with rfl | ⟨e, rfl⟩ | ⟨k, w, hd, rfl, -⟩ | ⟨k, o2, b, rfl, hb, rfl⟩ | ⟨k, o2, rfl, rfl⟩ | ⟨k, o2, rfl, rfl⟩
  · exact ⟨rfl, rfl, rfl, rfl, rfl⟩
  · exact ⟨rfl, rfl, rfl, rfl, rfl⟩
  · exact ⟨rfl, rfl, rfl, rfl, rfl⟩
  · exact ⟨rfl, rfl, rfl, rfl, rfl⟩
  · simp only [requestInput]; split
    · exact ⟨rfl, rfl, rfl, rfl, rfl⟩
    · rename_i r rest hi
      obtain ⟨f1, f2, ⟨g1, g2, g3, g4, g5, g6, g7, g8, g9, g10⟩, f4, f5⟩ := finishInput_frame k r { s.emit .nextToken with inp := rest }
      exact ⟨g4, g3, g9, g2, g5⟩
  · exact ⟨rfl, rfl, rfl, rfl, rfl⟩

theorem finishInput_out (k r) (s : State) : ∃ m, (finishInput k r s).out = s.out ++ m := by
  rcases finishInput_cases k r s with ⟨e, h⟩ | ⟨v, h⟩ <;> rw [h]
  · exact ⟨_, rfl⟩
  · exact ⟨[], by simp⟩

theorem settle_out (s : State) : ∃ m, s.settle.out = s.out ++ m := by
  simp only [State.settle]; split
  · exact ⟨[], by simp⟩
  · exact ⟨_, rfl⟩

/-- What ending the transaction leaves alone. -/
theorem settle_frame (s : State) :
    s.settle.src = s.src ∧ s.settle.inp = s.inp ∧ s.settle.cfg = s.cfg ∧ s.settle.mem = s.mem ∧
    s.settle.flags = s.flags ∧ s.settle.haltCause = s.haltCause ∧ s.settle.runState = s.runState ∧
    s.settle.lineReq = s.lineReq ∧ s.settle.async = s.async := by
  simp only [State.settle]; split <;> exact ⟨rfl, rfl, rfl, rfl, rfl, rfl, rfl, rfl, rfl⟩

/-- An instruction appends to the output and takes at most one input token. -/
theorem exec_out {i s t} (h : exec i s = .next t) :
    (∃ m, t.out = s.out ++ m) ∧ t.src = s.src ∧ (t.inp = s.inp ∨ t.inp = s.inp.tail) ∧ t.async = s.async := by
  rcases exec_cases h with rfl | ⟨e, rfl⟩ | ⟨k, w, hd, rfl, -⟩ | ⟨k, o2, b, rfl, hb, rfl⟩ | ⟨k, o2, rfl, rfl⟩ | ⟨k, o2, rfl, rfl⟩
  · exact ⟨⟨[], by simp⟩, rfl, .inl rfl, rfl⟩
  · exact ⟨⟨_, rfl⟩, rfl, .inl rfl, rfl⟩
  · exact ⟨⟨[], by simp⟩, rfl, .inl rfl, rfl⟩
  · exact ⟨⟨[], by simp⟩, rfl, .inl rfl, rfl⟩
  · simp only [requestInput]; split
    · exact ⟨⟨_, rfl⟩, rfl, .inl rfl, rfl⟩
    · rename_i r rest hi
      obtain ⟨f1, f2, ⟨g1, g2, g3, g4, g5, g6, g7, g8, g9, g10⟩, f4, f5⟩ := finishInput_frame k r { s.emit .nextToken with inp := rest }
      obtain ⟨m, hm⟩ := finishInput_out k r { s.emit .nextToken with inp := rest }
      refine ⟨⟨[.nextToken] ++ m, ?_⟩, g6, .inr (by rw [f4, hi]; rfl), g8⟩
      rw [hm]; simp
  · exact ⟨⟨_, rfl⟩, rfl, .inl rfl, rfl⟩

/-- Only an INPUT without an answer waits (R183). -/
theorem exec_waits {i s t} (h : exec i s = .next t) (hs : s.runState = .running) (hw : t.runState = .waitInput) :
    t.inp = [] := by
  rcases exec_cases h with rfl | ⟨e, rfl⟩ | ⟨k, w, -, rfl, -⟩ | ⟨k, o2, b, -, -, rfl⟩ | ⟨k, o2, -, rfl⟩ | ⟨k, o2, -, rfl⟩
  case inr.inr.inr.inr.inl =>
    simp only [requestInput] at hw ⊢
    split at hw
    · rename_i hi; simp [hi]
    · rename_i r rest hi
      have := (finishInput_frame k r { s.emit .nextToken with inp := rest }).2.2.2.2
      rw [this] at hw; simp [hs] at hw
  all_goals simp [hs] at hw

/-- An instruction is no reset. -/
theorem exec_resets {i s t} (h : exec i s = .next t) : t.resets = s.resets := by
  rcases exec_cases h with rfl | ⟨e, rfl⟩ | ⟨k, w, -, rfl, -⟩ | ⟨k, o2, b, -, -, rfl⟩ | ⟨k, o2, -, rfl⟩ | ⟨k, o2, -, rfl⟩ <;> try rfl
  simp only [requestInput]; split
  · rfl
  · rename_i r rest hi
    exact (finishInput_frame k r { s.emit .nextToken with inp := rest }).2.2.1.2.2.2.2.2.2.2.2.2

/-- An action of the core appends to the output and takes at most one answer from each port. -/
theorem coreStep_out {s t} (h : coreStep s = .next t) :
    (∃ m, t.out = s.out ++ m) ∧ (t.src = s.src ∨ t.src = s.src.tail) ∧
    (t.inp = s.inp ∨ t.inp = s.inp.tail) ∧ t.cfg = s.cfg ∧ t.async = s.async := by
  rcases coreStep_next h with ⟨h1, h2⟩ | ⟨h1, h2, rfl⟩ | ⟨h1, h2, rfl⟩ | ⟨h1, h2, h3⟩
  · obtain ⟨k, hk, ⟨hi, rfl⟩ | ⟨r, rest, hi, rfl⟩⟩ := resumeInput_next h2
    · exact ⟨⟨[], by simp⟩, .inl rfl, .inl rfl, rfl, rfl⟩
    · obtain ⟨f1, f2, ⟨g1, g2, g3, g4, g5, g6, g7, g8, g9, g10⟩, f4, f5⟩ := finishInput_frame k r { s with runState := .running, inp := rest }
      obtain ⟨m, hm⟩ := finishInput_out k r { s with runState := .running, inp := rest }
      obtain ⟨m', hm'⟩ := settle_out (finishInput k r { s with runState := .running, inp := rest })
      obtain ⟨a, b, c, _, _, _, _, _, d⟩ := settle_frame (finishInput k r { s with runState := .running, inp := rest })
      refine ⟨⟨m ++ m', by rw [hm', hm]; simp⟩, .inl (by rw [a, g6]), .inr (by rw [b, f4, hi]; rfl), by rw [c, g9], by rw [d, g8]⟩
  · exact ⟨⟨[], by simp⟩, .inl rfl, .inl rfl, rfl, rfl⟩
  · exact ⟨⟨_, rfl⟩, .inl rfl, .inl rfl, rfl, rfl⟩
  · rcases lineCycle_next h3 with ⟨_, rfl⟩ | ⟨_, hs, rfl⟩ | ⟨_, hs, rfl⟩ | ⟨l, rest, hs, hc⟩
    · simp [State.requestLine_eq]
    · refine ⟨⟨lineRequest s ++ [.dump (dumpRecord s)], ?_⟩, .inr ?_, .inl ?_, ?_, ?_⟩ <;>
        simp [State.requestLine_eq, State.answered, State.endRun, lineRequest, dumpRecord, hs]
    · refine ⟨⟨lineRequest s ++ [.trace (fatalLine .sourceMissing s.pc), .dump (dumpRecord s)], ?_⟩, .inr ?_, .inl ?_, ?_, ?_⟩ <;>
        simp [State.requestLine_eq, State.answered, State.raiseFatal, lineRequest, dumpRecord, hs]
    · have hA : s.answered rest = { s with src := rest, lineReq := false, out := s.out ++ lineRequest s } := by
        simp only [State.answered, State.requestLine_eq, lineRequest]
      rw [hA] at hc
      rcases consumeLine_next hc with ⟨-, rfl⟩ | ⟨c, -, rfl⟩ | ⟨d, i, s', -, -, hx, rfl⟩
      · exact ⟨⟨_, rfl⟩, .inr (by simp [hs]), .inl rfl, rfl, rfl⟩
      · refine ⟨⟨lineRequest s ++ [.trace (fatalLine c (s.pc + 1)), .dump (dumpRecord { s with pc := s.pc + 1 })], ?_⟩, .inr ?_, .inl ?_, ?_, ?_⟩
        rotate_left
        · simp [State.raiseFatal, hs]
        · simp [State.raiseFatal]
        · simp [State.raiseFatal]
        · simp [State.raiseFatal]
        · simp only [State.raiseFatal, State.emitLine, State.emitDump, State.emit, List.append_assoc, List.cons_append, List.nil_append, dumpRecord]
      · obtain ⟨a, b, c, _, _, _, _, _, dd⟩ := settle_frame s'
        obtain ⟨m', hm'⟩ := settle_out s'
        obtain ⟨⟨m, hm⟩, o2, o3, o4⟩ := exec_out hx
        refine ⟨⟨lineRequest s ++ [.trace (headerLine (s.pc + 1) i.opcode d)] ++ m ++ m', ?_⟩, .inr ?_, ?_, ?_, ?_⟩
        rotate_left
        · rw [a, o2]; simp [State.beginInstr, hs]
        · rw [b]; exact o3
        · rw [c, (exec_keeps_transient hx).2.2.1]; rfl
        · rw [dd, o4]; rfl
        · rw [hm', hm]; simp only [State.beginInstr, State.emitLine, State.emit, List.append_assoc]

/-- An action of the core is no reset. -/
theorem coreStep_resets {s t} (h : coreStep s = .next t) : t.resets = s.resets := by
  have hset : ∀ u : State, u.settle.resets = u.resets := fun u => by simp only [State.settle]; split <;> rfl
  rcases coreStep_next h with ⟨h1, h2⟩ | ⟨h1, h2, rfl⟩ | ⟨h1, h2, rfl⟩ | ⟨h1, h2, h3⟩
  · obtain ⟨k, hk, ⟨hi, rfl⟩ | ⟨r, rest, hi, rfl⟩⟩ := resumeInput_next h2
    · rfl
    · obtain ⟨-, -, ⟨-, -, -, -, -, -, -, -, -, g10⟩, -⟩ := finishInput_frame k r { s with runState := .running, inp := rest }
      rw [hset, g10]
  · rfl
  · rfl
  · rcases lineCycle_next h3 with ⟨_, rfl⟩ | ⟨_, _, rfl⟩ | ⟨_, _, rfl⟩ | ⟨l, rest, -, hc⟩
    · simp [State.requestLine_eq]
    · simp [State.answered, State.requestLine_eq]
    · simp [State.answered, State.requestLine_eq]
    · have hA : (s.answered rest).resets = s.resets := by simp [State.answered, State.requestLine_eq]
      rcases consumeLine_next hc with ⟨-, rfl⟩ | ⟨c, -, rfl⟩ | ⟨d, i, s', -, -, hx, rfl⟩
      · exact hA
      · exact hA
      · rw [hset, exec_resets hx]; exact hA

/-- While a request is outstanding, no answer to it has been taken (R101): with `NEXT_LINE` outstanding after an action the
loader's list is as it was, and in WAIT_INPUT after an action the provider's list is empty. -/
theorem coreStep_outstanding {s t} (h : coreStep s = .next t) :
    (t.lineReq = true → t.src = s.src) ∧ (t.runState = .waitInput → t.inp = []) := by
  rcases coreStep_next h with ⟨h1, h2⟩ | ⟨h1, h2, rfl⟩ | ⟨h1, h2, rfl⟩ | ⟨h1, h2, h3⟩
  · obtain ⟨k, hk, ⟨hi, rfl⟩ | ⟨r, rest, hi, rfl⟩⟩ := resumeInput_next h2
    · exact ⟨fun _ => rfl, fun _ => hi⟩
    · obtain ⟨-, -, ⟨-, -, -, -, -, g6, -⟩, -, f5⟩ := finishInput_frame k r { s with runState := .running, inp := rest }
      obtain ⟨a, -, -, -, -, -, b, -⟩ := settle_frame (finishInput k r { s with runState := .running, inp := rest })
      exact ⟨fun _ => by rw [a, g6], fun hw => by rw [b, f5] at hw; cases hw⟩
  · exact ⟨fun _ => rfl, fun hw => by rw [h1] at hw; cases hw⟩
  · exact ⟨fun _ => rfl, fun hw => absurd hw h1⟩
  · rcases lineCycle_next h3 with ⟨hs, rfl⟩ | ⟨_, _, rfl⟩ | ⟨_, _, rfl⟩ | ⟨l, rest, -, hc⟩
    · simp [State.requestLine_eq, h1]
    · simp [State.answered]
    · simp [State.answered]
    · rcases consumeLine_next hc with ⟨-, rfl⟩ | ⟨c, -, rfl⟩ | ⟨d, i, s', -, -, hx, rfl⟩
      · simp [State.answered, State.requestLine_eq, h1]
      · simp [State.answered]
      · obtain ⟨-, a, -, -, -, -, b, c, -⟩ := settle_frame s'
        obtain ⟨-, -, -, -, e5⟩ := exec_keeps_transient hx
        refine ⟨fun hl => ?_, fun hw => ?_⟩
        · rw [c, e5] at hl; simp [State.answered] at hl
        · rw [a]; rw [b] at hw
          exact exec_waits hx (by simp [State.answered, State.requestLine_eq, h1]) hw

/-- R114. -/
theorem exec_pc {i s t} (h : exec i s = .next t) : t.pc = s.pc := by
  rcases exec_cases h with rfl | ⟨e, rfl⟩ | ⟨k, w, hd, rfl, -⟩ | ⟨k, o2, b, rfl, hb, rfl⟩ | ⟨k, o2, rfl, rfl⟩ | ⟨k, o2, rfl, rfl⟩ <;> try rfl
  simp only [requestInput]; split
  · rfl
  · rename_i r rest hi
    obtain ⟨f1, f2, ⟨g1, g2, g3, g4, g5, g6, g7, g8, g9, g10⟩, f4, f5⟩ := finishInput_frame k r { s.emit .nextToken with inp := rest }
    exact g1

theorem settle_pc (s : State) : s.settle.pc = s.pc := by simp only [State.settle]; split <;> rfl

/-- What one step of a halted core can do when no reset lands (R115, R116): nothing but use up the landing, hold a dump
request, or serve one. -/
theorem step_of_halted {s : State} (hi : StateInv s = true) (hh : s.runState = .halted)
    (ha : ∀ e ∈ s.async, e ≠ .rst ∧ ∀ m, e ≠ .rstDuring m) :
    (∃ rest, s.async = .dumpReq :: rest ∧ step s = .next { s with async := rest, dumpPending := s.dumpPending + 1 }) ∨
    ((∀ rest, s.async ≠ .dumpReq :: rest) ∧ step s = .next (afterQuiet s)) ∨
    ((∀ rest, s.async ≠ .dumpReq :: rest) ∧ 0 < s.dumpPending ∧ step s = .next { s with
      async := s.async.tail, dumpPending := s.dumpPending - 1, out := s.out ++ [.dump (dumpRecord s)] }) := by
  have hl : s.lineReq = false := by
    rcases ((inv_iff s).mp hi).2.2.2.2.2.2.2 with h | h
    · rw [hh] at h; cases h
    · exact h
  have hq : CoreActs s → (∀ rest, s.async ≠ .dumpReq :: rest) →
      ((∀ rest, s.async ≠ .dumpReq :: rest) ∧ step s = .next (afterQuiet s)) ∨
      ((∀ rest, s.async ≠ .dumpReq :: rest) ∧ 0 < s.dumpPending ∧ step s = .next { s with
        async := s.async.tail, dumpPending := s.dumpPending - 1, out := s.out ++ [.dump (dumpRecord s)] }) := by
    intro hc hn
    rw [step_of_coreActs s hc]
    by_cases h0 : s.dumpPending = 0
    · exact .inl ⟨hn, by simp only [coreStep, afterQuiet, hh, h0, if_true]⟩
    · refine .inr ⟨hn, by omega, ?_⟩
      simp only [coreStep, afterQuiet, hh, h0, if_false, State.serveDump, State.emitDump, State.emit]; rfl
  cases hs : s.async with
  | nil => exact hs ▸ .inr (hq (.inl hs) (by simp [hs]))
  | cons e rest =>
    cases e with
    | quiet => exact hs ▸ .inr (hq (.inr ⟨_, hs⟩) (by simp [hs]))
    | dumpReq => exact .inl ⟨rest, rfl, by simp only [step, runStep, hs]⟩
    | rst => exact absurd rfl (ha .rst (by simp [hs])).1
    | rstDuring m => exact absurd rfl ((ha (.rstDuring m) (by simp [hs])).2 m)
    | lineAnswer m a =>
      refine .inr (.inl ⟨by simp, ?_⟩)
      simp only [step, runStep, hs, afterQuiet]
      exact congrArg _ (State.landLine_lost { s with async := rest } a (.inr hl))
    | tokenAnswer m r =>
      refine .inr (.inl ⟨by simp, ?_⟩)
      simp only [step, runStep, hs, afterQuiet]
      exact congrArg _ (State.landToken_lost { s with async := rest } r (.inr (by simp [hh])))

/-- A run of one more step. -/
theorem run_succ (M : Host.Core) (n : Nat) (s t : M.State) (h : M.step s = .next t) : M.run (n+1) s = M.run n t := by
  simp only [Host.Core.run, h]

end Sys2Proof.Machine
end

