-- ==== Sys2Proof/Tests/Slice0.lean ====
section
/-! SUPPORT. The WellFormed smoke test, decodings written out from the spec's encoding, one-step tests whose results come
from spec/95_test_vectors.md (its vector is named), and a witness for every statement that has hypotheses. -/

namespace Sys2Proof.Tests

open Sys2Proof Sys2Proof.Machine

/-! ## WellFormed smoke: each check refuses an ill-formed term -/

theorem test_wf_accepts_range_ends : (Instr.add (.imm 32767) (.imm (-32768))).wf = true := by decide
theorem test_wf_refuses_imm_too_big : (Instr.add (.imm 32768) (.reg 0)).wf = false := by decide
theorem test_wf_refuses_imm_too_small_operand2 : (Instr.add (.reg 0) (.imm (-32769))).wf = false := by decide
theorem test_decoded_wf_accepts : (Decoded.mk 0 3 (ascii "R0") (ascii "[R1]")).wf = true := by decide
theorem test_decoded_wf_refuses_ntok_0 : (Decoded.mk 0 0 [] []).wf = false := by decide
theorem test_decoded_wf_refuses_ntok_4 : (Decoded.mk 0 4 [] []).wf = false := by decide
theorem test_decoded_wf_refuses_text1_of_no_token : (Decoded.mk 0 1 (ascii "R0") []).wf = false := by decide
theorem test_decoded_wf_refuses_text2_of_no_token : (Decoded.mk 0 2 (ascii "R0") (ascii "R1")).wf = false := by decide
theorem test_decoded_wf_refuses_lower_case_text1 : (Decoded.mk 0 3 (ascii "r0") []).wf = false := by decide
theorem test_decoded_wf_refuses_space_in_text2 : (Decoded.mk 0 3 [] (ascii "R 0")).wf = false := by decide

/-! ## Decoding: one word of every instruction, its fields written out as `p2 k2 p1 k1 opc` from R68, R71, R72 and R76 -/

theorem test_decode_add : decodeDiw 0b0000000000000001_0001_0000000000000000_0001_0000#44 = some (.add (.reg 0) (.reg 1)) := by decide
theorem test_decode_sub : decodeDiw 0b0000000000000111_0001_1111111111111111_0010_0001#44 = some (.sub (.imm (-1)) (.reg 7)) := by decide
theorem test_decode_mul : decodeDiw 0b0000000000000010_0001_0000000000000010_0001_0010#44 = some (.mul (.reg 2) (.reg 2)) := by decide
theorem test_decode_div : decodeDiw 0b0000000000000001_0001_0000000000111111_0100_0011#44 = some (.div (.memDir 63) (.reg 1)) := by decide
theorem test_decode_inc : decodeDiw 0b0000000000000000_0000_0000000000000000_0111_0100#44 = some (.inc .badReg .absent) := by decide
theorem test_decode_dec : decodeDiw 0b0000000000000000_0000_0000000000000111_0001_0101#44 = some (.dec (.reg 7) .absent) := by decide
theorem test_decode_mov : decodeDiw 0b0000000000000000_0001_1000000000000000_0010_0110#44 = some (.mov (.imm (-32768)) (.reg 0)) := by decide
theorem test_decode_load : decodeDiw 0b0000000000000011_0001_0000000000001010_0100_0111#44 = some (.load (.memDir 10) (.reg 3)) := by decide
theorem test_decode_store : decodeDiw 0b0000000000000001_0110_0000000000000010_0001_1000#44 = some (.store (.reg 2) (.memInd 1)) := by decide
theorem test_decode_rol : decodeDiw 0b1111111111111111_0010_0000000000000000_0001_1001#44 = some (.rol (.reg 0) (.imm (-1))) := by decide
theorem test_decode_ror : decodeDiw 0b0000000000000000_0011_0000000000000000_0001_1010#44 = some (.ror (.reg 0) .numBig) := by decide
theorem test_decode_shl : decodeDiw 0b0000000000000000_0101_0000000000000000_0001_1011#44 = some (.shl (.reg 0) .memDirOor) := by decide
theorem test_decode_shr : decodeDiw 0b0000000000000000_1000_0000000000000000_0001_1100#44 = some (.shr (.reg 0) .badRegInd) := by decide
theorem test_decode_input : decodeDiw 0b0000000000000000_0000_0000000000000100_0001_1101#44 = some (.input (.reg 4) .absent) := by decide
theorem test_decode_display : decodeDiw 0b0000000000000000_1001_0000000000000001_0001_1110#44 = some (.display (.reg 1) .badTok) := by decide

/-- R77: opcode 15, kind 10, a register payload bit, an address payload bit and a stray payload are each refused. -/
theorem test_decode_refuses_reserved :
    decodeDiw 0b0000000000000000_0000_0000000000000000_0000_1111#44 = none ∧
    decodeDiw 0b0000000000000000_0000_0000000000000000_1010_0000#44 = none ∧
    decodeDiw 0b0000000000000000_0000_0000000000001000_0001_0000#44 = none ∧
    decodeDiw 0b0000000001000000_0100_0000000000000000_0000_0000#44 = none ∧
    decodeDiw 0b1000000000000000_0000_0000000000000000_0000_0000#44 = none := by decide

/-- DEC13, DEC27, DEC31. -/
theorem test_decode_line_separators_and_sanitising :
    decodeLine none (ascii "add,r0,,r1") = .instr ⟨0x00011000010#44, 3, ascii "R0", ascii "R1"⟩ ∧
    decodeLine none [0x41, 0x44, 0x44, 0x20, 0x01, 0x2c, 0x20, 0x52, 0x31] = .instr ⟨0x00011000000#44, 3, [], ascii "R1"⟩ ∧
    decodeLine none (ascii "ROL R0, -1") = .instr ⟨0xFFFF2000019#44, 3, ascii "R0", ascii "-1"⟩ := by decide

/-- DEC11, DEC10, DEC6: the token count comes before the opcode. -/
theorem test_decode_line_failures :
    decodeLine none (ascii "FOO a b c") = .fatal .tooManyTokens ∧
    decodeLine none (ascii "FOO R1") = .fatal .unknownOpcode ∧
    decodeLine none (ascii "; only a comment") = .noInstr := by decide

/-- The host's numbering: bit 0 of the DIW is bit 0 of the word (R6, R71). -/
theorem test_decode_table_word :
    decodeTableWord 8 0x07 = some (.load .absent .absent) ∧ decodeTableWord 8 0x0F = none ∧
    decodeTableWord 44 0x00031000A47 = some (.load (.memDir 10) (.reg 3)) := by decide

/-! ## One step of each instruction -/

/-- Registers R0 and R1 as given, the others 0. -/
def regs (r0 r1 : Byte) : Vector Byte 8 := (State.reset.x.set 0 r0).set 1 r1

/-- A machine about to run one line. -/
def lineOn (r0 r1 : Byte) (m : Memory) (l : String) : State :=
  { State.reset with x := regs r0 r1, mem := m, src := [.line (ascii l)] }

/-- What a step shows: registers R0 and R1, memory, the flags, and the trace line after the header. -/
structure Seen where
  r0   : Byte
  r1   : Byte
  mem  : Memory
  f    : Flags
  body : Text
deriving DecidableEq, Repr

/-- One step's visible result. -/
def seen (s : State) : Option Seen := match step s with
  | .next t => some ⟨t.reg 0, t.reg 1, t.mem, t.flags, (t.trace.drop 1).headD []⟩
  | _ => none

/-- Flags from their four bits in the order C, O, U, Z. -/
def fl (c o u z : Nat) : Flags := ⟨c == 1, o == 1, u == 1, z == 1⟩

/-- ARI2. -/
theorem test_add_overflow : seen (lineOn 127 0 [] "ADD 5, R0") =
    some ⟨0x84, 0, [], fl 1 1 0 0, ascii "84 00 00 00 00 00 00 00 #"⟩ := by decide
/-- ARI8. -/
theorem test_add_bad_register : seen (lineOn 1 0 [] "ADD R0, R9") =
    some ⟨1, 0, [], fl 0 0 0 0, ascii "ERROR E_INVALID_REGISTER: ADD R9"⟩ := by decide
/-- ARI11: destination minus source. -/
theorem test_sub_underflow : seen (lineOn 0x80 0 [] "SUB 1, R0") =
    some ⟨0x7F, 0, [], fl 1 0 1 0, ascii "7F 00 00 00 00 00 00 00 #"⟩ := by decide
/-- ARI14: the register is 0 and Z is 0. -/
theorem test_mul_wraps_to_zero : seen (lineOn 16 16 [] "MUL R1, R0") =
    some ⟨0, 16, [], fl 1 1 0 0, ascii "00 10 00 00 00 00 00 00 #"⟩ := by decide
/-- ARI19: toward zero. -/
theorem test_div_truncates : seen (lineOn 0 2 [] "DIV -7, R1") =
    some ⟨0, 0xFD, [], fl 0 0 0 0, ascii "00 FD 00 00 00 00 00 00 #"⟩ := by decide
/-- ARI20: the destination's zero check (C1). -/
theorem test_div_zero_destination : seen (lineOn 5 0 [] "DIV R0, R1") =
    some ⟨5, 0, [], fl 0 0 0 0, ascii "ERROR E_DIVIDE_BY_ZERO: DIV R1"⟩ := by decide
/-- ARI28. -/
theorem test_inc_overflow : seen (lineOn 127 0 [] "INC R0") =
    some ⟨0x80, 0, [], fl 1 1 0 0, ascii "80 00 00 00 00 00 00 00 #"⟩ := by decide
/-- ARI33. -/
theorem test_dec_underflow : seen (lineOn 0x80 0 [] "DEC R0") =
    some ⟨0x7F, 0, [], fl 1 0 1 0, ascii "7F 00 00 00 00 00 00 00 #"⟩ := by decide
/-- TRF3. -/
theorem test_mov_truncates : seen (lineOn 0 0 [] "MOV -129, R0") =
    some ⟨0x7F, 0, [], fl 1 0 1 0, ascii "7F 00 00 00 00 00 00 00 #"⟩ := by decide
/-- RES5: the pointer is read unsigned. -/
theorem test_mov_pointer_out_of_range : seen (lineOn 0 0xFF [] "MOV [R1], R0") =
    some ⟨0, 0xFF, [], fl 0 0 0 0, ascii "ERROR E_INVALID_ADDRESS: MOV [R1]"⟩ := by decide
/-- TRF10, with R1 for R3: the pointer is also the destination. -/
theorem test_load_through_destination : seen (lineOn 0 12 [(12, 7)] "LOAD [R1], R1") =
    some ⟨0, 7, [(12, 7)], fl 0 0 0 0, ascii "00 07 00 00 00 00 00 00 #"⟩ := by decide
/-- TRF16. -/
theorem test_store_through_source : seen (lineOn 5 0 [] "STORE R0, [R0]") =
    some ⟨5, 0, [(5, 5)], fl 0 0 0 0, ascii "05 00 00 00 00 00 00 00 #"⟩ := by decide
/-- TRF21, with R0 for R2. -/
theorem test_store_needs_address : seen (lineOn 0 1 [] "STORE R1, R0") =
    some ⟨0, 1, [], fl 0 0 0 0, ascii "ERROR E_ADDRESS_REQUIRED: STORE R0"⟩ := by decide
/-- ROT6: the count is Euclidean. -/
theorem test_rol_negative_count : seen (lineOn 1 0 [] "ROL R0, -1") =
    some ⟨0x80, 0, [], fl 1 1 0 0, ascii "80 00 00 00 00 00 00 00 #"⟩ := by decide
/-- ROT8. -/
theorem test_ror_count_in_memory : seen (lineOn 2 0 [(2, 9)] "ROR R0, [2]") =
    some ⟨1, 0, [(2, 9)], fl 0 0 0 0, ascii "01 00 00 00 00 00 00 00 #"⟩ := by decide
/-- ROT11. -/
theorem test_shl_to_zero : seen (lineOn 0x80 0 [] "SHL R0, 1") =
    some ⟨0, 0, [], fl 0 0 0 1, ascii "00 00 00 00 00 00 00 00 #"⟩ := by decide
/-- ROT12: no sign fill. -/
theorem test_shr_is_logical : seen (lineOn 0xFF 0 [] "SHR R0, 1") =
    some ⟨0x7F, 0, [], fl 0 0 0 0, ascii "7F 00 00 00 00 00 00 00 #"⟩ := by decide
/-- IO2, with R1 for R4. -/
theorem test_input_truncates : seen { lineOn 0 0 [] "INPUT R1" with inp := [.token (ascii "300")] } =
    some ⟨0, 44, [], fl 1 1 0 0, ascii "00 2C 00 00 00 00 00 00 #"⟩ := by decide
/-- IO7, with R1 for R4. -/
theorem test_input_at_end : seen { lineOn 0 3 [] "INPUT R1" with inp := [.eof] } =
    some ⟨0, 3, [], fl 0 0 0 0, ascii "ERROR E_INPUT_INVALID: INPUT <EOF>"⟩ := by decide
/-- IO12. -/
theorem test_display_negative : seen (lineOn 0x80 0 [] "DISPLAY R0") =
    some ⟨0x80, 0, [], fl 0 0 0 0, ascii "-128"⟩ := by decide
/-- The state after one step. -/
def nextOf (s : State) : Option State := match step s with
  | .next t => some t
  | _ => none

/-- SYS5: the counter wraps, and the header prints it. -/
theorem test_pc_wraps : (nextOf { lineOn 0 0 [] "INC R0" with pc := 0xFFFFFFFF }).map (fun t => (t.pc, t.trace.headD [])) =
    some (0, ascii "Step 0: INC R0") := by decide
/-- SYS1. -/
theorem test_missing_source : (nextOf { State.reset with src := [.missing] }).map
    (fun t => (t.trace, t.haltCausePort, t.runStatePort, t.pc)) = some ([ascii "FATAL: SOURCE_MISSING"], 2, 2, 0) := by decide
/-- TRC1, line 6: an ignored operand is printed, an empty one prints nothing. -/
theorem test_header_prints_operands :
    (nextOf (lineOn 0 0 [] "DISPLAY R1 , extra")).map (fun t => t.trace.headD []) = some (ascii "Step 1: DISPLAY R1, EXTRA") ∧
    (nextOf { State.reset with src := [.line [0x41, 0x44, 0x44, 0x20, 0x01, 0x2c, 0x20, 0x52, 0x31]] }).map
      (fun t => t.trace.take 2) = some [ascii "Step 1: ADD , R1", ascii "ERROR E_MISSING_OPERAND: ADD <none>"] := by decide
/-- TRC3, line 3: the memory diff. -/
theorem test_memory_diff : (nextOf (lineOn 0 0xFF [] "STORE R1, 63")).map (fun t => t.trace.drop 2) =
    some [ascii "63 = FF"] := by decide
/-- R197, the dump of program P4 at its halt: its first row, flags, counter and last row. -/
theorem test_dump_record :
    let d := dumpRecord { State.reset with x := regs 0xC8 0, mem := [(63, 0xC8)], flags := fl 1 1 0 0, pc := 5 }
    d.take 6 = [ascii "C8 00 00 00 00 00 00 00 #", ascii "1 1 0 0", ascii "5", [], ascii "Memory",
      ascii "00 00 00 00 00 00 00 00"] ∧
    d.drop 12 = [ascii "00 00 00 00 00 00 00 C8", ascii "#"] := by decide

/-- `withFetchWord` places the word where the next step takes it: `LOAD [10], R3` of the §8 scenario, on a cell of -5. -/
theorem test_with_fetch_word :
    (nextOf (State.withFetchWord { State.reset with mem := [(10, 0xFB)] } 44 0x00031000A47)).map (fun t => (t.regVal 3, t.pc)) =
    some (-5, 1) := by decide
/-- On a row's bare opcode word it runs the instruction with both operands absent, as the first instruction after reset. -/
theorem test_with_fetch_word_bare :
    (nextOf (State.reset.withFetchWord 8 0x07)).map (fun t => t.trace.take 2) =
    some [ascii "Step 1: LOAD", ascii "ERROR E_MISSING_OPERAND: LOAD <none>"] := by decide

/-! ## Witnesses: concrete states and operands that meet the hypotheses of each statement, clause by clause -/

/-- R0 = 10, R1 = 20, R2 = 0, R3 = 63, R4 = 64, R5 = -1, R6 = -128, R7 = 127; two cells; operand texts `A` and `B`. -/
def sample : State :=
  { State.reset with
    x := ((((((regs 10 20).set 3 63).set 4 64).set 5 0xFF).set 6 0x80).set 7 0x7F)
    mem := [(5, 0x80), (63, 0x2A)], flags := fl 1 1 0 0
    decoded := some ⟨0x00031000A47#44, 3, ascii "A", ascii "B"⟩ }

theorem witness_DecodeOfEncodeIsTheInstruction :
    (Instr.add (.imm (-32768)) (.imm 32767)).wf = true ∧ (Instr.load (.memDir 63) (.reg 7)).wf = true ∧
    (Instr.display .badTok (.memInd 7)).wf = true := by decide
theorem witness_EncodeOfDecodeIsTheWord :
    decodeDiw 0x7FFF2800020#44 = some (.add (.imm (-32768)) (.imm 32767)) ∧
    decodeDiw 0x00071003F47#44 = some (.load (.memDir 63) (.reg 7)) := by decide
/-- Each kind of reserved field at its first value, and a line that decodes to an instruction. -/
theorem witness_ReservedDiwIsRefusedAndNeverProduced :
    ReservedDiw 0x0000000000F#44 ∧ ReservedDiw 0x000000000A0#44 ∧ ReservedDiw 0x00000000810#44 ∧
    ReservedDiw 0x00000004040#44 ∧ ReservedDiw 0x00000000890#44 ∧ ReservedDiw 0x00000000100#44 ∧
    ReservedDiw 0x0000A000000#44 ∧
    decodeLine none (ascii "INC") = .instr ⟨0x00000000004#44, 1, [], []⟩ := by
  unfold ReservedDiw ReservedOperand
  refine ⟨?_, ?_, ?_, ?_, ?_, ?_, ?_, ?_⟩ <;> decide
theorem witness_AssembledLineDecodesToItsInstruction :
    (Instr.sub (.imm (-32768)) (.reg 7)).wf = true ∧ (Instr.inc .absent .absent).wf = true ∧
    (Instr.mov .absent (.memDir 63)).wf = true := by decide
/-- A line of 10 bytes against the limits 9 and 10; four tokens; an unknown opcode with two operands; a known one with two. -/
theorem witness_DecoderChecksLengthThenCountThenOpcode :
    9 < (ascii "DISPLAY R0").length ∧ (ascii "DISPLAY R0").length ≤ 10 ∧
    3 < (tokens (normalise (ascii "ADD a b c"))).length ∧
    (tokens (normalise (ascii "FOO a b")) = ascii "FOO" :: [ascii "A", ascii "B"] ∧ ∀ op : Opcode, op.text ≠ ascii "FOO") ∧
    tokens (normalise (ascii "add a b")) = Opcode.text .add :: [ascii "A", ascii "B"] :=
  ⟨by decide, by decide, by decide, ⟨by decide, fun op => by cases op <;> decide⟩, by decide⟩
theorem witness_DecodingIgnoresCommentCaseCommaAndOuterSpace :
    ∀ c ∈ ([0x20#8, 0x0D#8] : Text) ++ [0x09#8], c ∈ ([0x20#8, 0x09#8, 0x0A#8, 0x0B#8, 0x0C#8, 0x0D#8] : Text) := by decide
/-- The address 63 with a leading zero, 64, `R07`, and `R8`. -/
theorem witness_OperandTextsClassifyByValue :
    classify (ascii "[063]") = .memDir 63 ∧ 63 < 64 ∧ classify (ascii "[64]") = .memDirOor ∧
    classify (ascii "R07") = .badReg ∧ 7 < 8 ∧ classify (ascii "[R8]") = .badRegInd ∧
    classify (ascii "-32768") = .imm (-32768) ∧ classify (ascii "32768") = .numBig := by decide
/-- R72, R73: signed numbers in brackets, and R72's examples of BADTOK with a bare sign. -/
theorem test_classify_brackets_and_bad_tokens :
    [ascii "[-1]", ascii "[+5]", ascii "[-0]", ascii "[+64]"].map classify = [.memDirOor, .memDir 5, .memDir 0, .memDirOor] ∧
    [ascii "X", ascii "[X]", ascii "[]", ascii "[5", ascii "R", ascii "0X10", ascii "[[5]]", ascii "-", ascii "5]"].map classify =
      List.replicate 9 .badTok := by decide
theorem witness_RegisterReadsBackTruncated : (1 : RegIdx) ≠ 0 ∧ (sample.writeBack 0 300).regVal 0 = 44 := by decide
theorem witness_RegisterOperandTable :
    Operand.imm 0 ≠ .absent ∧ Operand.imm 0 ≠ .badReg ∧ ∀ k : RegIdx, Operand.imm 0 ≠ .reg k := by decide
theorem witness_ValueOperandTable : (sample.x.get 3).toNat ≤ 63 ∧ 63 < (sample.x.get 4).toNat := by decide
theorem witness_AddressOperandTable :
    (sample.x.get 3).toNat = (63 : Addr).val ∧ 63 < (sample.x.get 4).toNat ∧
    (0 : Int) = ((0 : Addr).val : Int) ∧ (63 : Int) = ((63 : Addr).val : Int) ∧ ((-1 : Int) < 0 ∧ (63 : Int) < 64) := by decide
theorem witness_PairingPrefersOperandTwo :
    value sample (.memInd 3) sample.text1 = .ok 42 ∧
    value sample (.memInd 4) sample.text1 = .error ⟨.invalidAddress, ascii "A"⟩ ∧
    value sample .absent sample.text2 = .error ⟨.missingOperand, ascii "<none>"⟩ ∧
    value sample (.imm 32767) sample.text2 = .ok 32767 ∧
    (∀ j : RegIdx, Operand.imm 32767 ≠ .reg j) ∧ (∀ j : RegIdx, Operand.absent ≠ .reg j) :=
  ⟨rfl, rfl, rfl, rfl, by decide, by decide⟩
theorem witness_WideResultsNeverWrap :
    (Operand.imm (-32768)).wf = true ∧ (Operand.reg 6).wf = true ∧
    pair sample (.imm (-32768)) (.reg 6) = .ok ⟨6, ascii "B", -128, -32768, ascii "A"⟩ ∧ (-128 : Int) ≠ 0 ∧
    value sample (.imm (-32768)) [] = .ok (-32768) ∧ inputInt (ascii "-32768") = some (-32768) ∧
    (((0x80 <<< 7 ||| 0x80 >>> (8 - 7)) % 256 : Nat) : Int) = 64 :=
  ⟨rfl, rfl, rfl, by decide, rfl, by decide, by decide⟩

/-- A pairing that succeeds and one that fails: ADD, SUB and MUL. -/
theorem witness_AddWritesTheSum :
    pair sample (.reg 0) (.reg 1) = .ok ⟨1, ascii "B", 20, 10, ascii "A"⟩ ∧
    pair sample (.imm 1) (.imm 2) = .error ⟨.noRegisterOperand, ascii "A"⟩ := ⟨rfl, rfl⟩
theorem witness_SubWritesDestinationMinusSource :
    pair sample (.reg 0) (.memDir 5) = .ok ⟨0, ascii "A", 10, -128, ascii "B"⟩ ∧
    pair sample .badReg (.reg 1) = .error ⟨.invalidRegister, ascii "A"⟩ := ⟨rfl, rfl⟩
theorem witness_MulWritesTheProduct :
    pair sample (.imm 32767) (.reg 7) = .ok ⟨7, ascii "B", 127, 32767, ascii "A"⟩ ∧
    pair sample (.reg 0) .absent = .error ⟨.missingOperand, ascii "<none>"⟩ := ⟨rfl, rfl⟩
/-- A zero source, a zero destination, and a quotient, in either rounding. -/
theorem witness_DivWritesSourceOverDestination :
    pair sample (.reg 2) (.reg 1) = .ok ⟨1, ascii "B", 20, 0, ascii "A"⟩ ∧
    pair sample (.reg 0) (.reg 2) = .ok ⟨2, ascii "B", 0, 10, ascii "A"⟩ ∧
    pair sample (.imm (-7)) (.reg 0) = .ok ⟨0, ascii "B", 10, -7, ascii "A"⟩ ∧
    pair sample .numBig (.reg 0) = .error ⟨.badOperand, ascii "A"⟩ ∧
    sample.cfg.divRounding = .towardZero ∧
    pair { sample with cfg := { sample.cfg with divRounding := .floor } } (.imm (-7)) (.reg 0) =
      .ok ⟨0, ascii "B", 10, -7, ascii "A"⟩ :=
  ⟨rfl, rfl, rfl, rfl, rfl, rfl⟩
theorem witness_IncAddsOneOrIsSilent : ∀ k : RegIdx, Operand.badReg ≠ .reg k := by decide
theorem witness_DecSubtractsOneOrIsSilent : ∀ k : RegIdx, Operand.memDir 3 ≠ .reg k := by decide
theorem witness_MovCopiesTheValueOrIsSilent :
    (∀ k : RegIdx, Operand.memDir 3 ≠ .reg k) ∧ value sample (.imm (-32768)) sample.text1 = .ok (-32768) ∧
    value sample (.memInd 5) sample.text1 = .error ⟨.invalidAddress, ascii "A"⟩ := ⟨by decide, rfl, rfl⟩
theorem witness_LoadCopiesTheCell :
    reqReg .badReg sample.text2 = .error ⟨.invalidRegister, ascii "B"⟩ ∧
    (reqReg (.reg 7) sample.text2 = .ok 7 ∧ address sample (.imm 64) sample.text1 = .error ⟨.invalidAddress, ascii "A"⟩) ∧
    (reqReg (.reg 3) sample.text2 = .ok 3 ∧ address sample (.memInd 3) sample.text1 = .ok 63) := ⟨rfl, ⟨rfl, rfl⟩, rfl, rfl⟩
theorem witness_StoreWritesTheCell :
    reqReg (.imm 5) sample.text1 = .error ⟨.registerRequired, ascii "A"⟩ ∧
    (reqReg (.reg 1) sample.text1 = .ok 1 ∧ address sample (.reg 2) sample.text2 = .error ⟨.addressRequired, ascii "B"⟩) ∧
    (reqReg (.reg 0) sample.text1 = .ok 0 ∧ address sample (.imm 63) sample.text2 = .ok 63) ∧
    Memory.wf sample.mem = true ∧ (62 : Nat) ≠ (63 : Addr).val := ⟨rfl, ⟨rfl, rfl⟩, ⟨rfl, rfl⟩, by decide, by decide⟩
/-- Counts 0 and 7 at the ends of the range, from 8 and -1. -/
theorem witness_RolRotatesLeft :
    reqReg .absent sample.text1 = .error ⟨.missingOperand, ascii "<none>"⟩ ∧
    (reqReg (.reg 0) sample.text1 = .ok 0 ∧ value sample .absent sample.text2 = .error ⟨.missingOperand, ascii "<none>"⟩) ∧
    (reqReg (.reg 6) sample.text1 = .ok 6 ∧ value sample (.imm 8) sample.text2 = .ok 8 ∧ ((8 : Int) % 8).toNat = 0) ∧
    (value sample (.reg 5) sample.text2 = .ok (-1) ∧ ((-1 : Int) % 8).toNat = 7) :=
  ⟨rfl, ⟨rfl, rfl⟩, ⟨rfl, rfl, rfl⟩, rfl, rfl⟩
theorem witness_RorRotatesRight :
    reqReg .badTok sample.text1 = .error ⟨.registerRequired, ascii "A"⟩ ∧
    (reqReg (.reg 7) sample.text1 = .ok 7 ∧ value sample .numBig sample.text2 = .error ⟨.badOperand, ascii "B"⟩) ∧
    (reqReg (.reg 7) sample.text1 = .ok 7 ∧ value sample (.imm 0) sample.text2 = .ok 0) := ⟨rfl, ⟨rfl, rfl⟩, rfl, rfl⟩
theorem witness_ShlShiftsLeft :
    reqReg (.memDir 0) sample.text1 = .error ⟨.registerRequired, ascii "A"⟩ ∧
    (reqReg (.reg 0) sample.text1 = .ok 0 ∧ value sample .memDirOor sample.text2 = .error ⟨.invalidAddress, ascii "B"⟩) ∧
    (reqReg (.reg 5) sample.text1 = .ok 5 ∧ value sample (.imm 7) sample.text2 = .ok 7) := ⟨rfl, ⟨rfl, rfl⟩, rfl, rfl⟩
theorem witness_ShrShiftsRightLogically :
    reqReg .badRegInd sample.text1 = .error ⟨.registerRequired, ascii "A"⟩ ∧
    (reqReg (.reg 0) sample.text1 = .ok 0 ∧ value sample .badRegInd sample.text2 = .error ⟨.invalidRegister, ascii "B"⟩) ∧
    (reqReg (.reg 5) sample.text1 = .ok 5 ∧ value sample (.imm 1) sample.text2 = .ok 1 ∧ ((1 : Int) % 8).toNat ≠ 0) :=
  ⟨rfl, ⟨rfl, rfl⟩, rfl, rfl, by decide⟩
/-- No answer; END; the ends of the range; a token that spells no integer and one past the range. -/
theorem witness_InputReadsOneToken :
    reqReg (.imm 5) sample.text1 = .error ⟨.registerRequired, ascii "A"⟩ ∧ reqReg (.reg 4) sample.text1 = .ok 4 ∧
    sample.inp = [] ∧ State.inp { sample with inp := [.eof] } = [.eof] ∧
    numeric (ascii "-32768") = some (-32768) ∧ numeric (ascii "32767") = some 32767 ∧
    numeric (ascii "abc") = none ∧ numeric (ascii "32768") = some 32768 := by decide
theorem witness_DisplayEmitsSignedDecimal :
    reqReg .absent sample.text1 = .error ⟨.missingOperand, ascii "<none>"⟩ ∧ reqReg (.reg 6) sample.text1 = .ok 6 ∧
    decSigned (sample.regVal 6) = ascii "-128" ∧ decSigned (sample.regVal 2) = ascii "0" := ⟨rfl, rfl, by decide, by decide⟩

theorem witness_LoadAfterStoreGivesTheValue : Memory.wf sample.mem = true := by decide
theorem witness_RegisterInstructionsFrame :
    (Instr.opcode (.add (.imm 1) (.reg 0)) ≠ .store ∧ Instr.opcode (.add (.imm 1) (.reg 0)) ≠ .input ∧
      Instr.opcode (.add (.imm 1) (.reg 0)) ≠ .display) ∧
    (∃ t, exec (.add (.imm 1) (.reg 0)) sample = .next t ∧ t.regVal 0 = 11) ∧
    destReg (.add (.imm 1) (.reg 0)) ≠ some 1 ∧ destReg (.inc .badReg .absent) = none :=
  ⟨by decide, ⟨_, rfl, by decide⟩, by decide, by decide⟩
/-- A STORE that stores to cell 63, and one that stores nothing. -/
theorem witness_StoreFrame :
    (∃ t, exec (.store (.reg 0) (.memInd 3)) sample = .next t ∧ t.memRead 63 = 10) ∧
    address sample (.memInd 3) sample.text2 = .ok 63 ∧
    (∃ t, exec (.store (.imm 5) (.memDir 0)) sample = .next t ∧ t.mem = sample.mem) ∧
    (∀ k, reqReg (.imm 5) sample.text1 ≠ .ok k) := ⟨⟨_, rfl, by decide⟩, rfl, ⟨_, rfl, rfl⟩, fun _ h => nomatch h⟩
/-- An INPUT that waits, and one that is not for a register. -/
theorem witness_InputFrame :
    (∃ t, exec (.input (.reg 4) .absent) sample = .next t ∧ t.runState = .waitInput) ∧
    (∃ t, exec (.input (.imm 5) .absent) sample = .next t ∧ t.runState = .running) :=
  ⟨⟨_, rfl, rfl⟩, ⟨_, rfl, rfl⟩⟩
theorem witness_DisplayFrame : ∃ t, exec (.display (.reg 6) .absent) sample = .next t ∧ t.trace = [ascii "-128"] :=
  ⟨_, rfl, by decide⟩
theorem witness_RecoverableErrorWritesNothing :
    ∃ t, exec (.div (.reg 2) (.reg 1)) sample = .next t ∧
      Output.trace (ascii "ERROR " ++ ascii "E_DIVIDE_BY_ZERO: DIV A") ∈ t.out.drop sample.out.length := ⟨_, rfl, by decide⟩
theorem witness_OnlyStoreWritesMemory :
    ∃ t, exec (.store (.reg 0) (.memDir 63)) sample = .next t ∧ Memory.read t.mem 63 ≠ Memory.read sample.mem 63 :=
  ⟨_, rfl, by decide⟩
theorem witness_FlagsAreReplacedTogether :
    (∃ t, exec (.inc (.reg 0) .absent) sample = .next t ∧ t.flags ≠ sample.flags) ∧
    (∃ t, exec (.add (.reg 1) (.reg 7)) sample = .next t ∧ t.x ≠ sample.x) := ⟨⟨_, rfl, by decide⟩, _, rfl, by decide⟩
theorem witness_NoInstructionReadsTheFlags :
    ∃ t, exec (.rol (.reg 0) (.imm 1)) sample = .next t ∧ t.regVal 0 = 20 := ⟨_, rfl, by decide⟩
/-- No changed cell, two changed cells (the ends of memory), and one changed by an instruction. -/
theorem witness_MemoryDiffListsTheChangedCell :
    changedCells [(5, 1)] [(5, 1)] = [] ∧ changedCells [] [(0, 1), (63, 2)] = [0, 63] ∧
    ∃ t, exec (.store (.reg 0) (.memDir 0)) sample = .next t ∧ changedCells sample.mem t.mem = [0] :=
  ⟨by decide, by decide, _, rfl, by decide⟩

/-- A line whose instruction completes, and a waiting INPUT, with no line request outstanding and with one. -/
theorem witness_StepRunsTheDecodedInstruction :
    CoreActs (lineOn 10 20 [] "INPUT R1") ∧ LineDue (lineOn 10 20 [] "INPUT R1") ∧
    LineDue { lineOn 10 20 [] "ADD R0, R1" with dumpPending := 1, lineReq := true } ∧
    decodeLine none (ascii "INPUT R1") = .instr ⟨0x0000000011D#44, 2, ascii "R1", []⟩ ∧
    decodeDiw 0x0000000011D#44 = some (.input (.reg 1) .absent) ∧
    (∃ t, exec (.input (.reg 1) .absent) { lineOn 10 20 [] "INPUT R1" with
        src := [], pc := 1, decoded := some ⟨0x0000000011D#44, 2, ascii "R1", []⟩, pre := some [],
        out := [.nextLine, .trace (ascii "Step 1: INPUT R1")] } = .next t ∧ t.runState = .waitInput) ∧
    (∃ t, exec (.add (.reg 0) (.reg 1)) { lineOn 10 20 [] "ADD R0, R1" with
        src := [], pc := 1, decoded := some ⟨0x00011000010#44, 3, ascii "R0", ascii "R1"⟩, pre := some [],
        dumpPending := 1, out := [.trace (ascii "Step 1: ADD R0, R1")] } = .next t ∧ t.runState ≠ .waitInput) :=
  ⟨.inl rfl, ⟨rfl, .inl rfl⟩, ⟨rfl, .inr rfl⟩, by decide, by decide, ⟨_, rfl, rfl⟩, ⟨_, rfl, by decide⟩⟩
theorem witness_LineCycleWithoutInstruction :
    CoreActs { sample with async := [.quiet] } ∧ LineDue { sample with lineReq := true, dumpPending := 2 } ∧
    State.src { sample with src := [.eof] } = .eof :: [] ∧ decodeLine none (ascii " ;x") = .noInstr ∧ sample.src = [] ∧
    State.async { sample with lineReq := true, async := [.lineAnswer 0 .eof] } = .lineAnswer sample.resets .eof :: [] :=
  ⟨.inr ⟨_, rfl⟩, ⟨rfl, .inr rfl⟩, rfl, by decide, rfl, rfl⟩
theorem witness_FatalErrorReportsDumpsAndHalts :
    CoreActs sample ∧ LineDue sample ∧ decodeLine sample.cfg.lineMax (ascii "FOO") = .fatal .unknownOpcode ∧
    State.src { sample with src := [.missing] } = .missing :: [] := ⟨.inl rfl, ⟨rfl, .inl rfl⟩, by decide, rfl⟩

/-- A machine in WAIT_INPUT with `INPUT R4` pending. -/
def waiting : State :=
  { sample with runState := .waitInput, decoded := some ⟨0x0000000041D#44, 2, ascii "R4", []⟩, pre := some sample.mem }

/-- The end of the range on both sides, a bad token and END, as in `witness_InputReadsOneToken`. -/
theorem witness_WaitingInputCompletesOnAnswer :
    StateInv waiting = true ∧ CoreActs waiting ∧ waiting.runState = .waitInput ∧ waiting.pendingInput = some 4 ∧
    waiting.inp = [] ∧ StateInv { waiting with inp := [.token (ascii "32767")] } = true ∧
    State.async { waiting with async := [.tokenAnswer 0 .eof] } = .tokenAnswer waiting.resets .eof :: [] ∧
    numeric (ascii "32767") = some 32767 ∧ numeric (ascii "abc") = none ∧ numeric (ascii "32768") = some 32768 :=
  ⟨by decide, .inl rfl, rfl, by decide, rfl, by decide, rfl, by decide, by decide, by decide⟩

/-- A program line `INPUT R1` whose answer lands after the core has begun to wait. -/
def unanswered (r : InpAnswer) : State :=
  { lineOn 0 0 [] "INPUT R1" with async := [.quiet, .tokenAnswer 0 r, .quiet] }

/-- A token at each end of the range, a token that is no integer, one past the range, and END. -/
theorem witness_UnansweredInputWaitsIsAnsweredAndRunsOn :
    LineDue (unanswered .eof) ∧ (unanswered .eof).inp = [] ∧ (unanswered .eof).src = [.line (ascii "INPUT R1")] ∧
    decodeLine none (ascii "INPUT R1") = .instr ⟨0x0000000011D#44, 2, ascii "R1", []⟩ ∧
    decodeDiw 0x0000000011D#44 = some (.input (.reg 1) .absent) ∧
    (unanswered .eof).async = .quiet :: .tokenAnswer (unanswered .eof).resets .eof :: .quiet :: [] ∧
    numeric (ascii "-32768") = some (-32768) ∧ numeric (ascii "32767") = some 32767 ∧
    numeric (ascii "abc") = none ∧ numeric (ascii "32768") = some 32768 :=
  ⟨⟨rfl, .inl rfl⟩, rfl, rfl, by decide, by decide, rfl, by decide, by decide, by decide, by decide⟩

/-- A halted machine. -/
def halted : State := { sample with runState := .halted, haltCause := .endOfSource, decoded := none }

theorem witness_HaltedCoreStaysHalted :
    halted.runState = .halted ∧ halted.dumpPending = 0 ∧ StateInv halted = true ∧
    (∀ e ∈ [AsyncInput.quiet, .lineAnswer 0 .eof, .tokenAnswer 0 .eof],
      (e ≠ .rst ∧ ∀ m, e ≠ .rstDuring m) ∧ e ≠ .dumpReq) := by
  refine ⟨by decide, by decide, by decide, ?_⟩
  simp
theorem witness_DumpOnDemandAtABoundaryOnly :
    State.async { sample with async := [.dumpReq] } = .dumpReq :: [] ∧
    (0 < State.dumpPending { sample with dumpPending := 1 } ∧ sample.runState = .running ∧ sample.lineReq = false) ∧
    halted.runState = .halted ∧ (State.lineReq { sample with lineReq := true } = true ∧ sample.src = []) ∧
    (StateInv { waiting with dumpPending := 1 } = true ∧ waiting.inp = []) := by decide
/-- A consumed line, and a core that has no line to consume. -/
theorem witness_PcCountsConsumedLines :
    LineDue (lineOn 0 0 [] "ADD R0, R1") ∧ (∃ t, coreStep (lineOn 0 0 [] "ADD R0, R1") = .next t ∧ t.pc = 1) ∧
    (∃ t, coreStep sample = .next t ∧ t.pc = 0) ∧ (¬ ∃ l rest, sample.src = .line l :: rest) :=
  ⟨⟨rfl, .inl rfl⟩, ⟨_, rfl, rfl⟩, ⟨_, rfl, rfl⟩, fun ⟨_, _, h⟩ => nomatch h⟩
theorem witness_ResetRestoresEveryState :
    State.async { waiting with async := [.rst] } = .rst :: [] ∧ waiting.cfg.image = ResetImage.zero ∧
    (State.async { sample with async := [.lineAnswer 0 .eof] } = .lineAnswer 0 .eof :: [] ∧ sample.lineReq = false) ∧
    (State.async { sample with async := [.tokenAnswer 0 .eof] } = .tokenAnswer 0 .eof :: [] ∧
      sample.runState ≠ .waitInput) ∧
    0 < State.resets { waiting with resets := 1 } := by
  decide
/-- R231: an END to a request that a reset cancelled, landing while a later request is outstanding, is not its answer;
the same END to the later request is. -/
theorem test_late_answer_is_not_taken_for_a_later_request :
    let s := { sample with lineReq := true, resets := 1 }
    (nextOf { s with async := [.lineAnswer 0 .eof] }).map State.src = some [] ∧
    (nextOf { s with async := [.lineAnswer 1 .eof] }).map State.src = some [.eof] ∧
    (nextOf { waiting with resets := 1, async := [.tokenAnswer 0 .eof] }).map State.inp = some [] ∧
    (nextOf { waiting with resets := 1, async := [.tokenAnswer 1 .eof] }).map State.inp = some [.eof] := by decide
/-- R231: an answer that landed and was not taken when `rst` came is lost, and the next request waits for its own. -/
theorem test_reset_loses_untaken_answer :
    (nextOf { waiting with inp := [.eof], async := [.rst] }).map (fun t => (t.runState, t.inp)) = some (.running, []) ∧
    (nextOf { sample with lineReq := true, src := [.eof], async := [.rst] }).map (fun t => (t.lineReq, t.src)) =
      some (false, []) := by decide
/-- `rst` after 0, 1 and 2 outputs of a line cycle that sends five. -/
theorem witness_ResetInsideACycleAbandonsIt :
    State.async { lineOn 1 2 [] "DISPLAY R0" with async := [.rstDuring 2] } = .rstDuring 2 :: [] ∧
    ∃ u, coreStep (lineOn 1 2 [] "DISPLAY R0") = .next u ∧ u.out.length = 5 := ⟨rfl, _, rfl, by decide⟩
/-- The invariant at reset, while an INPUT waits, after a halt, and after a step of each. -/
theorem witness_EveryStepKeepsTheInvariant :
    StateInv State.reset = true ∧ StateInv waiting = true ∧ StateInv halted = true ∧
    (∃ t, step { waiting with inp := [.eof] } = .next t ∧ StateInv t = true) := ⟨by decide, by decide, by decide, _, rfl, by decide⟩
theorem witness_EveryStepProceeds : StateInv { waiting with async := [.rstDuring 1] } = true := by decide
theorem witness_OutputIsAppendOnly : ∃ t, step (lineOn 1 2 [] "DISPLAY R0") = .next t ∧ t.out.length = 5 := ⟨_, rfl, by decide⟩
theorem witness_StatusPortsFollowTheRun :
    StateInv State.reset = true ∧ StateInv waiting = true ∧ StateInv halted = true := by decide

end Sys2Proof.Tests
end

section
/-! PROOF. What every step keeps: the state invariant (O55, O56), the reset state (O52), and the status ports (O59). -/

namespace Sys2Proof.Machine

/-! ## Waiting for a token, and the two ways an INPUT goes on -/

/-- The state once `NEXT_TOKEN` has been sent and the provider's ready answer has been taken. -/
def State.tokenTaken (s : State) : State := { s.emit .nextToken with inp := s.inp.tail }

/-- The state in which INPUT waits for the answer to its `NEXT_TOKEN` (R183). -/
def State.waiting (s : State) : State := { s.emit .nextToken with runState := .waitInput }

theorem requestInput_nil (k : RegIdx) {s : State} (h : s.inp = []) : requestInput k s = s.waiting := by
  simp only [requestInput, h]
  rfl

theorem requestInput_cons (k : RegIdx) {s : State} {r : InpAnswer} {rest : List InpAnswer} (h : s.inp = r :: rest) :
    requestInput k s = finishInput k r s.tokenTaken := by
  simp only [requestInput, State.tokenTaken, h, List.tail_cons]

/-- INPUT waits when no answer is ready; otherwise it takes one and completes, or reports it invalid (R180, R183). -/
theorem requestInput_cases (k : RegIdx) (s : State) :
    (s.inp = [] ∧ requestInput k s = s.waiting) ∨
    (∃ e, requestInput k s = s.tokenTaken.recover .input e) ∨
    (∃ v, requestInput k s = s.tokenTaken.writeBack k v) := by
  cases hi : s.inp with
  | nil => exact .inl ⟨rfl, requestInput_nil k hi⟩
  | cons r rest =>
    rw [requestInput_cons k hi]
    exact .inr (finishInput_cases k r s.tokenTaken)

/-! ## The data part of the invariant -/

/-- The part of the invariant that speaks of data: canonical memory, coherent flags, and a reset image with both. -/
structure DataInv (s : State) : Prop where
  mem   : Memory.wf s.mem = true
  flags : flagsCoherent s.flags = true
  image : imageOk s.cfg.image = true

theorem dataInv_of_inv {s : State} (h : StateInv s = true) : DataInv s := by
  obtain ⟨hm, hf, hi, -⟩ := (inv_iff s).mp h
  exact ⟨hm, hf, hi⟩

/-- The data part looks at nothing but memory, flags and parameters. -/
theorem DataInv.congr {s t : State} (h : DataInv s) (hm : t.mem = s.mem) (hf : t.flags = s.flags) (hc : t.cfg = s.cfg) :
    DataInv t :=
  ⟨by rw [hm]; exact h.mem, by rw [hf]; exact h.flags, by rw [hc]; exact h.image⟩

theorem DataInv.writeBack {s : State} (h : DataInv s) (k : RegIdx) (w : Int) : DataInv (s.writeBack k w) :=
  ⟨h.mem, flagsCoherent_deriveFlags w, h.image⟩

theorem DataInv.memWrite {s : State} (h : DataInv s) (a : Addr) (b : Byte) : DataInv (s.memWrite a b) :=
  ⟨Memory.wf_write h.mem a b, h.flags, h.image⟩

theorem DataInv.finishInput {s : State} (h : DataInv s) (k : RegIdx) (r : InpAnswer) : DataInv (finishInput k r s) := by
  rcases finishInput_cases k r s with ⟨e, he⟩ | ⟨v, hv⟩
  · rw [he]; exact h.congr rfl rfl rfl
  · rw [hv]; exact h.writeBack k v

/-- Every instruction keeps the data part of the invariant (R30, R104). -/
theorem DataInv.exec {i : Instr} {s t : State} (hs : DataInv s) (h : exec i s = .next t) : DataInv t := by
  rcases exec_cases h with rfl | ⟨e, rfl⟩ | ⟨k, w, -, rfl, -⟩ | ⟨k, o2, a, -, -, rfl⟩ | ⟨k, o2, -, rfl⟩ | ⟨k, o2, -, rfl⟩
  case inr.inr.inl => exact hs.writeBack k w
  case inr.inr.inr.inl => exact hs.memWrite a _
  case inr.inr.inr.inr.inl =>
    have htaken : DataInv s.tokenTaken := hs.congr rfl rfl rfl
    rcases requestInput_cases k s with ⟨-, hr⟩ | ⟨e, hr⟩ | ⟨v, hr⟩ <;> rw [hr]
    · exact hs.congr rfl rfl rfl
    · exact htaken.congr rfl rfl rfl
    · exact htaken.writeBack k v
  all_goals exact hs.congr rfl rfl rfl

/-! ## The invariant in each run state -/

/-- Without a decoded instruction no INPUT is pending. -/
theorem pendingInput_of_decoded_none {s : State} (h : s.decoded = none) : s.pendingInput = none := by
  simp only [State.pendingInput, h]

/-- Outside WAIT_INPUT the transient items are empty (R33); what remains is the data, the halt cause (R32), and that a
halted core has no line request outstanding (R102). -/
theorem inv_of_not_waiting {s : State} (hr : s.runState ≠ .waitInput) : StateInv s = true ↔
    DataInv s ∧ s.decoded = none ∧ s.pre = none ∧ (s.haltCause = .none ↔ s.runState ≠ .halted) ∧
    (s.runState = .running ∨ s.lineReq = false) := by
  rw [inv_iff]
  constructor
  · rintro ⟨hm, hf, hi, hh, hd, hp, -, hl⟩
    have hdec : s.decoded = none := by simpa [hr] using hd
    exact ⟨⟨hm, hf, hi⟩, hdec, by simpa [hr] using hp, hh, hl⟩
  · rintro ⟨⟨hm, hf, hi⟩, hd, hp, hh, hl⟩
    have hpend := pendingInput_of_decoded_none hd
    exact ⟨hm, hf, hi, hh, by simp [hd, hr], by simp [hp, hr], by simp [hpend, hr], hl⟩

/-- In RUNNING (R32, R33). -/
theorem inv_of_running {s : State} (hr : s.runState = .running) : StateInv s = true ↔
    DataInv s ∧ s.decoded = none ∧ s.pre = none ∧ s.haltCause = .none := by
  rw [inv_of_not_waiting (by rw [hr]; decide)]
  simp [hr]

/-- In HALTED (R32, R33, R102). -/
theorem inv_of_halted {s : State} (hr : s.runState = .halted) : StateInv s = true ↔
    DataInv s ∧ s.decoded = none ∧ s.pre = none ∧ s.haltCause ≠ .none ∧ s.lineReq = false := by
  rw [inv_of_not_waiting (by rw [hr]; decide)]
  simp [hr]

/-- In WAIT_INPUT (R33, R183): the pending INPUT and the snapshot are held. -/
theorem inv_of_waiting {s : State} (hr : s.runState = .waitInput) : StateInv s = true ↔
    DataInv s ∧ s.pre = some s.mem ∧ s.pendingInput.isSome = true ∧ s.haltCause = .none ∧ s.lineReq = false := by
  have hdec : s.pendingInput.isSome = true → s.decoded.isSome = true := by
    cases hd : s.decoded with
    | none => simp [pendingInput_of_decoded_none hd]
    | some d => simp
  rw [inv_iff]
  simp only [hr, iff_true, if_true, ne_eq, reduceCtorEq, not_false_eq_true, false_or]
  constructor
  · rintro ⟨hm, hf, hi, hh, -, hp, hpend, hl⟩
    exact ⟨⟨hm, hf, hi⟩, hp, hpend, hh, hl⟩
  · rintro ⟨⟨hm, hf, hi⟩, hp, hpend, hh, hl⟩
    exact ⟨hm, hf, hi, hh, hdec hpend, hp, hpend, hl⟩

/-! ## What each action keeps -/

/-- R230: reset establishes the invariant from any state with a good reset image. -/
theorem applyReset_inv {s : State} (h : imageOk s.cfg.image = true) : StateInv s.applyReset = true := by
  obtain ⟨hm, hf⟩ := (imageOk_iff _).mp h
  exact (inv_of_running rfl).mpr ⟨⟨hm, hf, h⟩, rfl, rfl, rfl⟩

theorem serveDump_inv (s : State) : StateInv s.serveDump = StateInv s := rfl

/-- The end of a transaction in RUNNING empties the transient items (R33, R103). -/
theorem settle_inv_of_running {s : State} (hr : s.runState = .running) (hd : DataInv s) (hh : s.haltCause = .none) :
    StateInv s.settle = true := by
  have hs : s.settle = s.endInstr := by simp [State.settle, hr]
  rw [hs]
  refine (inv_of_running ?_).mpr ⟨hd.congr rfl rfl rfl, rfl, rfl, hh⟩
  exact hr

/-- The decoder's fatal causes are never NONE (R214). -/
theorem decodeLine_fatal_ne_none {lm : Option Nat} {l : Text} {c : HaltCause} (h : decodeLine lm l = .fatal c) :
    c ≠ .none := by
  rintro rfl
  unfold decodeLine at h
  split at h
  · cases h
  · split at h
    · cases h
    · split at h
      · cases h
      · split at h <;> cases h

/-- An instruction leaves RUNNING only as an INPUT that waits (R180, R183). -/
theorem exec_runState {i : Instr} {s t : State} (h : exec i s = .next t) :
    t.runState = s.runState ∨ ∃ k o2, i = .input (.reg k) o2 ∧ s.inp = [] ∧ t = s.waiting := by
  rcases exec_cases h with rfl | ⟨e, rfl⟩ | ⟨k, w, -, rfl, -⟩ | ⟨k, o2, a, -, -, rfl⟩ | ⟨k, o2, rfl, rfl⟩ | ⟨k, o2, -, rfl⟩
  case inr.inr.inr.inr.inl =>
    rcases requestInput_cases k s with ⟨hi, hr⟩ | ⟨e, hr⟩ | ⟨v, hr⟩
    · exact .inr ⟨k, o2, rfl, hi, hr⟩
    · rw [hr]; exact .inl rfl
    · rw [hr]; exact .inl rfl
  all_goals exact .inl rfl

/-- R103, R183: an instruction that starts in RUNNING with no line request outstanding ends its transaction, or waits with
its record and snapshot held; either way the invariant holds. -/
theorem transaction_inv {d : Decoded} {i : Instr} {s t : State} (hs : StateInv s = true) (hr : s.runState = .running)
    (hl : s.lineReq = false) (hi : decodeDiw d.diw = some i) (h : exec i (s.beginInstr i.opcode d) = .next t) :
    StateInv t.settle = true := by
  obtain ⟨hdata, -, -, hh⟩ := (inv_of_running hr).mp hs
  have hbegin : DataInv (s.beginInstr i.opcode d) := hdata.congr rfl rfl rfl
  rcases exec_runState h with hrun | ⟨k, o2, rfl, -, rfl⟩
  · obtain ⟨-, -, -, hcause, -⟩ := exec_keeps_transient h
    exact settle_inv_of_running (hrun.trans hr) (hbegin.exec h) (hcause.trans hh)
  · have hpend : ((s.beginInstr (Instr.input (.reg k) o2).opcode d).waiting.pendingInput).isSome = true := by
      simp [State.pendingInput, State.waiting, hi]
    exact (inv_of_waiting rfl).mpr ⟨hbegin.congr rfl rfl rfl, rfl, hpend, hh, hl⟩

/-- R102: consuming a line keeps the invariant, once its request has been answered. -/
theorem consumeLine_inv {l : Text} {s t : State} (hs : StateInv s = true) (hr : s.runState = .running)
    (hl : s.lineReq = false) (h : consumeLine l s = .next t) : StateInv t = true := by
  have hcount : StateInv { s with pc := s.pc + 1 } = true := hs
  rcases consumeLine_next h with ⟨-, rfl⟩ | ⟨c, hc, rfl⟩ | ⟨d, i, u, -, hi, hx, rfl⟩
  · exact hcount
  · obtain ⟨hdata, hd, hp, -⟩ := (inv_of_running hr).mp hs
    exact (inv_of_halted rfl).mpr ⟨hdata.congr rfl rfl rfl, hd, hp, decodeLine_fatal_ne_none hc, hl⟩
  · exact transaction_inv hcount hr hl hi hx

@[simp] theorem State.requestLine_runState (s : State) : s.requestLine.runState = s.runState := by
  simp [State.requestLine_eq]

/-- Sending `NEXT_LINE` in RUNNING keeps the invariant (R102). -/
theorem requestLine_inv {s : State} (hs : StateInv s = true) (hr : s.runState = .running) :
    StateInv s.requestLine = true := by
  rw [State.requestLine_eq]
  refine (inv_of_running ?_).mpr ?_
  · exact hr
  · obtain ⟨hdata, hd, hp, hh⟩ := (inv_of_running hr).mp hs
    exact ⟨hdata.congr rfl rfl rfl, hd, hp, hh⟩

/-- Taking the loader's answer in RUNNING keeps the invariant (R102). -/
theorem answered_inv {s : State} (hs : StateInv s = true) (hr : s.runState = .running) (rest : List SrcAnswer) :
    StateInv (s.answered rest) = true ∧ (s.answered rest).runState = .running := by
  have hrun : s.requestLine.runState = .running := by rw [State.requestLine_runState, hr]
  have hans : (s.answered rest).runState = .running := hrun
  obtain ⟨hdata, hd, hp, hh⟩ := (inv_of_running hrun).mp (requestLine_inv hs hr)
  exact ⟨(inv_of_running hans).mpr ⟨hdata.congr rfl rfl rfl, hd, hp, hh⟩, hans⟩

/-- R102: a line cycle keeps the invariant. -/
theorem lineCycle_inv {s t : State} (hs : StateInv s = true) (hr : s.runState = .running)
    (h : lineCycle s = .next t) : StateInv t = true := by
  have hans := answered_inv hs hr
  have hhalt : ∀ rest, DataInv (s.answered rest) ∧ (s.answered rest).decoded = none ∧ (s.answered rest).pre = none := by
    intro rest
    obtain ⟨hinv, hrun⟩ := hans rest
    obtain ⟨hdata, hd, hp, -⟩ := (inv_of_running hrun).mp hinv
    exact ⟨hdata, hd, hp⟩
  rcases lineCycle_next h with ⟨-, rfl⟩ | ⟨rest, -, rfl⟩ | ⟨rest, -, rfl⟩ | ⟨l, rest, -, hc⟩
  · exact requestLine_inv hs hr
  · obtain ⟨hdata, hd, hp⟩ := hhalt rest
    exact (inv_of_halted rfl).mpr ⟨hdata.congr rfl rfl rfl, hd, hp, by simp, rfl⟩
  · obtain ⟨hdata, hd, hp⟩ := hhalt rest
    exact (inv_of_halted rfl).mpr ⟨hdata.congr rfl rfl rfl, hd, hp, by simp, rfl⟩
  · obtain ⟨hinv, hrun⟩ := hans rest
    exact consumeLine_inv hinv hrun rfl hc

/-- R183: the end of a wait keeps the invariant. -/
theorem resumeInput_inv {s t : State} (hs : StateInv s = true) (hr : s.runState = .waitInput)
    (h : resumeInput s = .next t) : StateInv t = true := by
  obtain ⟨k, -, ⟨-, rfl⟩ | ⟨r, rest, -, rfl⟩⟩ := resumeInput_next h
  · exact hs
  · obtain ⟨hdata, -, -, hh, -⟩ := (inv_of_waiting hr).mp hs
    have hresumed : DataInv { s with runState := .running, inp := rest } := hdata.congr rfl rfl rfl
    obtain ⟨-, -, ⟨-, hcause, -⟩, -, hrun⟩ := finishInput_frame k r { s with runState := .running, inp := rest }
    exact settle_inv_of_running hrun (hresumed.finishInput k r) (hcause.trans hh)

/-- One action of the core keeps the invariant. -/
theorem coreStep_inv {s t : State} (hs : StateInv s = true) (h : coreStep s = .next t) : StateInv t = true := by
  rcases coreStep_next h with ⟨hr, hres⟩ | ⟨-, -, rfl⟩ | ⟨-, -, rfl⟩ | ⟨hr, -, hcyc⟩
  · exact resumeInput_inv hs hr hres
  · exact hs
  · rw [serveDump_inv]; exact hs
  · exact lineCycle_inv hs hr hcyc

/-- Settles O56, by the cases of `step_next`: the core's own action keeps the invariant (`coreStep_inv`), a reset
establishes it anew from the reset image, and no other landing touches what it speaks of. -/
theorem everyStepKeepsTheInvariant : Obligations.EveryStepKeepsTheInvariant := by
  intro s t hs h
  rcases step_next h with ⟨-, hc⟩ | ⟨rest, -, hc⟩ | ⟨rest, -, rfl⟩ | ⟨rest, -, rfl⟩ | ⟨n, rest, u, -, hc, rfl⟩ |
    ⟨n, a, rest, -, rfl⟩ | ⟨n, r, rest, -, rfl⟩
  · exact coreStep_inv hs hc
  · exact coreStep_inv (s := { s with async := rest }) hs hc
  · exact hs
  · exact applyReset_inv (dataInv_of_inv hs).image
  · have hu : StateInv u = true := coreStep_inv (s := { s with async := rest }) hs hc
    exact applyReset_inv (dataInv_of_inv hu).image
  · rw [landLine_inv]; exact hs
  · rw [landToken_inv]; exact hs

/-- Settles O55: the reset state is RUNNING, with the zero image and no transient item. -/
theorem resetStateMeetsTheInvariant : Obligations.ResetStateMeetsTheInvariant :=
  (inv_of_running rfl).mpr ⟨⟨rfl, rfl, rfl⟩, rfl, rfl, rfl⟩

/-- Settles O52, field by field of the reset state. -/
theorem resetStateIsZero : Obligations.ResetStateIsZero :=
  ⟨by decide, fun _ => rfl, rfl, rfl, rfl, rfl, rfl, rfl, rfl, rfl, rfl⟩

/-! ## The status ports (R32, R212) -/

theorem RunState.code_eq_zero (r : RunState) : r.code = 0#2 ↔ r = .running := by cases r <;> decide
theorem RunState.code_eq_one (r : RunState) : r.code = 1#2 ↔ r = .waitInput := by cases r <;> decide
theorem RunState.code_eq_two (r : RunState) : r.code = 2#2 ↔ r = .halted := by cases r <;> decide
theorem RunState.code_ne_three (r : RunState) : r.code ≠ 3#2 := by cases r <;> decide

theorem causeCode_eq_zero (c : HaltCause) : causeCode c = 0#3 ↔ c = .none := by cases c <;> decide
theorem causeCode_ne_reserved (c : HaltCause) : causeCode c ≠ 6#3 ∧ causeCode c ≠ 7#3 := by cases c <;> decide

/-- R212: the cause's number is its place in the table. -/
theorem causeCode_index (c : HaltCause) :
    [HaltCause.none, .endOfSource, .sourceMissing, .tooManyTokens, .unknownOpcode, .lineTooLong][(causeCode c).toNat]? =
      some c := by
  cases c <;> rfl

/-- R32: the cause port is 0 exactly when the run-state port does not show HALTED. -/
theorem haltCausePort_eq_zero {s : State} (hs : StateInv s = true) : s.haltCausePort = 0#3 ↔ s.runStatePort ≠ 2#2 := by
  obtain ⟨-, -, -, hh, -⟩ := (inv_iff s).mp hs
  exact (causeCode_eq_zero _).trans (hh.trans (not_congr (RunState.code_eq_two _)).symm)

/-- Settles O59: each clause on the ports is a fact about the two code tables, and the invariant ties them to each other. -/
theorem statusPortsFollowTheRun : Obligations.StatusPortsFollowTheRun := by
  refine ⟨fun s hs => ?_, rfl, rfl⟩
  obtain ⟨h6, h7⟩ := causeCode_ne_reserved s.haltCause
  exact ⟨RunState.code_eq_zero _, RunState.code_eq_one _, RunState.code_eq_two _, RunState.code_ne_three _,
    causeCode_index _, haltCausePort_eq_zero hs, h6, h7⟩

end Sys2Proof.Machine
end

section
/-! PROOF. Registers, frames, and the flags: what instructions change and what they read (O11, O34, O36, O37, O40, O41); and the
step counter (O51). -/

namespace Sys2Proof.Machine

/-! ## Registers (R22) -/

/-- Settles O11, by reading the written register (`s8_trunc8`), another one, and the range of a byte's signed value. -/
theorem registerReadsBackTruncated : Obligations.RegisterReadsBackTruncated := by
  intro s k v
  refine ⟨?_, fun j hj => ?_, fun j => s8_range _⟩
  · rw [State.writeBack_eq, State.regVal, State.writeResult_reg_self, s8_trunc8]
  · rw [State.writeBack_eq, State.regVal, State.writeResult_reg_other s hj, State.regVal]

/-! ## Frames (R23, R43, R110, R114) -/

theorem sameRest_refl (s : State) : SameRest s s := ⟨rfl, rfl, rfl, rfl, rfl, rfl, rfl, rfl, rfl, rfl⟩

theorem sameRest_emit (s : State) (o : Output) : SameRest s (s.emit o) := ⟨rfl, rfl, rfl, rfl, rfl, rfl, rfl, rfl, rfl, rfl⟩

theorem sameRest_writeBack (s : State) (k : RegIdx) (w : Int) : SameRest s (s.writeBack k w) :=
  ⟨rfl, rfl, rfl, rfl, rfl, rfl, rfl, rfl, rfl, rfl⟩

theorem sameMemory_of_mem_eq {s t : State} (h : t.mem = s.mem) : SameMemory s t := fun a => by rw [h]

/-- ADD, SUB, MUL, DIV, INC, DEC, MOV, LOAD, ROL, ROR, SHL and SHR do nothing, send a diagnostic, or write their
destination register with its flags. -/
theorem exec_cases_of_registerInstr {i : Instr} {s t : State} (hst : i.opcode ≠ .store) (hin : i.opcode ≠ .input)
    (hdi : i.opcode ≠ .display) (h : exec i s = .next t) :
    t = s ∨ (∃ e, t = s.recover i.opcode e) ∨ ∃ k w, destReg i = some k ∧ t = s.writeBack k w := by
  rcases exec_cases h with hs | he | ⟨k, w, hd, ht, -⟩ | ⟨k, o2, a, rfl, -⟩ | ⟨k, o2, rfl, -⟩ | ⟨k, o2, rfl, -⟩
  · exact .inl hs
  · exact .inr (.inl he)
  · exact .inr (.inr ⟨k, w, hd, ht⟩)
  · exact absurd rfl hst
  · exact absurd rfl hin
  · exact absurd rfl hdi

/-- Settles O34, by the three things such an instruction can do. -/
theorem registerInstructionsFrame : Obligations.RegisterInstructionsFrame := by
  intro i s t hst hin hdi h
  rcases exec_cases_of_registerInstr hst hin hdi h with rfl | ⟨e, rfl⟩ | ⟨k, w, hd, rfl⟩
  · exact ⟨fun _ _ => rfl, fun _ => rfl, fun _ => rfl, sameRest_refl _, rfl, rfl⟩
  · exact ⟨fun _ _ => rfl, fun _ => rfl, fun _ => rfl, sameRest_emit _ _, rfl, rfl⟩
  · have hother : ∀ j, destReg i ≠ some j → (s.writeBack k w).reg j = s.reg j := fun j hj =>
      State.writeResult_reg_other s (fun e : j = k => hj (by rw [hd, e])) _ _
    exact ⟨hother, fun hn => by simp [hd] at hn, fun _ => rfl, sameRest_writeBack _ _ _, rfl, rfl⟩

/-- What requesting input leaves alone: all but its register, the flags, at most one answer, `run_state` and the output. -/
theorem requestInput_frame (k : RegIdx) (s : State) :
    (∀ j, j ≠ k → (requestInput k s).reg j = s.reg j) ∧ (requestInput k s).mem = s.mem ∧
    SameRest s (requestInput k s) ∧ ((requestInput k s).inp = s.inp ∨ (requestInput k s).inp = s.inp.tail) ∧
    ((requestInput k s).runState = s.runState ∨ (s.inp = [] ∧ (requestInput k s).runState = .waitInput)) := by
  rcases requestInput_cases k s with ⟨hi, hr⟩ | ⟨e, hr⟩ | ⟨v, hr⟩ <;> rw [hr]
  · exact ⟨fun _ _ => rfl, rfl, sameRest_emit s .nextToken, .inl rfl, .inr ⟨hi, rfl⟩⟩
  · exact ⟨fun _ _ => rfl, rfl, sameRest_emit s .nextToken, .inr rfl, .inl rfl⟩
  · have hother : ∀ j, j ≠ k → (s.tokenTaken.writeBack k v).reg j = s.reg j := fun j hj =>
      State.writeResult_reg_other s.tokenTaken hj _ _
    exact ⟨hother, rfl, sameRest_writeBack s k v, .inr rfl, .inl rfl⟩

/-- Settles O36: INPUT reports an error and keeps everything else, or requests input for its register. -/
theorem inputFrame : Obligations.InputFrame := by
  intro o1 o2 s t h
  rcases execInput_cases (o2 := o2) h with ⟨e, rfl⟩ | ⟨k, rfl, rfl⟩
  · exact ⟨fun _ _ => rfl, fun _ => ⟨rfl, rfl⟩, fun _ => rfl, sameRest_emit _ _, .inl rfl, .inl rfl⟩
  · obtain ⟨hreg, hmem, hrest, hinp, hrun⟩ := requestInput_frame k s
    exact ⟨fun j hj => hreg j fun e => hj (e ▸ rfl), fun hn => absurd rfl (hn k), sameMemory_of_mem_eq hmem, hrest, hinp,
      hrun⟩

/-- Settles O37: DISPLAY sends one line, its error or its value. -/
theorem displayFrame : Obligations.DisplayFrame := by
  intro o1 o2 s t h
  have hemit : ∃ l, t = s.emitLine l := by
    rcases execDisplay_cases (o2 := o2) h with ⟨e, ht⟩ | ⟨k, -, ht⟩
    · exact ⟨_, ht⟩
    · exact ⟨_, ht⟩
  obtain ⟨l, rfl⟩ := hemit
  exact ⟨fun _ => rfl, rfl, fun _ => rfl, sameRest_emit _ _, rfl, rfl⟩

/-! ## Flags come from one wide result (R28, R107) -/

theorem opcode_of_destReg {i : Instr} {k : RegIdx} (h : destReg i = some k) :
    i.opcode ≠ .store ∧ i.opcode ≠ .display := by
  cases i with
  | store o1 o2 => cases h
  | display o1 o2 => cases h
  | _ => exact ⟨nofun, nofun⟩

/-- An instruction leaves the registers and flags as they are, or writes one wide result back to its destination. -/
theorem exec_writes {i : Instr} {s t : State} (h : exec i s = .next t) :
    (t.flags = s.flags ∧ t.x = s.x) ∨
    ∃ (k : RegIdx) (w : Int), destReg i = some k ∧ t.flags = deriveFlags w ∧ t.reg k = BitVec.ofInt 8 w := by
  rcases exec_cases h with rfl | ⟨e, rfl⟩ | ⟨k, w, hd, rfl, -⟩ | ⟨k, o2, a, -, -, rfl⟩ | ⟨k, o2, rfl, rfl⟩ | ⟨k, o2, -, rfl⟩
  case inr.inr.inl => exact .inr ⟨k, w, hd, rfl, State.writeResult_reg_self _ _ _ _⟩
  case inr.inr.inr.inr.inl =>
    rcases requestInput_cases k s with ⟨-, hr⟩ | ⟨e, hr⟩ | ⟨v, hr⟩ <;> rw [hr]
    · exact .inl ⟨rfl, rfl⟩
    · exact .inl ⟨rfl, rfl⟩
    · exact .inr ⟨k, v, rfl, rfl, State.writeResult_reg_self _ _ _ _⟩
  all_goals exact .inl ⟨rfl, rfl⟩

/-- Settles O40: only a write-back changes a flag or a register (`exec_writes`), and STORE and DISPLAY have no
destination. -/
theorem flagsAreReplacedTogether : Obligations.FlagsAreReplacedTogether := by
  intro i s t h hne
  rcases exec_writes h with ⟨hf, hx⟩ | ⟨k, w, hd, hf, hr⟩
  · rcases hne with hne | hne
    · exact absurd hf hne
    · exact absurd hx hne
  · obtain ⟨hst, hdi⟩ := opcode_of_destReg hd
    exact ⟨hst, hdi, k, w, hd, hf, hr⟩

/-! ## No instruction reads the flags (R29) -/

/-- The state with other flags. -/
def State.withFlags (s : State) (f : Flags) : State := { s with flags := f }

/-- From `s` with flags `f` the meaning `m` answers `t` with flags that are those of `t`, or that `m` left alone in both. -/
def SameUpToFlags (m : State → Host.Outcome State Fault Refusal) (s : State) (f : Flags) (t : State) : Prop :=
  ∃ g, m (s.withFlags f) = .next (t.withFlags g) ∧ (g = t.flags ∨ (t.flags = s.flags ∧ g = f))

/-- A meaning that does not read the flags. -/
def FlagBlind (m : State → Host.Outcome State Fault Refusal) : Prop :=
  ∀ (s t : State) (f : Flags), m s = .next t → SameUpToFlags m s f t

section
variable {m : State → Host.Outcome State Fault Refusal} {s t : State} {f : Flags}

/-- The flags are left alone in both runs. -/
theorem SameUpToFlags.kept (h : m (s.withFlags f) = .next (t.withFlags f)) (ht : t.flags = s.flags) :
    SameUpToFlags m s f t := ⟨f, h, .inr ⟨ht, rfl⟩⟩

/-- Both runs write the same flags. -/
theorem SameUpToFlags.written (h : m (s.withFlags f) = .next t) : SameUpToFlags m s f t := ⟨t.flags, h, .inl rfl⟩

end

/-- ADD, SUB, MUL and DIV read their operands, never the flags (R130). -/
theorem binary_flagBlind (op : Opcode) (c : Paired → Except RecErr Int) (o1 o2 : Operand) :
    FlagBlind (binary op c o1 o2) := by
  intro s t f h
  have hp : pair (s.withFlags f) o1 o2 = pair s o1 o2 := pair_withFlags s f o1 o2
  unfold binary at h
  split at h
  · cases h
    exact .kept (by simp only [binary, *]; rfl) rfl
  · split at h
    · cases h
      exact .kept (by simp only [binary, *]; rfl) rfl
    · cases h
      exact .written (by simp only [binary, *]; rfl)

/-- INC and DEC (R135, R136). -/
theorem unary_flagBlind (c : Int → Int) (o1 : Operand) : FlagBlind (unary c o1) := by
  intro s t f h
  rcases unary_cases h with ⟨rfl, hn⟩ | ⟨k, rfl, rfl⟩
  · exact .kept (by simp only [unary]) rfl
  · exact .written rfl

/-- ROL, ROR, SHL and SHR (R165). -/
theorem rotShift_flagBlind (op : Opcode) (c : Byte → Nat → Byte) (o1 o2 : Operand) : FlagBlind (rotShift op c o1 o2) := by
  intro s t f h
  have hv : value (s.withFlags f) o2 (s.withFlags f).text2 = value s o2 s.text2 := value_withFlags s f o2 _
  have ht : (s.withFlags f).text1 = s.text1 := rfl
  unfold rotShift at h
  split at h
  · cases h
    exact .kept (by simp only [rotShift, *]; rfl) rfl
  · split at h
    · cases h
      exact .kept (by simp only [rotShift, *]; rfl) rfl
    · cases h
      exact .written (by simp only [rotShift, *]; rfl)

theorem execMov_flagBlind (o1 o2 : Operand) : FlagBlind (execMov o1 o2) := by
  intro s t f h
  have hv : value (s.withFlags f) o1 (s.withFlags f).text1 = value s o1 s.text1 := value_withFlags s f o1 _
  unfold execMov at h
  split at h
  · split at h
    · cases h
      exact .kept (by simp only [execMov, *]; rfl) rfl
    · cases h
      exact .written (by simp only [execMov, *]; rfl)
  · cases h
    exact .kept (by simp only [execMov, *]) rfl

theorem execLoad_flagBlind (o1 o2 : Operand) : FlagBlind (execLoad o1 o2) := by
  intro s t f h
  have ha : address (s.withFlags f) o1 (s.withFlags f).text1 = address s o1 s.text1 := address_withFlags s f o1 _
  have ht : (s.withFlags f).text2 = s.text2 := rfl
  unfold execLoad at h
  split at h
  · cases h
    exact .kept (by simp only [execLoad, *]; rfl) rfl
  · split at h
    · cases h
      exact .kept (by simp only [execLoad, *]; rfl) rfl
    · cases h
      exact .written (by simp only [execLoad, *]; rfl)

theorem execStore_flagBlind (o1 o2 : Operand) : FlagBlind (execStore o1 o2) := by
  intro s t f h
  have ha : address (s.withFlags f) o2 (s.withFlags f).text2 = address s o2 s.text2 := address_withFlags s f o2 _
  have ht : (s.withFlags f).text1 = s.text1 := rfl
  unfold execStore at h
  split at h
  · cases h
    exact .kept (by simp only [execStore, *]; rfl) rfl
  · split at h
    · cases h
      exact .kept (by simp only [execStore, *]; rfl) rfl
    · cases h
      exact .kept (by simp only [execStore, *]; rfl) rfl

theorem finishInput_of_inputInt_none {b : Text} (h : inputInt b = none) (k : RegIdx) (s : State) :
    finishInput k (.token b) s = s.recover .input ⟨.inputInvalid, b⟩ := by
  simp only [finishInput, h]

theorem finishInput_of_inputInt_some {b : Text} {v : Int} (h : inputInt b = some v) (k : RegIdx) (s : State) :
    finishInput k (.token b) s = s.writeBack k v := by
  simp only [finishInput, h]

/-- The completion of an INPUT (R180). -/
theorem finishInput_flagBlind (k : RegIdx) (r : InpAnswer) : FlagBlind fun s => .next (finishInput k r s) := by
  intro s t f h
  cases h
  cases r with
  | eof => exact .kept rfl rfl
  | token b =>
    cases hb : inputInt b with
    | none =>
      rw [finishInput_of_inputInt_none hb]
      exact .kept (congrArg _ (finishInput_of_inputInt_none hb k (s.withFlags f))) rfl
    | some v =>
      rw [finishInput_of_inputInt_some hb]
      exact .written (congrArg _ (finishInput_of_inputInt_some hb k (s.withFlags f)))

/-- The request of an INPUT (R183). -/
theorem requestInput_flagBlind (k : RegIdx) : FlagBlind fun s => .next (requestInput k s) := by
  intro s t f h
  cases h
  cases hi : s.inp with
  | nil =>
    have hf : requestInput k (s.withFlags f) = s.waiting.withFlags f := requestInput_nil k hi
    rw [requestInput_nil k hi]
    exact .kept (congrArg _ hf) rfl
  | cons r rest =>
    have hf : requestInput k (s.withFlags f) = finishInput k r (s.tokenTaken.withFlags f) := requestInput_cons k hi
    obtain ⟨g, hg, hgf⟩ := finishInput_flagBlind k r s.tokenTaken _ f rfl
    rw [requestInput_cons k hi]
    exact ⟨g, (congrArg _ hf).trans hg, hgf⟩

theorem execInput_flagBlind (o1 o2 : Operand) : FlagBlind (execInput o1 o2) := by
  intro s t f h
  have ht : (s.withFlags f).text1 = s.text1 := rfl
  unfold execInput at h
  split at h
  · cases h
    exact .kept (by simp only [execInput, *]; rfl) rfl
  · rename_i k hk
    obtain ⟨g, hg, hgf⟩ := requestInput_flagBlind k s t f h
    exact ⟨g, by simp only [execInput, ht, hk]; exact hg, hgf⟩

theorem execDisplay_flagBlind (o1 o2 : Operand) : FlagBlind (execDisplay o1 o2) := by
  intro s t f h
  have ht : (s.withFlags f).text1 = s.text1 := rfl
  unfold execDisplay at h
  split at h
  · cases h
    exact .kept (by simp only [execDisplay, *]; rfl) rfl
  · cases h
    exact .kept (by simp only [execDisplay, *]; rfl) rfl

/-- R29, for every instruction. -/
theorem exec_flagBlind (i : Instr) : FlagBlind (exec i) := by
  cases i with
  | add o1 o2 => exact binary_flagBlind .add (fun p => .ok (aluAdd p.t p.s)) o1 o2
  | sub o1 o2 => exact binary_flagBlind .sub (fun p => .ok (aluSub p.t p.s)) o1 o2
  | mul o1 o2 => exact binary_flagBlind .mul (fun p => .ok (aluMul p.t p.s)) o1 o2
  | div o1 o2 => exact fun s => binary_flagBlind .div (divide s.cfg.divRounding) o1 o2 s
  | inc o1 o2 => exact unary_flagBlind aluInc o1
  | dec o1 o2 => exact unary_flagBlind aluDec o1
  | mov o1 o2 => exact execMov_flagBlind o1 o2
  | load o1 o2 => exact execLoad_flagBlind o1 o2
  | store o1 o2 => exact execStore_flagBlind o1 o2
  | rol o1 o2 => exact rotShift_flagBlind .rol rotl o1 o2
  | ror o1 o2 => exact rotShift_flagBlind .ror rotr o1 o2
  | shl o1 o2 => exact rotShift_flagBlind .shl shl o1 o2
  | shr o1 o2 => exact rotShift_flagBlind .shr shr o1 o2
  | input o1 o2 => exact execInput_flagBlind o1 o2
  | display o1 o2 => exact execDisplay_flagBlind o1 o2

/-- Settles O41, by `exec_flagBlind`. -/
theorem noInstructionReadsTheFlags : Obligations.NoInstructionReadsTheFlags :=
  fun i s t f h => exec_flagBlind i s t f h

/-! ## The step counter (R25, R27) -/

theorem beginInstr_exec_settle_pc {i : Instr} {d : Decoded} {s t : State}
    (h : exec i (s.beginInstr i.opcode d) = .next t) : t.settle.pc = s.pc := by
  rw [settle_pc, exec_pc h, State.beginInstr_pc]

/-- R102: a consumed line is counted, whatever it holds. -/
theorem consumeLine_pc {l : Text} {s t : State} (h : consumeLine l s = .next t) : t.pc = s.pc + 1 := by
  rcases consumeLine_next h with ⟨-, rfl⟩ | ⟨c, -, rfl⟩ | ⟨d, i, u, -, -, hx, rfl⟩
  · rfl
  · rfl
  · exact beginInstr_exec_settle_pc hx

@[simp] theorem State.requestLine_pc (s : State) : s.requestLine.pc = s.pc := by simp [State.requestLine_eq]

@[simp] theorem State.answered_pc (s : State) (rest : List SrcAnswer) : (s.answered rest).pc = s.pc := by
  simp [State.answered]

/-- A line cycle counts a line, or leaves `pc` alone (R25, R102). -/
theorem lineCycle_pc {s t : State} (h : lineCycle s = .next t) :
    ((∃ l rest, s.src = .line l :: rest) ∧ t.pc = s.pc + 1) ∨ ((¬ ∃ l rest, s.src = .line l :: rest) ∧ t.pc = s.pc) := by
  rcases lineCycle_next h with ⟨hs, rfl⟩ | ⟨rest, hs, rfl⟩ | ⟨rest, hs, rfl⟩ | ⟨l, rest, hs, hc⟩
  · exact .inr ⟨by simp [hs], by simp⟩
  · exact .inr ⟨by simp [hs], by simp⟩
  · exact .inr ⟨by simp [hs], by simp⟩
  · exact .inl ⟨⟨l, rest, hs⟩, by rw [consumeLine_pc hc, State.answered_pc]⟩

/-- The end of a wait leaves `pc` alone (R183). -/
theorem resumeInput_pc {s t : State} (h : resumeInput s = .next t) : t.pc = s.pc := by
  obtain ⟨k, -, ⟨-, rfl⟩ | ⟨r, rest, -, rfl⟩⟩ := resumeInput_next h
  · rfl
  · obtain ⟨-, -, ⟨hpc, -⟩, -⟩ := finishInput_frame k r { s with runState := .running, inp := rest }
    rw [settle_pc, hpc]

/-- Where no line is due, the core's action leaves `pc` alone (R25). -/
theorem coreStep_pc_of_not_lineDue {s t : State} (hd : ¬ LineDue s) (h : coreStep s = .next t) : t.pc = s.pc := by
  rcases coreStep_next h with ⟨-, hres⟩ | ⟨-, -, rfl⟩ | ⟨-, -, rfl⟩ | ⟨hr, hdue, -⟩
  · exact resumeInput_pc hres
  · rfl
  · rfl
  · exact absurd ⟨hr, hdue⟩ hd

/-- Settles O51: a due line cycle counts exactly a line (`lineCycle_pc`), and no other action counts. -/
theorem pcCountsConsumedLines : Obligations.PcCountsConsumedLines := by
  intro s t h
  by_cases hd : LineDue s
  · rw [coreStep_of_lineDue s hd] at h
    rcases lineCycle_pc h with ⟨hline, hpc⟩ | ⟨hno, hpc⟩
    · exact ⟨fun _ _ => by rw [hpc, BitVec.toNat_add]; rfl, fun hn => absurd ⟨hd, hline⟩ hn⟩
    · exact ⟨fun _ hline => absurd hline hno, fun _ => hpc⟩
  · exact ⟨fun hd' => absurd hd' hd, fun _ => coreStep_pc_of_not_lineDue hd h⟩

end Sys2Proof.Machine
end

section
/-! PROOF. Memory: what STORE changes and leaves alone (O35), and that nothing else changes a cell (O39). -/

namespace Sys2Proof.Machine

/-! ## The frame of STORE (R42, R152) -/

theorem sameRest_memWrite (s : State) (a : Addr) (b : Byte) : SameRest s (s.memWrite a b) :=
  ⟨rfl, rfl, rfl, rfl, rfl, rfl, rfl, rfl, rfl, rfl⟩

/-- Settles O35: STORE sends its diagnostic, or writes the one cell its address operand names, and then its source is a
register and its address legal. -/
theorem storeFrame : Obligations.StoreFrame := by
  intro o1 o2 s t h
  rcases execStore_cases h with ⟨e, rfl⟩ | ⟨k, a, rfl, ha, rfl⟩
  · exact ⟨fun _ => rfl, rfl, sameRest_emit _ _, rfl, rfl, fun _ _ _ _ => rfl, fun _ _ => rfl⟩
  · have hother : ∀ a', address s o2 s.text2 = .ok a' → ∀ b : Nat, b ≠ a'.val →
        Memory.read (s.memWrite a (s.reg k)).mem b = Memory.read s.mem b := by
      intro a' ha' b hb
      obtain rfl : a = a' := Except.ok.inj (ha.symm.trans ha')
      exact Memory.read_write_other s.mem hb _
    refine ⟨fun _ => rfl, rfl, sameRest_memWrite s a _, rfl, rfl, hother, fun hno => ?_⟩
    rcases hno with hreg | haddr
    · exact absurd rfl (hreg k)
    · exact absurd ha (haddr a)

/-! ## Only STORE writes memory (R43) -/

/-- An instruction leaves memory as it is, or is a STORE of a register to a legal address and writes that cell. -/
theorem exec_mem {i : Instr} {s t : State} (h : exec i s = .next t) :
    t.mem = s.mem ∨
    ∃ k o2 a, i = .store (.reg k) o2 ∧ address s o2 s.text2 = .ok a ∧ t.mem = Memory.write s.mem a.val (s.reg k) := by
  rcases exec_cases h with rfl | ⟨e, rfl⟩ | ⟨k, w, -, rfl, -⟩ | ⟨k, o2, a, hi, ha, rfl⟩ | ⟨k, o2, -, rfl⟩ | ⟨k, o2, -, rfl⟩
  case inr.inr.inr.inl => exact .inr ⟨k, o2, a, hi, ha, rfl⟩
  case inr.inr.inr.inr.inl =>
    obtain ⟨-, hmem, -⟩ := requestInput_frame k s
    exact .inl hmem
  all_goals exact .inl rfl

/-- Settles O39: where memory changes it is by a STORE's one write (`exec_mem`), and that differs only at its own
address. -/
theorem onlyStoreWritesMemory : Obligations.OnlyStoreWritesMemory := by
  intro i s t a h hne
  rcases exec_mem h with hmem | ⟨k, o2, b, hi, hb, hmem⟩ <;> rw [hmem] at hne
  · exact absurd rfl hne
  · exact ⟨k, o2, hi, b, hb, Memory.read_write_ne hne⟩

end Sys2Proof.Machine
end

section
/-! PROOF. The DIW (R71, R72, R76, R77): decoding against encoding in both directions (O1, O2), and the reserved words (O3). -/

namespace Sys2Proof.Machine

/-! ## The decoder of a word, field by field -/

/-- A word has a meaning exactly when its opcode and both its operand fields have one. -/
theorem decodeDiw_eq_some {d : Diw} {i : Instr} : decodeDiw d = some i ↔
    ∃ op o1 o2, Opcode.ofCode d.opc = some op ∧ decodeOperand d.k1 d.p1 = some o1 ∧
      decodeOperand d.k2 d.p2 = some o2 ∧ i = Instr.make op o1 o2 := by
  unfold decodeDiw
  cases Opcode.ofCode d.opc <;> cases decodeOperand d.k1 d.p1 <;> cases decodeOperand d.k2 d.p2 <;> simp [eq_comm]

theorem decodeDiw_eq_none {d : Diw} : decodeDiw d = none ↔
    Opcode.ofCode d.opc = none ∨ decodeOperand d.k1 d.p1 = none ∨ decodeOperand d.k2 d.p2 = none := by
  unfold decodeDiw
  cases Opcode.ofCode d.opc <;> cases decodeOperand d.k1 d.p1 <;> cases decodeOperand d.k2 d.p2 <;> simp

/-- The fields of an instruction's word (R71). -/
theorem encodeDiw_fields (i : Instr) : (encodeDiw i).opc = i.opcode.code ∧
    (encodeDiw i).k1 = i.operands.1.kind ∧ (encodeDiw i).p1 = i.operands.1.payload ∧
    (encodeDiw i).k2 = i.operands.2.kind ∧ (encodeDiw i).p2 = i.operands.2.payload :=
  ⟨Diw.opc_pack _ _ _ _ _, Diw.k1_pack _ _ _ _ _, Diw.p1_pack _ _ _ _ _, Diw.k2_pack _ _ _ _ _, Diw.p2_pack _ _ _ _ _⟩

theorem encodeDiw_make (op : Opcode) (o1 o2 : Operand) :
    encodeDiw (Instr.make op o1 o2) = Diw.pack o2.payload o2.kind o1.payload o1.kind op.code := by
  simp [encodeDiw]

theorem wf_iff_operands {i : Instr} : i.wf = true ↔ i.operands.1.wf = true ∧ i.operands.2.wf = true := by
  simp [Instr.wf]

/-- Settles O1: each of the five packed fields is read back, the opcode by its number (`Opcode.ofCode_code`) and each
operand by its kind and payload (`decodeOperand_encode`). -/
theorem decodeOfEncodeIsTheInstruction : Obligations.DecodeOfEncodeIsTheInstruction := by
  intro i hi
  obtain ⟨h1, h2⟩ := wf_iff_operands.mp hi
  obtain ⟨hop, hk1, hp1, hk2, hp2⟩ := encodeDiw_fields i
  refine decodeDiw_eq_some.mpr ⟨i.opcode, i.operands.1, i.operands.2, ?_, ?_, ?_, (Instr.make_opcode i).symm⟩
  · rw [hop, Opcode.ofCode_code]
  · rw [hk1, hp1, decodeOperand_encode h1]
  · rw [hk2, hp2, decodeOperand_encode h2]

/-- Settles O2: the opcode and the operands that decode have the word's own fields (`decodeOperand_some`), and a word is its
five fields (`Diw.pack_fields`). -/
theorem encodeOfDecodeIsTheWord : Obligations.EncodeOfDecodeIsTheWord := by
  intro d i h
  obtain ⟨op, o1, o2, hop, h1, h2, rfl⟩ := decodeDiw_eq_some.mp h
  obtain ⟨hw1, hk1, hp1⟩ := decodeOperand_some h1
  obtain ⟨hw2, hk2, hp2⟩ := decodeOperand_some h2
  refine ⟨wf_iff_operands.mpr ?_, ?_⟩
  · rw [Instr.operands_make]
    exact ⟨hw1, hw2⟩
  · rw [encodeDiw_make, hk1, hp1, hk2, hp2, Opcode.code_of_ofCode hop, Diw.pack_fields]

/-! ## Reserved words (R77) -/

theorem payloadReg_eq_none {p : BitVec 16} : payloadReg p = none ↔ 8 ≤ p.toNat := by simp [payloadReg]

theorem payloadAddr_eq_none {p : BitVec 16} : payloadAddr p = none ↔ 64 ≤ p.toNat := by simp [payloadAddr]

theorem payloadNone_eq_none {p : BitVec 16} {o : Operand} : payloadNone p o = none ↔ p ≠ 0#16 := by simp [payloadNone]

/-- An operand field is reserved exactly when it decodes to nothing, kind by kind. -/
theorem reservedOperand_iff (k : BitVec 4) (p : BitVec 16) : ReservedOperand k p ↔ decodeOperand k p = none := by
  unfold decodeOperand
  have hk : ∀ n, k.toNat = n → k = BitVec.ofNat 4 n := fun n e => by rw [← e, BitVec.ofNat_toNat, BitVec.setWidth_eq]
  split
  case h_11 =>
    have h10 : 10 ≤ k.toNat := by simp only [imp_false] at *; omega
    simp [ReservedOperand, h10]
  all_goals
    rename_i e
    rw [hk _ e]
    simp [ReservedOperand, payloadReg_eq_none, payloadAddr_eq_none, payloadNone_eq_none]

theorem reservedDiw_iff (d : Diw) : ReservedDiw d ↔ decodeDiw d = none := by
  rw [decodeDiw_eq_none, ReservedDiw, Opcode.ofCode_eq_none, reservedOperand_iff, reservedOperand_iff]

/-- The DIW of a decoded line has a meaning (R77). -/
theorem decodeDiw_of_decodeLine {lm : Option Nat} {l : Text} {d : Decoded} (h : decodeLine lm l = .instr d) :
    ∃ i, decodeDiw d.diw = some i := by
  obtain ⟨i, hw, hd⟩ := decodeLine_instr h
  exact ⟨i, by rw [hd, decodeOfEncodeIsTheInstruction i hw]⟩

/-- Settles O3: the reserved words are those without a meaning (`reservedDiw_iff`), so the dispatcher refuses them, and a
decoded line's word has one (`decodeDiw_of_decodeLine`). -/
theorem reservedDiwIsRefusedAndNeverProduced : Obligations.ReservedDiwIsRefusedAndNeverProduced := by
  refine ⟨reservedDiw_iff, fun d s hr => ?_, fun lm l r h hr => ?_⟩
  · rw [executeDiw, (reservedDiw_iff d).mp hr]
  · obtain ⟨i, hi⟩ := decodeDiw_of_decodeLine h
    rw [(reservedDiw_iff _).mp hr] at hi
    cases hi

end Sys2Proof.Machine
end

section
/-! PROOF. The line decoder (R60 to R70, R78): its checks in order (O7), the lines without an instruction (O6), the changes of a
line it does not see (O8), and the line written for an instruction (O4). -/

namespace Sys2Proof.Machine

/-! ## Bytes and the comment (R61, R62, R64) -/

theorem isSpace_iff_mem {b : Byte} :
    isSpace b = true ↔ b ∈ ([0x20#8, 0x09#8, 0x0A#8, 0x0B#8, 0x0C#8, 0x0D#8] : Text) := by
  simp [isSpace, ← BitVec.toNat_inj]
  omega

theorem isSep_iff_mem {b : Byte} :
    isSep b = true ↔ b ∈ ([0x20#8, 0x09#8, 0x0A#8, 0x0B#8, 0x0C#8, 0x0D#8, 0x2C#8] : Text) := by
  simp [isSep, isSpace, ← BitVec.toNat_inj]
  omega

theorem stripComment_eq_takeWhile (l : Text) : stripComment l = l.takeWhile fun b => b != 0x3B#8 := by
  unfold stripComment
  congr 1
  funext b
  rw [Bool.eq_iff_iff]
  simp [← BitVec.toNat_inj]

theorem ne_commentMark_of_isSpace {b : Byte} (h : isSpace b = true) : b.toNat ≠ 0x3B := by
  simp [isSpace] at h
  omega

/-- What stands before the comment mark only lengthens the text. -/
theorem stripComment_append_free {a : Text} (h : ∀ c ∈ a, c.toNat ≠ 0x3B) (l : Text) :
    stripComment (a ++ l) = a ++ stripComment l := by
  unfold stripComment
  exact List.takeWhile_append_of_pos (by simpa using h)

/-- Whitespace at the end is in the comment, or is still at the end: either way it holds no token. -/
theorem tokens_stripComment_append_spaces {b : Text} (h : ∀ c ∈ b, isSpace c = true) (l : Text) :
    tokens (stripComment (l ++ b)) = tokens (stripComment l) := by
  have hfree : stripComment b = b := stripComment_of_free fun c hc => ne_commentMark_of_isSpace (h c hc)
  unfold stripComment at hfree ⊢
  rw [List.takeWhile_append]
  split
  next hlen =>
    have hl := (List.takeWhile_prefix (l := l) fun c : Byte => c.toNat != 0x3B).eq_of_length hlen
    rw [hfree, hl, tokens_append_right_seps fun c hc => isSep_of_isSpace (h c hc)]
  · rfl

theorem upper_eq_ite : (fun b : Byte => if 0x61 ≤ b.toNat ∧ b.toNat ≤ 0x7A then b - 0x20#8 else b) = upper := by
  funext b
  simp [upper, isLower]

theorem upper_eq_commentMark (b : Byte) : (upper b).toNat = 0x3B ↔ b.toNat = 0x3B := by
  rw [upper_toNat]
  split <;> omega

/-- R64: `,` as a space. -/
def commaToSpace (b : Byte) : Byte := if b = 0x2C#8 then 0x20#8 else b

theorem commaToSpace_eq_ite : (fun b : Byte => if b = 0x2C#8 then 0x20#8 else b) = commaToSpace := rfl

theorem commaToSpace_of_not_sep {b : Byte} (h : isSep b = false) : commaToSpace b = b := by
  refine if_neg ?_
  rintro rfl
  exact absurd h (by decide)

theorem isSep_commaToSpace (b : Byte) : isSep (commaToSpace b) = isSep b := by
  unfold commaToSpace
  split
  next h => rw [h]; decide
  · rfl

theorem commaToSpace_eq_commentMark (b : Byte) : (commaToSpace b).toNat = 0x3B ↔ b.toNat = 0x3B := by
  unfold commaToSpace
  split
  next h => rw [h]; decide
  · rfl

theorem splitSep_map_commaToSpace (l : Text) : splitSep (l.map commaToSpace) = splitSep l := by
  induction l with
  | nil => rfl
  | cons b r ih =>
    cases h : isSep b with
    | true => rw [List.map_cons, splitSep_sep (by rw [isSep_commaToSpace, h]), splitSep_sep h, ih]
    | false => simp only [List.map_cons, splitSep, commaToSpace_of_not_sep h, h, ih]

/-! ## The checks, in order (R66 to R68, R78) -/

section Checks
variable {lm : Option Nat} {l t : Text} {args : List Text}

theorem tooLong_iff : tooLong lm l = true ↔ ∃ n, lm = some n ∧ n < l.length := by
  cases lm <;> simp [tooLong]

theorem decodeLine_tooLong (h : tooLong lm l = true) : decodeLine lm l = .fatal .lineTooLong := if_pos h

theorem decodeLine_tooManyTokens (hf : tooLong lm l = false) (h : 3 < (tokens (normalise l)).length) :
    decodeLine lm l = .fatal .tooManyTokens := by
  obtain ⟨t, args, ht⟩ := List.exists_cons_of_length_pos (by omega : 0 < (tokens (normalise l)).length)
  rw [ht, List.length_cons] at h
  simp [decodeLine, hf, ht, (by omega : 2 < args.length)]

theorem decodeLine_unknownOpcode (hf : tooLong lm l = false) (h : tokens (normalise l) = t :: args)
    (hn : args.length ≤ 2) (ht : Opcode.ofText t = none) : decodeLine lm l = .fatal .unknownOpcode := by
  simp [decodeLine, hf, h, ht, Nat.not_lt.mpr hn]

theorem decodeLine_eq_instr {op : Opcode} (hf : tooLong lm l = false) (h : tokens (normalise l) = op.text :: args)
    (hn : args.length ≤ 2) : decodeLine lm l = .instr (decodeTokens op (args.length + 1) args) := by
  simp [decodeLine, hf, h, Opcode.ofText_text, Nat.not_lt.mpr hn]

theorem decodeLine_eq_noInstr (hf : tooLong lm l = false) : decodeLine lm l = .noInstr ↔ tokens (normalise l) = [] := by
  unfold decodeLine
  rw [hf]
  cases tokens (normalise l) with
  | nil => simp
  | cons t args =>
    simp only [Bool.false_eq_true, if_false, reduceCtorEq, iff_false]
    split
    · simp
    · split <;> simp

theorem ofText_eq_none : Opcode.ofText t = none ↔ ∀ op : Opcode, op.text ≠ t := by
  simp [Opcode.ofText, List.find?_eq_none, Opcode.mem_all]

end Checks

/-- Settles O6: the decoder finds no instruction where no token stands before the comment, and the tokens are missing where
all bytes are separators (`tokens_eq_nil`). -/
theorem onlySeparatorLinesAreNoInstruction : Obligations.OnlySeparatorLinesAreNoInstruction := by
  intro l
  rw [decodeLine_eq_noInstr rfl, tokens_normalise, List.map_eq_nil_iff, tokens_eq_nil, stripComment_eq_takeWhile]
  simp only [isSep_iff_mem]

/-! ## The record (R69 to R71, R75) -/

section Record
variable (op : Opcode) (n : Nat) (args : List Text)

theorem decodeTokens_diw : (decodeTokens op n args).diw =
    encodeDiw (Instr.make op (classify (decodeTokens op n args).t1) (classify (decodeTokens op n args).t2)) := rfl

theorem decodeTokens_t1 : (decodeTokens op n args).t1 = sanitise (args.getD 0 []) := by
  cases args <;> rfl

theorem decodeTokens_t2 : (decodeTokens op n args).t2 = sanitise (args.getD 1 []) := by
  match args with
  | [] | [_] | _ :: _ :: _ => rfl

/-- The fields of the record's word are the opcode's number and the classifications of the record's texts. -/
theorem decodeTokens_fields : let d := decodeTokens op n args
    d.diw.opc = op.code ∧ d.diw.k1 = (classify d.t1).kind ∧ d.diw.p1 = (classify d.t1).payload ∧
    d.diw.k2 = (classify d.t2).kind ∧ d.diw.p2 = (classify d.t2).payload := by
  intro d
  have h := encodeDiw_fields (Instr.make op (classify d.t1) (classify d.t2))
  rw [Instr.opcode_make, Instr.operands_make] at h
  exact h

/-- Classified operands are well formed, so the record's word decodes to the instruction it was built from. -/
theorem decodeDiw_decodeTokens : decodeDiw (decodeTokens op n args).diw =
    some (Instr.make op (classify (decodeTokens op n args).t1) (classify (decodeTokens op n args).t2)) := by
  rw [decodeTokens_diw]
  refine decodeOfEncodeIsTheInstruction _ (wf_iff_operands.mpr ?_)
  rw [Instr.operands_make]
  exact ⟨classify_wf _, classify_wf _⟩

/-- The side-band of an upper-case line with at most two operands is well formed (R69, R70). -/
theorem decodeTokens_wf {args : List Text} (hn : args.length ≤ 2) (h : ∀ t ∈ args, ∀ b ∈ t, isLower b = false) :
    (decodeTokens op (args.length + 1) args).wf = true := by
  have hb : ∀ t ∈ args, (sanitise t).all operandByte = true := fun t ht => sanitise_operandByte (h t ht)
  match args, hn, hb with
  | [], _, _ => rfl
  | [t], _, hb =>
    have hnil : sanitise [] = [] := rfl
    simp [Decoded.wf, decodeTokens, hb t, hnil]
  | [t, u], _, hb => simp [Decoded.wf, decodeTokens, hb t, hb u]

theorem sanitise_eq_filter (t : Text) : sanitise t = t.filter fun b => decide (0x21 ≤ b.toNat ∧ b.toNat ≤ 0x7E) := by
  unfold sanitise
  congr 1
  funext b
  simp [isPrint]

end Record

/-- Settles O7: one equation for each check of the decoder, the fields of the record, and `decodeDiw_decodeTokens`. -/
theorem decoderChecksLengthThenCountThenOpcode : Obligations.DecoderChecksLengthThenCountThenOpcode := by
  refine ⟨rfl, rfl, tokens_normalise_eq_splitOnP, fun lm l => ⟨fun n hlm hn => ?_, fun hlen => ?_⟩⟩
  · exact decodeLine_tooLong (tooLong_iff.mpr ⟨n, hlm, hn⟩)
  have hf : tooLong lm l = false := by
    rw [Bool.eq_false_iff]
    intro h
    obtain ⟨n, hlm, hn⟩ := tooLong_iff.mp h
    exact absurd (hlen n hlm) (by omega)
  refine ⟨decodeLine_tooManyTokens hf, fun t ts ht hn hop => ?_, fun op ts ht hn => ?_⟩
  · exact decodeLine_unknownOpcode hf ht hn (ofText_eq_none.mpr hop)
  · obtain ⟨hop, hk1, hp1, hk2, hp2⟩ := decodeTokens_fields op (ts.length + 1) ts
    refine ⟨_, decodeLine_eq_instr hf ht hn, hop, rfl, ?_, ?_, hk1, hp1, hk2, hp2, decodeDiw_decodeTokens _ _ _⟩
    · rw [decodeTokens_t1, sanitise_eq_filter]
    · rw [decodeTokens_t2, sanitise_eq_filter]

/-! ## What the decoder does not see (R62 to R64) -/

/-- Settles O8: a line decodes by its tokens alone (`decodeLine_congr`), and none of the four changes moves or alters a
normalised token. -/
theorem decodingIgnoresCommentCaseCommaAndOuterSpace : Obligations.DecodingIgnoresCommentCaseCommaAndOuterSpace := by
  refine ⟨fun l r => decodeLine_congr ?_, fun l => decodeLine_congr ?_, fun l => decodeLine_congr ?_,
    fun a l b hab => decodeLine_congr ?_⟩
  · rw [normalise, stripComment_append_comment, ← normalise]
  · have huu : upper ∘ upper = upper := funext upper_upper
    rw [upper_eq_ite, tokens_normalise, tokens_normalise, ← tokens_map_upper, ← tokens_map_upper,
      stripComment_map upper upper_eq_commentMark, List.map_map, huu]
  · rw [commaToSpace_eq_ite, tokens_normalise, tokens_normalise,
      stripComment_map commaToSpace commaToSpace_eq_commentMark, tokens, splitSep_map_commaToSpace, ← tokens]
  · have ha : ∀ c ∈ a, isSpace c = true := fun c hc => isSpace_iff_mem.mpr (hab c (List.mem_append_left b hc))
    have hb : ∀ c ∈ b, isSpace c = true := fun c hc => isSpace_iff_mem.mpr (hab c (List.mem_append_right a hc))
    rw [tokens_normalise, tokens_normalise, List.append_assoc,
      stripComment_append_free fun c hc => ne_commentMark_of_isSpace (ha c hc),
      tokens_append_left_seps fun c hc => isSep_of_isSpace (ha c hc), tokens_stripComment_append_spaces hb]

/-! ## The line written for an instruction (log 19) -/

theorem operandTokens_length (i : Instr) : (operandTokens i).length ≤ 2 := by
  unfold operandTokens
  split <;> simp

theorem operandTokens_not_lower (i : Instr) : ∀ t ∈ operandTokens i, ∀ b ∈ t, isLower b = false := by
  have ho : ∀ o : Operand, ∀ b ∈ o.token, isLower b = false := fun o b hb => by
    obtain ⟨-, -, hl⟩ := tokenByte_iff.mp (o.token_bytes b hb)
    exact hl
  unfold operandTokens
  split
  · simp
  · simpa using ho _
  · simpa using ⟨ho _, ho _⟩

/-- The operand tokens classify as the operands; a missing one is ABSENT (R69, R72). -/
theorem classify_operandTokens {i : Instr} (h : i.wf = true) :
    classify (sanitise ((operandTokens i).getD 0 [])) = i.operands.1 ∧
    classify (sanitise ((operandTokens i).getD 1 [])) = i.operands.2 := by
  obtain ⟨h1, h2⟩ := wf_iff_operands.mp h
  unfold operandTokens
  split
  next heq => rw [heq]; exact ⟨rfl, rfl⟩
  next heq => rw [heq] at h1 ⊢; exact ⟨classify_token h1, rfl⟩
  next heq => rw [heq] at h1 h2 ⊢; exact ⟨classify_token h1, classify_token h2⟩

/-- Settles O4: the line's tokens are the mnemonic and the operands' tokens (`tokens_assemble`), which the decoder classifies
as the operands (`classify_operandTokens`). -/
theorem assembledLineDecodesToItsInstruction : Obligations.AssembledLineDecodesToItsInstruction := by
  intro i hi
  have htok : tokens (normalise (assemble i)) = i.opcode.text :: operandTokens i := by
    rw [tokens_normalise_assemble, tokens_assemble]
  have hdiw : (decodeTokens i.opcode ((operandTokens i).length + 1) (operandTokens i)).diw = encodeDiw i := by
    obtain ⟨h1, h2⟩ := classify_operandTokens hi
    rw [decodeTokens_diw, decodeTokens_t1, decodeTokens_t2, h1, h2, Instr.make_opcode]
  refine ⟨_, decodeLine_eq_instr rfl htok (operandTokens_length i), hdiw, ?_, ?_⟩
  · exact decodeTokens_wf _ (operandTokens_length i) (operandTokens_not_lower i)
  · rw [hdiw, decodeOfEncodeIsTheInstruction i hi]

end Sys2Proof.Machine
end

section
/-! PROOF. Operand texts (R72 to R75): how numbers and register-like texts classify, bare and in brackets (O9). -/

namespace Sys2Proof.Machine

/-! ## Numbers (R73, R74) -/

section Numbers
variable {t ds : Text} {v : Int} {n : Nat}

theorem numeric_plus (h : natToken ds = some n) : numeric (0x2B#8 :: ds) = some (n : Int) := by simp [numeric, h]

theorem numeric_minus (h : natToken ds = some n) : numeric (0x2D#8 :: ds) = some (-(n : Int)) := by simp [numeric, h]

theorem numeric_R (r : Text) : numeric (0x52#8 :: r) = none := by simp [numeric, natToken, isDigit]

theorem numeric_bracket (r : Text) : numeric (0x5B#8 :: r) = none := by simp [numeric, natToken, isDigit]

/-- A numeric text begins with neither `R` nor `[`. -/
theorem numeric_head (h : numeric t = some v) : ∃ b r, t = b :: r ∧ b.toNat ≠ 0x52 ∧ b.toNat ≠ 0x5B := by
  cases t with
  | nil => cases h
  | cons b r =>
    refine ⟨b, r, rfl, fun hb => ?_, fun hb => ?_⟩
    · rw [BitVec.eq_of_toNat_eq (y := 0x52#8) hb, numeric_R] at h
      cases h
    · rw [BitVec.eq_of_toNat_eq (y := 0x5B#8) hb, numeric_bracket] at h
      cases h

/-- A bare number is an immediate or too big for one (R74). -/
theorem classify_of_numeric (h : numeric t = some v) : classify t = if immInRange v then .imm v else .numBig := by
  obtain ⟨b, r, rfl, hR, hB⟩ := numeric_head h
  simp [classify, regToken_eq_none hR, bracketed_eq_none hB, classifyBare, h]

/-- A number in brackets, by its value alone (R75). -/
theorem classifyInner_of_numeric (h : numeric t = some v) : classifyInner t =
    if 0 ≤ v then if hv : v.toNat < 64 then .memDir ⟨v.toNat, hv⟩ else .memDirOor else .memDirOor := by
  obtain ⟨b, r, rfl, hR, -⟩ := numeric_head h
  simp [classifyInner, regToken_eq_none hR, rDigits_eq_false hR, h]

theorem classifyInner_of_addr {a : Addr} (h : numeric t = some (a.val : Int)) : classifyInner t = .memDir a := by
  simp [classifyInner_of_numeric h]

theorem classifyInner_of_oor (h : numeric t = some v) (hv : v < 0 ∨ 63 < v) : classifyInner t = .memDirOor := by
  rw [classifyInner_of_numeric h]
  split
  · exact dif_neg (by omega)
  · rfl

end Numbers

/-! ## `R` and digits (R72) -/

section Registers
variable {ds : Text}

theorem regToken_R {k : RegIdx} (h : regToken (0x52#8 :: ds) = some k) : ds.length = 1 ∧ digitsValue ds = k.val := by
  match ds, h with
  | [d], h =>
    simp only [regToken] at h
    split at h
    · split at h
      · cases h
        simp [digitsValue]
      · cases h
    · cases h

theorem classify_R (hr : regToken (0x52#8 :: ds) = none) (hd : rDigits (0x52#8 :: ds) = true) :
    classify (0x52#8 :: ds) = .badReg := by
  simp [classify, hr, bracketed_eq_none (b := 0x52#8) (by decide), classifyBare, numeric_R, hd]

theorem classifyInner_R (hr : regToken (0x52#8 :: ds) = none) (hd : rDigits (0x52#8 :: ds) = true) :
    classifyInner (0x52#8 :: ds) = .badRegInd := by
  simp [classifyInner, hr, hd]

theorem rDigits_R (hne : ds ≠ []) (h : ∀ b ∈ ds, isDigit b = true) : rDigits (0x52#8 :: ds) = true := by
  simpa [rDigits, hne] using h

/-- A leading zero or a number above 7 names no register (R72). -/
theorem regToken_zeros {z n : Nat} (h : 0 < z ∨ 7 < n) :
    regToken (0x52#8 :: (List.replicate z 0x30#8 ++ decText n)) = none := by
  rw [Option.eq_none_iff_forall_ne_some]
  intro k hk
  obtain ⟨hlen, hval⟩ := regToken_R hk
  have hpos := List.length_pos_of_ne_nil (decText_ne_nil n)
  rw [List.length_append, List.length_replicate] at hlen
  rw [digitsValue_zeros] at hval
  omega

end Registers

/-! ## The two kinds of text, bare and in brackets -/

/-- A natural number as a bare text is an immediate up to 32767, negated up to 32768 (R74). -/
theorem classify_nat {t : Text} {n : Nat} (h : numeric t = some (n : Int)) :
    classify t = if n ≤ 32767 then .imm n else .numBig := by
  rw [classify_of_numeric h]
  exact if_congr (by rw [immInRange_iff]; omega) rfl rfl

theorem classify_neg {t : Text} {n : Nat} (h : numeric t = some (-(n : Int))) :
    classify t = if n ≤ 32768 then .imm (-(n : Int)) else .numBig := by
  rw [classify_of_numeric h]
  exact if_congr (by rw [immInRange_iff]; omega) rfl rfl

/-- A negated number in brackets is an address only as `-0` (R73, R75). -/
theorem classifyInner_neg {t : Text} {n : Nat} (h : numeric t = some (-(n : Int))) :
    classifyInner t = if n = 0 then .memDir 0 else .memDirOor := by
  split
  next hn =>
    subst hn
    exact classifyInner_of_addr (a := 0) h
  next hn => exact classifyInner_of_oor h (by omega)

/-- Settles O9: digits with leading zeros spell their number (`natToken_zeros`), bare or signed; numbers classify by range,
register-like texts by `regToken_zeros`; and BADTOK is what is left (`classify_badTok`). -/
theorem operandTextsClassifyByValue : Obligations.OperandTextsClassifyByValue := by
  refine ⟨rfl, by decide, classify_badTok, fun z n => ?_⟩
  intro ds
  have hnat : natToken ds = some n := natToken_zeros z n
  have hbare : numeric ds = some (n : Int) := numeric_zeros z n
  have hplus := numeric_plus hnat
  have hminus := numeric_minus hnat
  refine ⟨classify_nat hbare, classify_nat hplus, classify_neg hminus, fun a ha => ?_, fun hn => ?_, ?_, fun h => ?_⟩
  · subst ha
    exact ⟨(classify_brackets ds).trans (classifyInner_of_addr hbare),
      (classify_brackets (_ :: ds)).trans (classifyInner_of_addr hplus)⟩
  · exact ⟨(classify_brackets ds).trans (classifyInner_of_oor hbare (by omega)),
      (classify_brackets (_ :: ds)).trans (classifyInner_of_oor hplus (by omega))⟩
  · exact (classify_brackets (_ :: ds)).trans (classifyInner_neg hminus)
  · have hreg : regToken (0x52#8 :: ds) = none := regToken_zeros h
    have hdig : rDigits (0x52#8 :: ds) = true := rDigits_R (by simp [ds, decText_ne_nil]) (zeros_isDigit z n)
    exact ⟨classify_R hreg hdig, (classify_brackets (_ :: ds)).trans (classifyInner_R hreg hdig)⟩

end Sys2Proof.Machine
end

section
/-! PROOF. Every step proceeds (O57): no line gives a reserved word (R77), and a wait has an INPUT pending (R183). -/

namespace Sys2Proof.Machine

/-- A word with a meaning is executed to its end, or to a wait (R103, R110). -/
theorem instrTransaction_proceeds {d : Decoded} {i : Instr} (h : decodeDiw d.diw = some i) (s : State) :
    Proceeds (instrTransaction d s) := by
  obtain ⟨t, ht⟩ := exec_proceeds i (s.beginInstr i.opcode d)
  exact ⟨t.settle, by simp [instrTransaction, executeDiw, h, ht]⟩

/-- A consumed line is no instruction, a fatal error, or an instruction with a meaning (R102). -/
theorem consumeLine_proceeds (l : Text) (s : State) : Proceeds (consumeLine l s) := by
  unfold consumeLine
  cases hd : decodeLine s.cfg.lineMax l with
  | noInstr => exact ⟨_, rfl⟩
  | fatal c => exact ⟨_, rfl⟩
  | instr d =>
    obtain ⟨i, hi⟩ := decodeDiw_of_decodeLine hd
    exact instrTransaction_proceeds hi _

theorem lineCycle_proceeds (s : State) : Proceeds (lineCycle s) := by
  unfold lineCycle
  cases s.src with
  | nil => exact ⟨_, rfl⟩
  | cons a rest =>
    cases a with
    | line l => exact consumeLine_proceeds l _
    | eof => exact ⟨_, rfl⟩
    | missing => exact ⟨_, rfl⟩

theorem resumeInput_proceeds {s : State} (h : s.pendingInput.isSome = true) : Proceeds (resumeInput s) := by
  obtain ⟨k, hk⟩ := Option.isSome_iff_exists.mp h
  unfold resumeInput
  rw [hk]
  cases s.inp <;> exact ⟨_, rfl⟩

/-- From the invariant the core's own action proceeds: a wait has its INPUT, and the rest never stops. -/
theorem coreStep_proceeds {s : State} (hs : StateInv s = true) : Proceeds (coreStep s) := by
  unfold coreStep
  cases hr : s.runState with
  | waitInput =>
    obtain ⟨-, -, hpend, -⟩ := (inv_of_waiting hr).mp hs
    exact resumeInput_proceeds hpend
  | halted => simp only; split <;> exact ⟨_, rfl⟩
  | running =>
    simp only
    split
    · exact lineCycle_proceeds s
    · exact ⟨_, rfl⟩

/-- Settles O57: what lands is taken in every state, and the invariant, which does not look at the host's lists
(`inv_congr_host`), lets the core's own action proceed. -/
theorem everyStepProceeds : Obligations.EveryStepProceeds := by
  intro s hs
  have hcore : ∀ rest, Proceeds (coreStep { s with async := rest }) := fun rest =>
    coreStep_proceeds ((inv_congr_host s s.src s.inp rest).trans hs)
  unfold step runStep
  cases s.async with
  | nil => exact coreStep_proceeds hs
  | cons a rest =>
    cases a with
    | quiet => exact hcore rest
    | rstDuring n =>
      obtain ⟨t, ht⟩ := hcore rest
      simp only [ht]
      exact ⟨_, rfl⟩
    | _ => exact ⟨_, rfl⟩

end Sys2Proof.Machine
end

section
/-! PROOF. The operand resolver's tables (R81 to R83): register, value and address, kind by kind (O12, O13, O14). -/

namespace Sys2Proof.Machine

/-- A present operand's error names its text (R200). -/
theorem fail_of_present {α : Type} {o : Operand} (h : o ≠ .absent) (code : ErrCode) (t : Text) :
    (fail code o t : Except RecErr α) = .error ⟨code, t⟩ := by
  simp [fail, operandTok, h]

/-- Settles O12, by the kinds of the operand. -/
theorem registerOperandTable : Obligations.RegisterOperandTable := by
  refine fun t => ⟨fun k => rfl, rfl, rfl, fun o ha hb hr => ?_⟩
  cases o with
  | absent => exact absurd rfl ha
  | badReg => exact absurd rfl hb
  | reg k => exact absurd rfl (hr k)
  | _ => exact fail_of_present ha _ t

/-- An indirect address is the register's unsigned value where that is an address, and an error elsewhere (R82, R83). -/
theorem indirect_of_eq {s : State} {k : RegIdx} {a : Addr} (h : (s.x.get k).toNat = a.val) (t : Text) :
    indirect s k t = .ok a := by
  have hlt : (s.reg k).toNat < 64 := h.trans_lt a.isLt
  rw [indirect, dif_pos hlt]
  exact congrArg Except.ok (Fin.ext h)

theorem indirect_of_gt {s : State} {k : RegIdx} (h : 63 < (s.x.get k).toNat) (t : Text) :
    indirect s k t = .error ⟨.invalidAddress, t⟩ := by
  have hge : ¬ (s.reg k).toNat < 64 := Nat.not_lt.mpr h
  rw [indirect, dif_neg hge, fail_of_present (by simp)]

/-- Settles O13: the table row by row, with the indirect cell by its address (`indirect_of_eq`, `indirect_of_gt`). -/
theorem valueOperandTable : Obligations.ValueOperandTable := by
  refine fun s t => ⟨fun k => rfl, fun v => rfl, fun a => rfl, fun k h => ?_, fun k h => ?_,
    rfl, rfl, rfl, rfl, rfl, rfl⟩
  · rw [value, indirect_of_eq (a := ⟨(s.x.get k).toNat, Nat.lt_succ_of_le h⟩) rfl]
    rfl
  · rw [value, indirect_of_gt h]
    rfl

/-- A bare number in 0..63 is a direct address, and any other is an error (R83). -/
theorem address_imm_of_eq (s : State) {v : Int} {a : Addr} (h : v = a.val) (t : Text) :
    address s (.imm v) t = .ok a := by
  subst h
  simp [address]

theorem address_imm_of_oor (s : State) {v : Int} (h : v < 0 ∨ 63 < v) (t : Text) :
    address s (.imm v) t = .error ⟨.invalidAddress, t⟩ := by
  rw [address, fail_of_present (by simp)]
  split
  · exact dif_neg (by omega)
  · rfl

/-- Settles O14: the table row by row, with the indirect and the bare address by their ranges. -/
theorem addressOperandTable : Obligations.AddressOperandTable :=
  fun s t => ⟨fun _ => rfl, fun _ _ h => indirect_of_eq h t, fun _ h => indirect_of_gt h t,
    fun _ _ h => address_imm_of_eq s h t, fun _ h => address_imm_of_oor s h t,
    rfl, rfl, rfl, fun _ => rfl, rfl, rfl, rfl⟩

end Sys2Proof.Machine
end

section
/-! PROOF. The flag unit and the wide results (O10, O16), and recoverable errors (O38). -/

namespace Sys2Proof.Machine

/-! ## The flag unit (R104) -/

/-- Settles O10: each flag is its comparison (`deriveFlags_o` and its like), and no integer is on two sides. -/
theorem flagUnitFollowsTheWideResult : Obligations.FlagUnitFollowsTheWideResult := by
  intro w
  simp only [deriveFlags_o, deriveFlags_u, deriveFlags_c, deriveFlags_z, gt_iff_lt, Bool.or_eq_true, decide_eq_true_eq,
    Bool.or_eq_false_iff, decide_eq_false_iff_not, true_and]
  refine ⟨?_, ?_⟩ <;> omega

/-! ## Wide results (R105) -/

/-- The paired operands of a binary instruction: a register's value, and a value in the immediate range (R130). -/
theorem pair_range {s : State} {o1 o2 : Operand} {p : Paired} (h1 : o1.wf = true) (h2 : o2.wf = true)
    (h : pair s o1 o2 = .ok p) : (-128 ≤ p.t ∧ p.t ≤ 127) ∧ (-32768 ≤ p.s ∧ p.s ≤ 32767) := by
  obtain ⟨q, hq, hv, -, -, ht, -⟩ := pair_ok h
  have hwf : q.so.wf = true := by
    rcases pairing_ok hq with ⟨-, hso, -⟩ | ⟨-, -, hso, -⟩ <;> rw [hso] <;> assumption
  exact ⟨ht ▸ s8_range _, value_range hwf hv⟩

/-- The product of a byte and an immediate is smallest and largest at corners of their ranges. -/
theorem mul_range {t s : Int} (ht : -128 ≤ t ∧ t ≤ 127) (hs : -32768 ≤ s ∧ s ≤ 32767) :
    -4194176 ≤ t * s ∧ t * s ≤ 4194304 := by
  constructor <;> nlinarith

/-- INPUT takes an integer in the immediate range only (R182). -/
theorem inputInt_range {b : Text} {v : Int} (h : inputInt b = some v) : -32768 ≤ v ∧ v ≤ 32767 := by
  unfold inputInt at h
  split at h
  · split at h
    next hv => cases h; exact immInRange_iff.mp hv
    · cases h
  · cases h

/-- R105 for a value in the immediate range. -/
theorem wide_fits_of_imm {w : Int} (h : -32768 ≤ w ∧ w ≤ 32768) :
    -4194176 ≤ w ∧ w ≤ 4194304 ∧ (BitVec.ofInt 32 w).toInt = w :=
  wide_fits (by omega) (by omega)

/-- R106, R108: the results of ADD, SUB, MUL and DIV on paired operands. -/
theorem binary_wide_fits (r : DivRounding) {t s w : Int} (ht : -128 ≤ t ∧ t ≤ 127) (hs : -32768 ≤ s ∧ s ≤ 32767)
    (hw : w = t + s ∨ w = t - s ∨ w = t * s ∨ (t ≠ 0 ∧ w = aluDiv r t s)) :
    -4194176 ≤ w ∧ w ≤ 4194304 ∧ (BitVec.ofInt 32 w).toInt = w := by
  rcases hw with rfl | rfl | rfl | ⟨h0, rfl⟩
  · exact wide_fits (by omega) (by omega)
  · exact wide_fits (by omega) (by omega)
  · obtain ⟨hlo, hhi⟩ := mul_range ht hs
    exact wide_fits hlo hhi
  · obtain ⟨hlo, hhi⟩ := hs
    exact wide_fits_of_imm (aluDiv_bounds r t s h0 hlo hhi)

/-- R106: the unsigned result of a rotate or shift is a byte. -/
theorem rotShift_wide_fits {u c : Nat} (hu : u < 256) {w : Int}
    (hw : w = (((u <<< c) ||| (u >>> (8 - c))) % 256 : Nat) ∨ w = (((u >>> c) ||| (u <<< (8 - c))) % 256 : Nat) ∨
      w = ((u <<< c) % 256 : Nat) ∨ w = (u >>> c : Nat)) :
    0 ≤ w ∧ w ≤ 255 ∧ -4194176 ≤ w ∧ w ≤ 4194304 ∧ (BitVec.ofInt 32 w).toInt = w := by
  have hshr : u >>> c < 256 := (Nat.shiftRight_le u c).trans_lt hu
  have hbyte : 0 ≤ w ∧ w ≤ 255 := by
    rcases hw with rfl | rfl | rfl | rfl
    · omega
    · omega
    · omega
    · exact ⟨Int.natCast_nonneg _, Int.ofNat_le.mpr (Nat.le_of_lt_succ hshr)⟩
  exact ⟨hbyte.1, hbyte.2, wide_fits_of_imm (by omega)⟩

/-- Settles O16: a byte's value, an immediate and a numeric token are small, and the results computed from two of them are
bounded by `binary_wide_fits` and `rotShift_wide_fits`. -/
theorem wideResultsNeverWrap : Obligations.WideResultsNeverWrap := by
  refine ⟨fun s o1 o2 p h1 h2 hp w hw => ?_, fun s k w hw => ?_, fun s o t w ho hv => ?_, fun b w hb => ?_,
    fun s a w hw => ?_, fun s k v w hw => rotShift_wide_fits (s.x.get k).isLt hw⟩
  · obtain ⟨ht, hs⟩ := pair_range h1 h2 hp
    exact binary_wide_fits _ ht hs hw
  · have := s8_range (s.reg k)
    exact wide_fits_of_imm (by rw [State.regVal] at hw; omega)
  · have := value_range ho hv
    exact wide_fits_of_imm (by omega)
  · have := inputInt_range hb
    exact wide_fits_of_imm (by omega)
  · have := s8_range (Memory.read s.mem a.val)
    exact wide_fits_of_imm (by rw [s8, ← hw] at this; omega)

/-! ## Recoverable errors (R110) -/

/-- An instruction that sends a trace line, a diagnostic or DISPLAY's value, writes no register, cell or flag. -/
theorem exec_sends_no_trace_or_keeps {i : Instr} {s t : State} (h : exec i s = .next t) :
    (∃ m, t.out = s.out ++ m ∧ ∀ l, Output.trace l ∉ m) ∨
    (t.x = s.x ∧ t.mem = s.mem ∧ t.flags = s.flags ∧ t.pc = s.pc ∧ t.runState = s.runState ∧ t.haltCause = s.haltCause) := by
  have hnone : ∀ o : List Output, ∃ m, o = o ++ m ∧ ∀ l, Output.trace l ∉ m := fun o => ⟨[], by simp, by simp⟩
  rcases exec_cases h with rfl | ⟨e, rfl⟩ | ⟨k, w, -, rfl, -⟩ | ⟨k, o2, a, -, -, rfl⟩ | ⟨k, o2, -, rfl⟩ | ⟨k, o2, -, rfl⟩
  case inr.inr.inl => exact .inl (hnone _)
  case inr.inr.inr.inl => exact .inl (hnone _)
  case inr.inr.inr.inr.inl =>
    have hasked : ∀ l, Output.trace l ∉ [Output.nextToken] := by simp
    rcases requestInput_cases k s with ⟨-, hr⟩ | ⟨e, hr⟩ | ⟨v, hr⟩ <;> rw [hr]
    · exact .inl ⟨[.nextToken], rfl, hasked⟩
    · exact .inr ⟨rfl, rfl, rfl, rfl, rfl, rfl⟩
    · exact .inl ⟨[.nextToken], rfl, hasked⟩
  all_goals exact .inr ⟨rfl, rfl, rfl, rfl, rfl, rfl⟩

/-- Settles O38: a diagnostic is a trace line, and an instruction that sends one keeps all of these (`exec_sends_no_trace_or_keeps`). -/
theorem recoverableErrorWritesNothing : Obligations.RecoverableErrorWritesNothing := by
  intro i s t l h hmem
  rcases exec_sends_no_trace_or_keeps h with ⟨m, hout, hno⟩ | hkeep
  · rw [hout, List.drop_left] at hmem
    exact absurd hmem (hno _)
  · exact hkeep

end Sys2Proof.Machine
end

section
/-! PROOF. The line cycle: a decoded instruction (O45), a line without one and END (O46), and fatal errors (O47). -/

namespace Sys2Proof.Machine

/-! ## Taking the loader's answer (R102) -/

/-- The state in which the step takes the loader's answer: the landing is used up, and the request sent and answered. -/
def State.answeredNow (s : State) (rest : List SrcAnswer) : State :=
  { s with async := s.async.tail, src := rest, lineReq := false, out := s.out ++ lineRequest s }

theorem State.answered_afterQuiet (s : State) (rest : List SrcAnswer) :
    (afterQuiet s).answered rest = s.answeredNow rest := by
  rw [State.answered, State.requestLine_eq]
  rfl

section
variable {s : State} {rest : List SrcAnswer}

theorem step_of_no_answer (hc : CoreActs s) (hd : LineDue s) (h : s.src = []) : step s = .next { s with
    async := s.async.tail, lineReq := true, out := s.out ++ lineRequest s } := by
  have hs : (afterQuiet s).src = [] := h
  rw [step_of_lineDue s hc hd, lineCycle, hs]
  exact congrArg _ (State.requestLine_eq _)

theorem step_of_answer {a : SrcAnswer} (hc : CoreActs s) (hd : LineDue s) (h : s.src = a :: rest) :
    step s = takeAnswer a (s.answeredNow rest) := by
  have hs : (afterQuiet s).src = a :: rest := h
  rw [step_of_lineDue s hc hd, lineCycle, hs, ← State.answered_afterQuiet]
  rfl

end

/-! ## Consuming a line (R102) -/

section
variable {s : State} {l : Text}

theorem consumeLine_of_noInstr (h : decodeLine s.cfg.lineMax l = .noInstr) :
    consumeLine l s = .next { s with pc := s.pc + 1 } := by
  simp only [consumeLine, h]

theorem consumeLine_of_fatal {c : HaltCause} (h : decodeLine s.cfg.lineMax l = .fatal c) :
    consumeLine l s = .next (State.raiseFatal { s with pc := s.pc + 1 } c) := by
  simp only [consumeLine, h]

/-- The transaction is the instruction between its begin and its end (R103). -/
theorem consumeLine_of_exec {d : Decoded} {i : Instr} {t : State} (h : decodeLine s.cfg.lineMax l = .instr d)
    (hi : decodeDiw d.diw = some i) (ht : exec i (State.beginInstr { s with pc := s.pc + 1 } i.opcode d) = .next t) :
    consumeLine l s = .next t.settle := by
  simp only [consumeLine, h, instrTransaction, executeDiw, hi, ht]

end

/-! ## The instruction transaction (R103) -/

theorem headerLine_eq (pc : BitVec 32) (op : Opcode) (d : Decoded) :
    headerLine pc op d = ascii "Step " ++ decText pc.toNat ++ ascii ": " ++ op.text ++
      (if 2 ≤ d.ntok then ascii " " ++ d.t1 else []) ++ (if d.ntok = 3 then ascii ", " ++ d.t2 else []) := by
  simp only [headerLine, ascii_space, List.append_assoc, List.cons_append, List.nil_append]

theorem State.settle_of_waiting {t : State} (h : t.runState = .waitInput) : t.settle = t := if_pos h

/-- The end of a transaction compares memory with the snapshot its instruction has kept. -/
theorem State.settle_of_not_waiting {t : State} {m : Memory} (h : t.runState ≠ .waitInput) (hp : t.pre = some m) :
    t.settle = { t with
      decoded := none, pre := none,
      out := t.out ++ (registerLine t.cfg.radix t.x :: diffLines t.cfg.radix m t.mem).map .trace } := by
  have hm : t.snapshot = m := by simp only [State.snapshot, hp]
  rw [State.settle, if_neg h, State.endInstr, hm]
  rfl

/-- Settles O45: the answer is taken, the line counted and its instruction begun; `exec` keeps the snapshot, and the
transaction ends unless INPUT waits. -/
theorem stepRunsTheDecodedInstruction : Obligations.StepRunsTheDecodedInstruction := by
  intro s l rest d i hc hd hsrc hl hi header s1 t ht
  have hbegin : s1 = State.beginInstr { s.answeredNow rest with pc := s.pc + 1 } i.opcode d := by
    rw [State.beginInstr, headerLine_eq]
    rfl
  have hstep : step s = .next t.settle := by
    rw [step_of_answer hc hd hsrc]
    exact consumeLine_of_exec hl hi (hbegin ▸ ht)
  obtain ⟨hpre, -⟩ := exec_keeps_transient ht
  rw [hstep]
  exact ⟨fun hw => by rw [State.settle_of_waiting hw], fun hw => by rw [State.settle_of_not_waiting hw hpre]⟩

/-! ## Lines without an instruction, END, and waiting (R102, R235) -/

/-- Settles O46: one equation for each answer, and the landing of an answer to the outstanding request. -/
theorem lineCycleWithoutInstruction : Obligations.LineCycleWithoutInstruction := by
  refine fun s hd => ⟨fun hc => ⟨fun rest h => ?_, fun l rest h hl => ?_, step_of_no_answer hc hd⟩, fun a rest hq h ha => ?_⟩
  · exact step_of_answer hc hd h
  · exact (step_of_answer hc hd h).trans (consumeLine_of_noInstr hl)
  · simp only [step, runStep, ha]
    rw [State.landLine_taken { s with async := rest } a hq h]

/-! ## Fatal errors (R109, R195) -/

/-- The decoder's fatal causes (R214). -/
theorem decodeLine_fatal_cases {lm : Option Nat} {l : Text} {c : HaltCause} (h : decodeLine lm l = .fatal c) :
    c = .tooManyTokens ∨ c = .unknownOpcode ∨ c = .lineTooLong := by
  unfold decodeLine at h
  split at h
  · cases h; exact .inr (.inr rfl)
  · split at h
    · cases h
    · split at h
      · cases h; exact .inl rfl
      · split at h <;> cases h
        exact .inr (.inl rfl)

/-- Raising a fatal error changes the run status and sends the fatal line and a dump (R109). -/
theorem State.raiseFatal_eq (s : State) (c : HaltCause) :
    s.raiseFatal c = { s with
      runState := .halted, haltCause := c,
      out := s.out ++ [.trace (fatalLine c s.pc), .dump (dumpRecord s)] } := by
  simp [State.raiseFatal, State.emit, dumpRecord]

/-- Settles O47: the fatal line is that of one of the decoder's three causes (`decodeLine_fatal_cases`), or MISSING's. -/
theorem fatalErrorReportsDumpsAndHalts : Obligations.FatalErrorReportsDumpsAndHalts := by
  refine fun s rest hc hd => ⟨fun l c h hl => ?_, fun h => ?_⟩
  · have hl' : decodeLine (s.answeredNow rest).cfg.lineMax l = .fatal c := hl
    rw [step_of_answer hc hd h, takeAnswer, consumeLine_of_fatal hl', State.raiseFatal_eq]
    rcases decodeLine_fatal_cases hl with rfl | rfl | rfl
    · exact ⟨"TOO_MANY_TOKENS", .inl ⟨rfl, rfl⟩, rfl⟩
    · exact ⟨"UNKNOWN_OPCODE", .inr (.inl ⟨rfl, rfl⟩), rfl⟩
    · exact ⟨"LINE_TOO_LONG", .inr (.inr ⟨rfl, rfl⟩), rfl⟩
  · rw [step_of_answer hc hd h, takeAnswer, State.raiseFatal_eq]
    rfl

end Sys2Proof.Machine
end

section
/-! PROOF. Dumps on demand (O50), and the halted core (O49). -/

namespace Sys2Proof.Machine

/-! ## Serving and holding a dump request (R116) -/

section
variable {s : State}

/-- At a boundary, between line cycles or halted, a held request is served. -/
theorem coreStep_serves (hd : 0 < s.dumpPending)
    (hb : (s.runState = .running ∧ s.lineReq = false) ∨ s.runState = .halted) : coreStep s = .next s.serveDump := by
  have h0 : s.dumpPending ≠ 0 := by omega
  rcases hb with ⟨hr, hl⟩ | hr
  · simp [coreStep, hr, hl, h0]
  · simp [coreStep, hr, h0]

/-- In a line cycle that has no answer yet nothing happens. -/
theorem coreStep_of_outstanding_line (hr : s.runState = .running) (hl : s.lineReq = true) (hs : s.src = []) :
    coreStep s = .next s := by
  rw [coreStep_of_lineDue s ⟨hr, .inr hl⟩, lineCycle, hs]
  exact congrArg _ (if_pos hl)

/-- In a wait that has no answer yet nothing happens (R183). -/
theorem coreStep_of_waiting (hi : StateInv s = true) (hr : s.runState = .waitInput) (hs : s.inp = []) :
    coreStep s = .next s := by
  obtain ⟨-, -, hp, -⟩ := (inv_of_waiting hr).mp hi
  obtain ⟨k, hk⟩ := Option.isSome_iff_exists.mp hp
  simp only [coreStep, hr, resumeInput, hk, hs]

end

/-- Settles O50: the landing, then the three places in which the core may be. -/
theorem dumpOnDemandAtABoundaryOnly : Obligations.DumpOnDemandAtABoundaryOnly := by
  refine fun s => ⟨fun rest ha => ?_, fun hc hd => ⟨fun hb => ?_, fun hr hl hs => ?_, fun hi hr hs => ?_⟩⟩
  · simp only [step, runStep, ha]
  · rw [step_of_coreActs s hc]
    exact coreStep_serves (s := afterQuiet s) hd hb
  · rw [step_of_coreActs s hc]
    exact coreStep_of_outstanding_line (s := afterQuiet s) hr hl hs
  · rw [step_of_coreActs s hc]
    exact coreStep_of_waiting (s := afterQuiet s) hi hr hs

/-! ## A halted core (R115) -/

/-- The state with other landings to come and other requests held, after `sent` dumps of it. -/
def State.dumped (s : State) (async : List AsyncInput) (held sent : Nat) : State :=
  { s with async := async, dumpPending := held, out := s.out ++ List.replicate sent (.dump (dumpRecord s)) }

theorem State.dumped_zero (s : State) (async : List AsyncInput) (held : Nat) :
    s.dumped async held 0 = { s with async := async, dumpPending := held } := by
  simp [State.dumped]

/-- Dumps of the state after dumps are dumps of the same state. -/
theorem State.dumped_dumped (s : State) (async async' : List AsyncInput) (held held' sent sent' : Nat) :
    (s.dumped async held sent).dumped async' held' sent' = s.dumped async' held' (sent + sent') := by
  simp only [State.dumped, List.replicate_add, List.append_assoc]
  rfl

/-- No reset lands. -/
def NoReset (l : List AsyncInput) : Prop := ∀ e ∈ l, e ≠ .rst ∧ ∀ m, e ≠ .rstDuring m

theorem NoReset.tail {l : List AsyncInput} (h : NoReset l) : NoReset l.tail :=
  fun e he => h e (List.mem_of_mem_tail he)

theorem count_dumpReq_take_one {l : List AsyncInput} (h : ∀ rest, l ≠ .dumpReq :: rest) :
    (l.take 1).count .dumpReq = 0 := by
  cases l with
  | nil => rfl
  | cons e rest =>
    have he : e ≠ .dumpReq := fun he => h rest (he ▸ rfl)
    exact List.count_eq_zero.mpr (by simpa using he.symm)

/-- One step of a halted core uses up a landing; a request that it held or that lands is held or served (R115, R116). -/
theorem step_halted {s : State} (hi : StateInv s = true) (hh : s.runState = .halted) (ha : NoReset s.async) :
    ∃ held sent, step s = .next (s.dumped s.async.tail held sent) ∧
      held + sent = s.dumpPending + (s.async.take 1).count .dumpReq := by
  rcases step_of_halted hi hh ha with ⟨rest, hs, h⟩ | ⟨hn, h⟩ | ⟨hn, hd, h⟩
  · refine ⟨s.dumpPending + 1, 0, ?_, ?_⟩
    · rw [h, State.dumped_zero, hs]
      rfl
    · simp [hs]
  · refine ⟨s.dumpPending, 0, ?_, ?_⟩
    · rw [h, State.dumped_zero]
      rfl
    · rw [count_dumpReq_take_one hn]
  · refine ⟨s.dumpPending - 1, 1, h, ?_⟩
    rw [count_dumpReq_take_one hn]
    omega

/-- The first landing and those of the steps after it. -/
theorem count_take_succ (l : List AsyncInput) (n : Nat) :
    (l.take (n + 1)).count .dumpReq = (l.take 1).count .dumpReq + (l.tail.take n).count .dumpReq := by
  cases l with
  | nil => simp
  | cons e rest => simp [List.count_cons, Nat.add_comm]

/-- Any number of steps of a halted core, by induction on the steps: the state after one is the state itself but for the
landings, the held requests and the dumps. -/
theorem run_halted (n : Nat) : ∀ {s : State}, StateInv s = true → s.runState = .halted → NoReset s.async →
    ∃ held sent, Host.Core.run Sys2Proof.core n s = .next (s.dumped (s.async.drop n) held sent) ∧
      held + sent = s.dumpPending + (s.async.take n).count .dumpReq := by
  induction n with
  | zero =>
    intro s _ _ _
    exact ⟨s.dumpPending, 0, by rw [State.dumped_zero]; rfl, by simp⟩
  | succ n ih =>
    intro s hi hh ha
    obtain ⟨held, sent, hstep, hsum⟩ := step_halted hi hh ha
    obtain ⟨held', sent', hrun, hsum'⟩ := ih (s := s.dumped s.async.tail held sent) hi hh ha.tail
    refine ⟨held', sent + sent', ?_, ?_⟩
    · rw [run_succ Sys2Proof.core n s _ hstep, hrun, State.dumped_dumped, ← List.drop_tail]
      rfl
    · have hheld : held' + sent' = held + (s.async.tail.take n).count .dumpReq := hsum'
      rw [count_take_succ]
      omega

/-- Settles O49, by `run_halted`: without a request, held or landing, there is no dump. -/
theorem haltedCoreStaysHalted : Obligations.HaltedCoreStaysHalted := by
  intro s n hi hh ha
  obtain ⟨held, sent, hrun, hsum⟩ := run_halted n hi hh ha
  refine ⟨fun hd hno => ?_, held, sent, hrun, hsum⟩
  have hcount : (s.async.take n).count .dumpReq = 0 :=
    List.count_eq_zero.mpr fun hmem => hno _ (List.mem_of_mem_take hmem) rfl
  obtain ⟨rfl, rfl⟩ : held = 0 ∧ sent = 0 := by omega
  rw [hrun, State.dumped_zero, ← hd]

end Sys2Proof.Machine
end

section
/-! PROOF. The arithmetic family: the pairing of a destination and a source (O15), ADD, SUB, MUL and DIV (O17 to O20), and
INC and DEC (O21, O22). -/

namespace Sys2Proof.Machine

variable {s : State} {o1 o2 : Operand}

/-! ## The pairing (R130) -/

theorem pairing_reg_second (k : RegIdx) (o1 : Operand) (t1 t2 : Text) :
    pairing o1 t1 (.reg k) t2 = .ok { dst := k, dtok := t2, so := o1, st := t1 } := rfl

theorem pairing_reg_first (h2 : ∀ j, o2 ≠ .reg j) (k : RegIdx) (t1 t2 : Text) :
    pairing (.reg k) t1 o2 t2 = .ok { dst := k, dtok := t1, so := o2, st := t2 } := by
  cases o2 with
  | reg j => exact absurd rfl (h2 j)
  | _ => rfl

theorem pairing_no_reg (h2 : ∀ j, o2 ≠ .reg j) (h1 : ∀ j, o1 ≠ .reg j) (t1 t2 : Text) :
    pairing o1 t1 o2 t2 = fail .noRegisterOperand o1 t1 := by
  unfold pairing
  split
  next j => exact absurd rfl (h2 j)
  · split
    next j => exact absurd rfl (h1 j)
    · rfl

/-- `pair` adds the two values to the pairing, or raises the error of either. -/
theorem pair_of_pairing {q : Pairing} {v : Int} (hq : pairing o1 s.text1 o2 s.text2 = .ok q)
    (hv : value s q.so q.st = .ok v) :
    pair s o1 o2 = .ok { dst := q.dst, dtok := q.dtok, t := s.regVal q.dst, s := v, st := operandTok q.so q.st } := by
  simp only [pair, hq, hv]

theorem pair_of_value_error {q : Pairing} {e : RecErr} (hq : pairing o1 s.text1 o2 s.text2 = .ok q)
    (hv : value s q.so q.st = .error e) : pair s o1 o2 = .error e := by
  simp only [pair, hq, hv]

theorem pair_of_pairing_error {e : RecErr} (hq : pairing o1 s.text1 o2 s.text2 = .error e) : pair s o1 o2 = .error e := by
  simp only [pair, hq]

/-! ## The shared operations: one equation for each way they end (R107, R110, R113) -/

section
variable {op : Opcode} {f : Paired → Except RecErr Int} {p : Paired} {e : RecErr} {m : String}

theorem binary_of_result {w : Int} (hp : pair s o1 o2 = .ok p) (hf : f p = .ok w) :
    binary op f o1 o2 s = .next (afterWrite s p.dst w) := by
  simp only [binary, hp, hf, complete, writeBack_eq_afterWrite]

theorem binary_of_error (hm : op.text = ascii m) (hp : pair s o1 o2 = .ok p) (hf : f p = .error e) :
    binary op f o1 o2 s = .next (afterError s m e) := by
  simp only [binary, hp, hf, complete, recover_eq_afterError s op e m hm]

theorem binary_of_pair_error (hm : op.text = ascii m) (hp : pair s o1 o2 = .error e) :
    binary op f o1 o2 s = .next (afterError s m e) := by
  simp only [binary, hp, complete, recover_eq_afterError s op e m hm]

/-- An operation whose result is never an error ends as the pairing does. -/
theorem binary_of_total (hm : op.text = ascii m) (g : Paired → Int) :
    (∀ p, pair s o1 o2 = .ok p → binary op (fun p => .ok (g p)) o1 o2 s = .next (afterWrite s p.dst (g p))) ∧
    (∀ e, pair s o1 o2 = .error e → binary op (fun p => .ok (g p)) o1 o2 s = .next (afterError s m e)) :=
  ⟨fun _ hp => binary_of_result hp rfl, fun _ he => binary_of_pair_error hm he⟩

end

theorem unary_reg (f : Int → Int) (k : RegIdx) (s : State) :
    unary f (.reg k) s = .next (afterWrite s k (f (s.regVal k))) :=
  congrArg Host.Outcome.next (writeBack_eq_afterWrite s k _)

theorem unary_of_not_reg (f : Int → Int) (h : ∀ k, o1 ≠ .reg k) (s : State) : unary f o1 s = .next s := by
  cases o1 with
  | reg k => exact absurd rfl (h k)
  | _ => rfl

/-! ## DIV's checks and quotient (R134, R108) -/

section
variable {r : DivRounding} {p : Paired}

theorem divide_of_source_zero (hs : p.s = 0) : divide r p = .error ⟨.divideByZero, p.st⟩ := if_pos hs

theorem divide_of_destination_zero (hs : p.s ≠ 0) (ht : p.t = 0) : divide r p = .error ⟨.divideByZero, p.dtok⟩ := by
  rw [divide, if_neg hs, if_pos ht]

theorem divide_of_ne_zero (hs : p.s ≠ 0) (ht : p.t ≠ 0) : divide r p = .ok (aluDiv r p.t p.s) := by
  rw [divide, if_neg hs, if_neg ht]

end

/-- R108: the quotient toward zero has the signs' product and the floor of the magnitudes' quotient. -/
theorem aluDiv_towardZero (t s : Int) :
    aluDiv .towardZero t s = s.sign * t.sign * ((s.natAbs / t.natAbs : Nat) : Int) := tdiv_eq s t

theorem aluDiv_floor (t s : Int) : aluDiv .floor t s = ⌊(s : ℚ) / (t : ℚ)⌋ := fdiv_eq_floor s t

/-! ## The six instructions by their shared operation (R131 to R136) -/

theorem exec_add (o1 o2 : Operand) (s : State) :
    exec (.add o1 o2) s = binary .add (fun p => .ok (p.t + p.s)) o1 o2 s := rfl

theorem exec_sub (o1 o2 : Operand) (s : State) :
    exec (.sub o1 o2) s = binary .sub (fun p => .ok (p.t - p.s)) o1 o2 s := rfl

theorem exec_mul (o1 o2 : Operand) (s : State) :
    exec (.mul o1 o2) s = binary .mul (fun p => .ok (p.t * p.s)) o1 o2 s := rfl

theorem exec_div (o1 o2 : Operand) (s : State) :
    exec (.div o1 o2) s = binary .div (divide s.cfg.divRounding) o1 o2 s := rfl

theorem exec_inc (o1 o2 : Operand) (s : State) : exec (.inc o1 o2) s = unary (fun t => t + 1) o1 s := rfl

theorem exec_dec (o1 o2 : Operand) (s : State) : exec (.dec o1 o2) s = unary (fun t => t - 1) o1 s := rfl

/-! ## The statements -/

open Laws.DiwOpcode (opc_encode)

/-- Settles O20: DIV ends as `divide` does, by its two zero checks in order and then by the quotient of the machine's
rounding. -/
theorem divWritesSourceOverDestination : Obligations.DivWritesSourceOverDestination := by
  intro s o1 o2
  rw [exec_div]
  refine ⟨opc_encode _, fun e he => binary_of_pair_error rfl he, fun p hp => ⟨fun hs => ?_, fun hs ht => ?_,
    fun hs ht hr => ?_, fun hs ht hr => ?_⟩⟩
  · exact binary_of_error rfl hp (divide_of_source_zero hs)
  · exact binary_of_error rfl hp (divide_of_destination_zero hs ht)
  · rw [← aluDiv_towardZero, ← hr]
    exact binary_of_result hp (divide_of_ne_zero hs ht)
  · rw [← aluDiv_floor, ← hr]
    exact binary_of_result hp (divide_of_ne_zero hs ht)

/-- Settles O15: `pair` follows the pairing, which is one of three by which operand is a register. -/
theorem pairingPrefersOperandTwo : Obligations.PairingPrefersOperandTwo := by
  intro s o1 o2
  refine ⟨?_, ?_, fun h2 h1 => pair_of_pairing_error (pairing_no_reg h2 h1 _ _)⟩
  · rintro k rfl
    have hq := pairing_reg_second k o1 s.text1 s.text2
    exact ⟨fun v hv => pair_of_pairing hq hv, fun e he => pair_of_value_error hq he⟩
  · rintro k h2 rfl
    have hq := pairing_reg_first h2 k s.text1 s.text2
    exact ⟨fun v hv => pair_of_pairing hq hv, fun e he => pair_of_value_error hq he⟩

/-- Settles O17, by `binary_of_total` with the sum. -/
theorem addWritesTheSum : Obligations.AddWritesTheSum := by
  intro s o1 o2
  rw [exec_add]
  exact ⟨opc_encode _, binary_of_total rfl _⟩

/-- Settles O18, by `binary_of_total` with the difference. -/
theorem subWritesDestinationMinusSource : Obligations.SubWritesDestinationMinusSource := by
  intro s o1 o2
  rw [exec_sub]
  exact ⟨opc_encode _, binary_of_total rfl _⟩

/-- Settles O19, by `binary_of_total` with the product. -/
theorem mulWritesTheProduct : Obligations.MulWritesTheProduct := by
  intro s o1 o2
  rw [exec_mul]
  exact ⟨opc_encode _, binary_of_total rfl _⟩

/-- Settles O21: a register is written back, any other operand is passed over in silence. -/
theorem incAddsOneOrIsSilent : Obligations.IncAddsOneOrIsSilent := by
  intro s o2
  simp only [exec_inc]
  exact ⟨fun o1 => opc_encode _, fun k => unary_reg _ k s, fun o1 h => unary_of_not_reg _ h s⟩

/-- Settles O22, as O21. -/
theorem decSubtractsOneOrIsSilent : Obligations.DecSubtractsOneOrIsSilent := by
  intro s o2
  simp only [exec_dec]
  exact ⟨fun o1 => opc_encode _, fun k => unary_reg _ k s, fun o1 h => unary_of_not_reg _ h s⟩

end Sys2Proof.Machine
end

section
/-! PROOF. The transfer family: STORE (O25), MOV (O23) and LOAD (O24), and a LOAD after a STORE to the same cell (O33). -/

namespace Sys2Proof.Machine

variable {s : State} {o1 o2 : Operand} {k : RegIdx} {a : Addr} {e : RecErr}

/-! ## One equation for each way an instruction ends (R150 to R152, R110, R113) -/

theorem complete_error {op : Opcode} {m : String} (hm : op.text = ascii m) (s : State) (e : RecErr) :
    complete op s (.error e) = .next (afterError s m e) :=
  congrArg Host.Outcome.next (recover_eq_afterError s op e m hm)

theorem exec_mov_of_not_reg (h : ∀ k, o2 ≠ .reg k) : exec (.mov o1 o2) s = .next s := by
  cases o2 with
  | reg k => exact absurd rfl (h k)
  | _ => rfl

theorem exec_mov_of_value {v : Int} (hv : value s o1 s.text1 = .ok v) :
    exec (.mov o1 (.reg k)) s = .next (afterWrite s k v) := by
  simp only [exec, execMov, hv, complete, writeBack_eq_afterWrite]

theorem exec_mov_of_value_error (he : value s o1 s.text1 = .error e) :
    exec (.mov o1 (.reg k)) s = .next (afterError s "MOV" e) := by
  simp only [exec, execMov, he, complete_error (op := .mov) (m := "MOV") rfl]

/-- A byte fits in a register, so its signed value is written back unchanged and without carry (R151). -/
theorem writeBack_s8 (s : State) (k : RegIdx) (b : Byte) :
    s.writeBack k (s8 b) = s.writeResult k b ⟨false, false, false, decide (b = 0#8)⟩ := by
  obtain ⟨hlo, hhi⟩ := s8_range b
  have hpattern : trunc8 (s8 b) = b := BitVec.ofInt_toInt
  have hzero : s8 b = 0 ↔ b = 0#8 := BitVec.toInt_inj (y := 0#8)
  have hflags : deriveFlags (s8 b) = ⟨false, false, false, decide (b = 0#8)⟩ := by
    simp [deriveFlags, hzero, hlo, hhi]
  rw [State.writeBack_eq, hpattern, hflags]

theorem exec_load_of_register_error (he : reqReg o2 s.text2 = .error e) :
    exec (.load o1 o2) s = .next (afterError s "LOAD" e) := by
  simp only [exec, execLoad, he, complete_error (op := .load) (m := "LOAD") rfl]

theorem exec_load_of_address_error (hk : reqReg o2 s.text2 = .ok k) (he : address s o1 s.text1 = .error e) :
    exec (.load o1 o2) s = .next (afterError s "LOAD" e) := by
  simp only [exec, execLoad, hk, he, complete_error (op := .load) (m := "LOAD") rfl]

theorem exec_load_of_address (hk : reqReg o2 s.text2 = .ok k) (ha : address s o1 s.text1 = .ok a) :
    exec (.load o1 o2) s =
      .next (s.writeResult k (s.memRead a) ⟨false, false, false, decide (s.memRead a = 0#8)⟩) := by
  simp only [exec, execLoad, hk, ha, complete, writeBack_s8]

theorem exec_store_of_register_error (he : reqReg o1 s.text1 = .error e) :
    exec (.store o1 o2) s = .next (afterError s "STORE" e) := by
  simp only [exec, execStore, he, complete_error (op := .store) (m := "STORE") rfl]

theorem exec_store_of_address_error (hk : reqReg o1 s.text1 = .ok k) (he : address s o2 s.text2 = .error e) :
    exec (.store o1 o2) s = .next (afterError s "STORE" e) := by
  simp only [exec, execStore, hk, he, complete_error (op := .store) (m := "STORE") rfl]

theorem exec_store_of_address (hk : reqReg o1 s.text1 = .ok k) (ha : address s o2 s.text2 = .ok a) :
    exec (.store o1 o2) s = .next (s.memWrite a (s.reg k)) := by
  simp only [exec, execStore, hk, ha, complete]

/-- R42: a stored cell reads back. -/
theorem memRead_memWrite_self (hw : Memory.wf s.mem = true) (a : Addr) (b : Byte) :
    (s.memWrite a b).memRead a = b := Memory.read_write_self hw a.val b

/-! ## The statements -/

open Laws.DiwOpcode (opc_encode)

/-- Settles O25: past its two checks STORE is one `memWrite`, which reads back at its own address and at no other. -/
theorem storeWritesTheCell : Obligations.StoreWritesTheCell := by
  intro s o1 o2
  refine ⟨opc_encode _, fun e => exec_store_of_register_error, fun k e => exec_store_of_address_error, fun k a hk ha => ?_⟩
  exact ⟨s.memWrite a (s.reg k), exec_store_of_address hk ha, rfl, fun hw => memRead_memWrite_self hw a _,
    fun b hb => Memory.read_write_other s.mem hb _⟩

/-- Settles O23: the destination decides between silence and the source's value or error. -/
theorem movCopiesTheValueOrIsSilent : Obligations.MovCopiesTheValueOrIsSilent := by
  intro s o1 o2
  refine ⟨opc_encode _, exec_mov_of_not_reg, ?_, ?_⟩
  · rintro k v rfl hv
    exact exec_mov_of_value hv
  · rintro k e rfl he
    exact exec_mov_of_value_error he

/-- Settles O24: past its two checks LOAD writes the cell's own pattern, whose signed value never carries
(`writeBack_s8`). -/
theorem loadCopiesTheCell : Obligations.LoadCopiesTheCell := by
  intro s o1 o2
  exact ⟨opc_encode _, fun e => exec_load_of_register_error, fun k e => exec_load_of_address_error,
    fun k a => exec_load_of_address⟩

/-- Settles O33: the LOAD reads the cell the STORE has written (`memRead_memWrite_self`). -/
theorem loadAfterStoreGivesTheValue : Obligations.LoadAfterStoreGivesTheValue := by
  intro s k j a hw
  refine ⟨s.memWrite a (s.reg k), _, exec_store_of_address rfl rfl, exec_load_of_address rfl rfl, ?_⟩
  rw [State.regVal, State.writeResult_reg_self, memRead_memWrite_self hw, State.regVal]

end Sys2Proof.Machine
end

section
/-! PROOF. The rotate and shift family: ROL, ROR, SHL and SHR (O26 to O29), and the round trip of the rotates (O32). -/

namespace Sys2Proof.Machine

/-! ## The shared operation: one equation for each way it ends (R165, R170, R110) -/

section
variable {s : State} {o1 o2 : Operand} {k : RegIdx} {e : RecErr} {op : Opcode} {f : Byte → Nat → Byte} {m : String}

theorem rotShift_of_register_error (hm : op.text = ascii m) (he : reqReg o1 s.text1 = .error e) :
    rotShift op f o1 o2 s = .next (afterError s m e) := by
  simp only [rotShift, he, complete_error hm]

theorem rotShift_of_count_error (hm : op.text = ascii m) (hk : reqReg o1 s.text1 = .ok k)
    (he : value s o2 s.text2 = .error e) : rotShift op f o1 o2 s = .next (afterError s m e) := by
  simp only [rotShift, hk, he, complete_error hm]

theorem rotShift_of_count {v : Int} (hk : reqReg o1 s.text1 = .ok k) (hv : value s o2 s.text2 = .ok v) :
    rotShift op f o1 o2 s = .next (afterRotShift s k (f (s.reg k) (count v))) := by
  simp only [rotShift, hk, hv, complete, writeResult_eq_afterRotShift]

end

/-- On a register and an immediate count no operand can fail. -/
theorem rotShift_reg_imm (op : Opcode) (f : Byte → Nat → Byte) (k : RegIdx) (v : Int) (s : State) :
    rotShift op f (.reg k) (.imm v) s = .next (afterRotShift s k (f (s.reg k) (count v))) := rotShift_of_count rfl rfl

/-! ## The four instructions by their shared operation (R166 to R169) -/

theorem exec_rol (o1 o2 : Operand) (s : State) : exec (.rol o1 o2) s = rotShift .rol rotl o1 o2 s := rfl

theorem exec_ror (o1 o2 : Operand) (s : State) : exec (.ror o1 o2) s = rotShift .ror rotr o1 o2 s := rfl

theorem exec_shl (o1 o2 : Operand) (s : State) : exec (.shl o1 o2) s = rotShift .shl shl o1 o2 s := rfl

theorem exec_shr (o1 o2 : Operand) (s : State) : exec (.shr o1 o2) s = rotShift .shr shr o1 o2 s := rfl

/-! ## The results as numbers (R106) -/

/-- The two halves of a rotated byte: reducing their union modulo 256 trims the left-shifted one only. -/
theorem toNat_shiftLeft_or_ushiftRight (u : Byte) (i j : Nat) :
    (u <<< i ||| u >>> j).toNat = (u.toNat <<< i ||| u.toNat >>> j) % 256 := by
  have hright : u.toNat >>> j < 2 ^ 8 := (Nat.shiftRight_le _ _).trans_lt u.isLt
  rw [BitVec.toNat_or, BitVec.toNat_shiftLeft, BitVec.toNat_ushiftRight, Nat.or_mod_two_pow (n := 8),
    Nat.mod_eq_of_lt hright]

theorem rotl_toNat (u : Byte) (c : Nat) : (rotl u c).toNat = (u.toNat <<< c ||| u.toNat >>> (8 - c)) % 256 :=
  toNat_shiftLeft_or_ushiftRight u c (8 - c)

theorem rotr_toNat (u : Byte) (c : Nat) : (rotr u c).toNat = (u.toNat >>> c ||| u.toNat <<< (8 - c)) % 256 := by
  rw [rotr, BitVec.or_comm, toNat_shiftLeft_or_ushiftRight, Nat.or_comm]

theorem shl_toNat (u : Byte) (c : Nat) : (shl u c).toNat = u.toNat * 2 ^ c % 256 := by
  rw [shl, BitVec.toNat_shiftLeft, Nat.shiftLeft_eq]

/-- The vacated bits are zero, as `2 ^ c` divides 256. -/
theorem shl_toNat_mod (u : Byte) {c : Nat} (hc : c < 8) : (shl u c).toNat % 2 ^ c = 0 := by
  have hdvd : 2 ^ c ∣ 256 := Nat.pow_dvd_pow 2 hc.le
  rw [shl_toNat, Nat.mod_mod_of_dvd _ hdvd, Nat.mul_mod_left]

theorem shr_toNat (u : Byte) (c : Nat) : (shr u c).toNat = u.toNat / 2 ^ c := by
  rw [shr, BitVec.toNat_ushiftRight, Nat.shiftRight_eq_div_pow]

/-- A logical shift by one place or more clears the sign bit. -/
theorem shr_toNat_le (u : Byte) {c : Nat} (hc : c ≠ 0) : (shr u c).toNat ≤ 127 := by
  have htwo : 2 ^ 1 ≤ 2 ^ c := Nat.pow_le_pow_right two_pos (Nat.one_le_iff_ne_zero.mpr hc)
  calc (shr u c).toNat = u.toNat / 2 ^ c := shr_toNat u c
    _ ≤ u.toNat / 2 ^ 1 := Nat.div_le_div_left htwo two_pos
    _ ≤ 127 := by have := u.isLt; omega

/-! ## The rotates against each other (R167) -/

theorem rotl_eq_rotateLeft (u : Byte) {c : Nat} (hc : c < 8) : rotl u c = u.rotateLeft c :=
  (BitVec.rotateLeft_eq_rotateLeftAux_of_lt hc).symm

theorem rotr_eq_rotateRight (u : Byte) {c : Nat} (hc : c < 8) : rotr u c = u.rotateRight c :=
  (BitVec.rotateRight_eq_rotateRightAux_of_lt hc).symm

/-- Bit `i` of the round trip is bit `i` of `u`, whether it went round the end of the byte or not. -/
theorem rotr_rotl (u : Byte) {c : Nat} (hc : c < 8) : rotr (rotl u c) c = u := by
  rw [rotr_eq_rotateRight _ hc, rotl_eq_rotateLeft _ hc]
  have hmod : c % 8 = c := Nat.mod_eq_of_lt hc
  ext i hi
  simp only [BitVec.getElem_rotateRight, BitVec.getElem_rotateLeft, hmod]
  split
  next hstay =>
    rw [dif_neg (by omega)]
    congr 1
    omega
  next hround =>
    rw [dif_pos (by omega)]
    congr 1
    omega

/-- A rotate right by `c` is the rotate left that completes it to 8 places; by 0, both leave the byte. -/
theorem rotr_eq_rotl (u : Byte) {c : Nat} (hc : c < 8) : rotr u c = rotl u ((8 - c) % 8) := by
  rcases Nat.eq_zero_or_pos c with rfl | hpos
  · simp [rotr, rotl, BitVec.ushiftRight_eq_zero]
  · have hmod : (8 - c) % 8 = 8 - c := Nat.mod_eq_of_lt (by omega)
    have hback : 8 - (8 - c) = c := by omega
    rw [hmod, rotr, rotl, hback, BitVec.or_comm]

theorem count_eight_sub (v : Int) : count (8 - v) = (8 - count v) % 8 := by
  unfold count
  omega

/-! ## A register written twice -/

@[simp] theorem afterRotShift_reg_self (s : State) (k : RegIdx) (n : Byte) : (afterRotShift s k n).reg k = n := by
  rw [← writeResult_eq_afterRotShift, State.writeResult_reg_self]

/-- Writing back the byte a register held undoes a write to it. -/
theorem afterRotShift_restore_x (s : State) (k : RegIdx) (n : Byte) :
    (afterRotShift (afterRotShift s k n) k (s.reg k)).x = s.x :=
  (Vector.set_set n k.isLt).trans (Vector.set_getElem_self k.isLt)

/-! ## The statements -/

open Laws.DiwOpcode (opc_encode)

/-- Settles O26: past its two checks ROL writes `rotl`. -/
theorem rolRotatesLeft : Obligations.RolRotatesLeft := by
  intro s o1 o2
  rw [exec_rol]
  exact ⟨opc_encode _, fun e => rotShift_of_register_error rfl, fun k e => rotShift_of_count_error rfl,
    fun k v hk hv => ⟨rotl (s.reg k) (count v), rotl_toNat _ _, rotShift_of_count hk hv⟩⟩

/-- Settles O27: past its two checks ROR writes `rotr`. -/
theorem rorRotatesRight : Obligations.RorRotatesRight := by
  intro s o1 o2
  rw [exec_ror]
  exact ⟨opc_encode _, fun e => rotShift_of_register_error rfl, fun k e => rotShift_of_count_error rfl,
    fun k v hk hv => ⟨rotr (s.reg k) (count v), rotr_toNat _ _, rotShift_of_count hk hv⟩⟩

/-- Settles O28: past its two checks SHL writes `shl`, whose low bits are zero as the count is below 8. -/
theorem shlShiftsLeft : Obligations.ShlShiftsLeft := by
  intro s o1 o2
  rw [exec_shl]
  exact ⟨opc_encode _, fun e => rotShift_of_register_error rfl, fun k e => rotShift_of_count_error rfl,
    fun k v hk hv => ⟨shl (s.reg k) (count v), shl_toNat _ _, shl_toNat_mod _ (count_lt v), rotShift_of_count hk hv⟩⟩

/-- Settles O29: past its two checks SHR writes `shr`, which a non-zero count keeps below 128. -/
theorem shrShiftsRightLogically : Obligations.ShrShiftsRightLogically := by
  intro s o1 o2
  rw [exec_shr]
  exact ⟨opc_encode _, fun e => rotShift_of_register_error rfl, fun k e => rotShift_of_count_error rfl,
    fun k v hk hv => ⟨shr (s.reg k) (count v), shr_toNat _ _, shr_toNat_le _, rotShift_of_count hk hv⟩⟩

/-- Settles O32: the second rotate writes back the byte the register held (`rotr_rotl`), and ROR by `v` and ROL by `8 - v`
write the same byte (`rotr_eq_rotl`). -/
theorem rotateRoundTrip : Obligations.RotateRoundTrip := by
  intro s k v
  simp only [exec_rol, exec_ror, rotShift_reg_imm]
  constructor
  · refine ⟨_, _, rfl, rfl, ?_⟩
    rw [afterRotShift_reg_self, rotr_rotl _ (count_lt v), afterRotShift_restore_x]
  · have hsame : rotr (s.reg k) (count v) = rotl (s.reg k) (count (8 - v)) := by
      rw [count_eight_sub, rotr_eq_rotl _ (count_lt v)]
    exact ⟨_, _, rfl, rfl, by rw [hsame], by rw [hsame]⟩

end Sys2Proof.Machine
end

section
/-! PROOF. The input and output family: INPUT (O30), DISPLAY (O31), a waiting INPUT (O48), and an INPUT from its wait to the
end of its transaction (O60). -/

namespace Sys2Proof

/-! ## The first bytes of decimal text (R191, R192) -/

theorem digitByte_ne_zero {n : Nat} (h0 : n ≠ 0) (h : n < 10) : digitByte n ≠ 0x30#8 := by
  intro he
  have hval : (digitByte n).toNat = 0x30 := congrArg BitVec.toNat he
  rw [digitByte_toNat h] at hval
  omega

/-- No padding: the first digit of a number other than 0 is not 0. -/
theorem decDigits_leading {fuel n : Nat} (hf : n < fuel) (h0 : n ≠ 0) :
    ∃ b r, decDigits fuel n = b :: r ∧ b ≠ 0x30#8 := by
  induction fuel generalizing n with
  | zero => omega
  | succ fuel ih =>
    by_cases h10 : n < 10
    · exact ⟨digitByte n, [], by simp only [decDigits, if_pos h10], digitByte_ne_zero h0 h10⟩
    · obtain ⟨b, r, hr, hb⟩ := ih (n := n / 10) (by omega) (by omega)
      exact ⟨b, r ++ [digitByte (n % 10)], by simp only [decDigits, if_neg h10, hr, List.cons_append], hb⟩

/-- Decimal text that begins with 0 is that of 0. -/
theorem eq_zero_of_decText_cons_zero {n : Nat} {rest : Text} (h : decText n = 0x30#8 :: rest) : n = 0 := by
  by_contra h0
  obtain ⟨b, r, hr, hb⟩ := decDigits_leading (Nat.lt_succ_self n) h0
  exact hb (List.cons.inj (hr.symm.trans h)).1

theorem decSigned_of_neg {v : Int} (h : v < 0) : decSigned v = 0x2D#8 :: decText v.natAbs := if_pos h

theorem decSigned_of_nonneg {v : Int} (h : ¬ v < 0) : decSigned v = decText v.natAbs := if_neg h

theorem decText_ne_minus_cons (n : Nat) (rest : Text) : decText n ≠ 0x2D#8 :: rest := by
  intro h
  have hd : isDigit 0x2D#8 = true := decText_isDigit n _ (by simp [h])
  exact absurd hd (by decide)

theorem decSigned_head_minus (v : Int) : (decSigned v).head? = some 0x2D#8 ↔ v < 0 := by
  by_cases hv : v < 0
  · simp [decSigned_of_neg hv, hv]
  · rw [decSigned_of_nonneg hv, List.head?_eq_some_iff]
    exact iff_of_false (fun ⟨rest, h⟩ => decText_ne_minus_cons _ rest h) hv

theorem decSigned_head_ne_plus (v : Int) : (decSigned v).head? ≠ some 0x2B#8 := by
  intro h
  rcases decSigned_bytes v _ (List.mem_of_head? h) with hd | hd
  · exact absurd hd (by decide)
  · exact absurd hd (by decide)

/-- No padding: signed decimal text begins with the digit 0 only for 0 itself. -/
theorem decSigned_cons_zero {v : Int} {rest : Text} (h : decSigned v = 0x30#8 :: rest) : rest = [] := by
  by_cases hv : v < 0
  · rw [decSigned_of_neg hv] at h
    cases h
  · rw [decSigned_of_nonneg hv] at h
    have h0 : v.natAbs = 0 := eq_zero_of_decText_cons_zero h
    rw [h0] at h
    exact (List.cons.inj h).2.symm

/-- No padding after the sign: a negative number is not 0. -/
theorem decSigned_ne_minus_zero (v : Int) (rest : Text) : decSigned v ≠ 0x2D#8 :: 0x30#8 :: rest := by
  intro h
  by_cases hv : v < 0
  · rw [decSigned_of_neg hv] at h
    have h0 : v.natAbs = 0 := eq_zero_of_decText_cons_zero (List.cons.inj h).2
    omega
  · rw [decSigned_of_nonneg hv] at h
    exact decText_ne_minus_cons _ _ h

end Sys2Proof

namespace Sys2Proof.Machine

variable {s : State} {o1 o2 : Operand} {k : RegIdx} {e : RecErr} {r : InpAnswer}

/-! ## One equation for each way INPUT and DISPLAY end (R180, R181) -/

theorem exec_input_of_register_error (he : reqReg o1 s.text1 = .error e) :
    exec (.input o1 o2) s = .next (afterError s "INPUT" e) := by
  simp only [exec, execInput, he, complete_error (op := .input) (m := "INPUT") rfl]

theorem exec_input_of_register (hk : reqReg o1 s.text1 = .ok k) :
    exec (.input o1 o2) s = .next (requestInput k s) := by
  simp only [exec, execInput, hk, complete]

theorem exec_display_of_register_error (he : reqReg o1 s.text1 = .error e) :
    exec (.display o1 o2) s = .next (afterError s "DISPLAY" e) := by
  simp only [exec, execDisplay, he, complete_error (op := .display) (m := "DISPLAY") rfl]

theorem exec_display_of_register (hk : reqReg o1 s.text1 = .ok k) :
    exec (.display o1 o2) s = .next (s.emitLine (decSigned (s.regVal k))) := by
  simp only [exec, execDisplay, hk, complete]

/-- R180: `s'` is `s` with INPUT into register `k` completed by the answer `r`: END, an integer in range, or another token. -/
def CompletedBy (k : RegIdx) (r : InpAnswer) (s s' : State) : Prop :=
  (r = .eof → s' = afterError s "INPUT" ⟨.inputInvalid, ascii "<EOF>"⟩) ∧
  (∀ b v, r = .token b → numeric b = some v → -32768 ≤ v → v ≤ 32767 → s' = afterWrite s k v) ∧
  (∀ b, r = .token b → (∀ v, numeric b = some v → v < -32768 ∨ 32767 < v) →
    s' = afterError s "INPUT" ⟨.inputInvalid, b⟩)

theorem finishInput_completedBy (k : RegIdx) (r : InpAnswer) (s : State) : CompletedBy k r s (finishInput k r s) := by
  refine ⟨?_, fun b v => ?_, fun b => ?_⟩
  · rintro rfl
    exact finishInput_eof k s
  · rintro rfl hv hlo hhi
    exact finishInput_integer k s b v hv hlo hhi
  · rintro rfl hbad
    exact finishInput_bad k s b hbad

/-! ## The wait of INPUT (R183) -/

/-- The state of a waiting core as it takes the provider's answer: RUNNING again, the landing and the answer used up. -/
def State.resumed (s : State) (rest : List InpAnswer) : State :=
  { s with async := s.async.tail, runState := .running, inp := rest }

/-- The state once a transaction that changed no cell has ended (R103). -/
def State.endedUnchanged (s : State) : State :=
  { s with
    decoded := none, pre := none
    out := s.out ++ [.trace (registerLine s.cfg.radix s.x), .trace (ascii "Memory unchanged")] }

theorem diffLines_self (radix : TraceRadix) (m : Memory) : diffLines radix m m = [ascii "Memory unchanged"] := by
  simp [diffLines, changedCells]

theorem State.settle_of_unchanged (hr : s.runState ≠ .waitInput) (hp : s.pre = some s.mem) :
    s.settle = s.endedUnchanged := by
  rw [State.settle_of_not_waiting hr hp, diffLines_self]
  rfl

theorem coreStep_of_waiting_answered {rest : List InpAnswer} (hr : s.runState = .waitInput)
    (hk : s.pendingInput = some k) (hi : s.inp = r :: rest) :
    coreStep s = .next (finishInput k r { s with runState := .running, inp := rest }).settle := by
  simp only [coreStep, hr, resumeInput, hk, hi]

/-- An answer ends the wait, INPUT completes, and its transaction ends. -/
theorem step_of_waiting_answered {rest : List InpAnswer} (hc : CoreActs s) (hr : s.runState = .waitInput)
    (hk : s.pendingInput = some k) (hp : s.pre = some s.mem) (hi : s.inp = r :: rest) :
    step s = .next (finishInput k r (s.resumed rest)).endedUnchanged := by
  obtain ⟨-, hmem, ⟨-, -, -, hpre, -⟩, -, hrun⟩ := finishInput_frame k r (s.resumed rest)
  have hnot : (finishInput k r (s.resumed rest)).runState ≠ .waitInput := by rw [hrun]; exact nofun
  have hsnap : (finishInput k r (s.resumed rest)).pre = some (finishInput k r (s.resumed rest)).mem := by
    rw [hpre, hmem]
    exact hp
  rw [step_of_coreActs s hc, ← State.settle_of_unchanged hnot hsnap]
  exact coreStep_of_waiting_answered (s := afterQuiet s) hr hk hi

/-- The transaction of an INPUT that got an integer in range (R104, R107, R180). -/
theorem CompletedBy.ended_of_integer {u : State} {b : Text} {v : Int} (h : CompletedBy k (.token b) s u)
    (hv : numeric b = some v) (hlo : -32768 ≤ v) (hhi : v ≤ 32767) :
    u.endedUnchanged.regVal k = (v + 128) % 256 - 128 ∧ u.endedUnchanged.flags = deriveFlags v ∧
    u.endedUnchanged.out = s.out ++
      [.trace (registerLine s.cfg.radix u.endedUnchanged.x), .trace (ascii "Memory unchanged")] := by
  obtain ⟨-, hint, -⟩ := h
  obtain ⟨hval, -⟩ := registerReadsBackTruncated s k v
  rw [hint b v rfl hv hlo hhi, ← writeBack_eq_afterWrite]
  exact ⟨hval, rfl, rfl⟩

/-- The transaction of an INPUT that got END or another token (R110, R180, R200). -/
theorem CompletedBy.ended_of_invalid {u : State} {tok : Text} (h : CompletedBy k r s u)
    (htok : (r = .eof ∧ tok = ascii "<EOF>") ∨
      (r = .token tok ∧ ∀ v, numeric tok = some v → v < -32768 ∨ 32767 < v)) :
    u.endedUnchanged.x = s.x ∧ u.endedUnchanged.flags = s.flags ∧
    u.endedUnchanged.out = s.out ++
      [.trace (ascii "ERROR E_INPUT_INVALID: INPUT " ++ tok), .trace (registerLine s.cfg.radix s.x),
       .trace (ascii "Memory unchanged")] := by
  obtain ⟨heof, -, hbad⟩ := h
  have hu : u = afterError s "INPUT" ⟨.inputInvalid, tok⟩ := by
    rcases htok with ⟨hr, rfl⟩ | ⟨hr, hv⟩
    · exact heof hr
    · exact hbad tok hr hv
  have htext : ascii "ERROR " ++ ascii (errorName .inputInvalid) ++ ascii ": " ++ ascii "INPUT" ++ ascii " " =
      ascii "ERROR E_INPUT_INVALID: INPUT " := by decide
  rw [hu, ← htext]
  refine ⟨rfl, rfl, ?_⟩
  simp only [State.endedUnchanged, afterError, List.append_assoc, List.singleton_append]

/-- The answer to the outstanding request lands. -/
theorem step_of_token_landing {rest : List AsyncInput} (hr : s.runState = .waitInput) (hi : s.inp = [])
    (ha : s.async = .tokenAnswer s.resets r :: rest) : step s = .next { s with async := rest, inp := [r] } := by
  simp only [step, runStep, ha]
  rw [State.landToken_taken (s := { s with async := rest }) r hr hi]

/-- The state in which INPUT, decoded as `d` from a consumed line, waits for its answer. -/
def State.inputAsked (s : State) (d : Decoded) (more : List SrcAnswer) : State :=
  { s with
    async := s.async.tail, src := more, lineReq := false, pc := s.pc + 1, runState := .waitInput
    decoded := some d, pre := some s.mem
    out := s.out ++ lineRequest s ++ [.trace (headerLine (s.pc + 1) .input d)] ++ [.nextToken] }

/-- A line with INPUT and no answer ready: the line is counted, the request sent, and the core waits (R102, R103, R183). -/
theorem step_of_unanswered_input {l : Text} {more : List SrcAnswer} {d : Decoded} (hc : CoreActs s) (hd : LineDue s)
    (hi : s.inp = []) (hsrc : s.src = .line l :: more) (hl : decodeLine s.cfg.lineMax l = .instr d)
    (hdiw : decodeDiw d.diw = some (.input (.reg k) o2)) : step s = .next (s.inputAsked d more) := by
  have hexec : exec (.input (.reg k) o2) (State.beginInstr { s.answeredNow more with pc := s.pc + 1 } .input d) =
      .next (s.inputAsked d more) :=
    (exec_input_of_register rfl).trans (congrArg _ (requestInput_nil k hi))
  rw [step_of_answer hc hd hsrc, takeAnswer, consumeLine_of_exec (s := s.answeredNow more) hl hdiw hexec,
    State.settle_of_waiting rfl]

theorem State.inputAsked_pendingInput {d : Decoded} (hdiw : decodeDiw d.diw = some (.input (.reg k) o2))
    (more : List SrcAnswer) : (s.inputAsked d more).pendingInput = some k := by
  have hdec : (s.inputAsked d more).decoded = some d := rfl
  simp only [State.pendingInput, hdec, hdiw]

/-! ## The statements -/

open Laws.DiwOpcode (opc_encode)

/-- Settles O30: past the register's check INPUT waits, or takes one answer and is completed by it
(`finishInput_completedBy`). -/
theorem inputReadsOneToken : Obligations.InputReadsOneToken := by
  intro s o1 o2
  refine ⟨opc_encode _, fun e => exec_input_of_register_error, fun k hk => ?_⟩
  rw [exec_input_of_register hk]
  refine ⟨fun hi => congrArg _ (requestInput_nil k hi), fun r rest hi => ?_⟩
  intro s1
  have htaken : s.tokenTaken = s1 := by rw [State.tokenTaken, hi]; rfl
  have hreq : requestInput k s = finishInput k r s1 := by rw [requestInput_cons k hi, htaken]
  obtain ⟨heof, hint, hbad⟩ := finishInput_completedBy k r s1
  rw [hreq]
  exact ⟨fun h => congrArg _ (heof h), fun b v h hv hlo hhi => congrArg _ (hint b v h hv hlo hhi),
    fun b h hv => congrArg _ (hbad b h hv)⟩

/-- Settles O31: the line is `decSigned` of the register's value. -/
theorem displayEmitsSignedDecimal : Obligations.DisplayEmitsSignedDecimal := by
  intro s o1 o2
  refine ⟨opc_encode _, fun e => exec_display_of_register_error, fun k hk => ?_⟩
  exact ⟨decSigned (s.regVal k), exec_display_of_register hk, numeric_decSigned _, decSigned_head_minus _,
    decSigned_head_ne_plus _, fun _ => decSigned_cons_zero, decSigned_ne_minus_zero _⟩

/-- Settles O48: one equation for the waiting step, the landing, and the completing step; the invariant gives the
snapshot. -/
theorem waitingInputCompletesOnAnswer : Obligations.WaitingInputCompletesOnAnswer := by
  intro s k hs hr hk
  obtain ⟨-, hpre, -⟩ := (inv_of_waiting hr).mp hs
  refine ⟨fun hc hi => ?_, fun r rest => step_of_token_landing hr, fun hc r rest hi => ?_⟩
  · rw [step_of_coreActs s hc]
    exact coreStep_of_waiting (s := afterQuiet s) hs hr hi
  · exact ⟨finishInput k r (s.resumed rest), step_of_waiting_answered hc hr hk hpre hi,
      finishInput_completedBy k r (s.resumed rest)⟩

/-- Settles O60: INPUT asks, its answer lands, and the answered wait ends; the last two clauses are those of
`CompletedBy`. -/
theorem unansweredInputWaitsIsAnsweredAndRunsOn : Obligations.UnansweredInputWaitsIsAnsweredAndRunsOn := by
  intro s l more d k o2 r rest hdue hi hsrc hl hdiw ha
  let a := s.inputAsked d more
  let b : State := { a with async := .quiet :: rest, inp := [r] }
  have hquiet : a.async = .tokenAnswer a.resets r :: .quiet :: rest := congrArg List.tail ha
  have hpend : a.pendingInput = some k := State.inputAsked_pendingInput hdiw more
  have hask : step s = .next a := step_of_unanswered_input (.inr ⟨_, ha⟩) hdue hi hsrc hl hdiw
  have hland : step a = .next b := step_of_token_landing rfl hi hquiet
  have hresume : step b = .next (finishInput k r (b.resumed [])).endedUnchanged :=
    step_of_waiting_answered (.inr ⟨_, rfl⟩) rfl hpend rfl rfl
  have hdone : CompletedBy k r (b.resumed []) (finishInput k r (b.resumed [])) := finishInput_completedBy k r _
  obtain ⟨hreg, hmem, ⟨hpc, -, -, -, -, hsrc', -, hasync, -⟩, hinp, hrun⟩ := finishInput_frame k r (b.resumed [])
  refine ⟨a, b, _, hask, hland, hresume, rfl, hpend, List.getLast?_concat, rfl, rfl, hrun, hinp, hsrc', hasync, hpc,
    sameMemory_of_mem_eq hmem, hreg, ?_, fun tok htok => hdone.ended_of_invalid htok⟩
  rintro t v rfl hv hlo hhi
  exact hdone.ended_of_integer hv hlo hhi

end Sys2Proof.Machine
end

section
/-! PROOF. The trace formatter: the output only grows (O58), the memory diff (O42), and the layout of bytes, lines and the
dump record (O43, O44). -/

namespace Sys2Proof.Machine

/-! ## The output, the parameters and the count of resets (R5, R190, R230) -/

/-- What lands at the next step is a reset, between two actions of the core or inside one (R230). -/
def ResetLands (s : State) : Prop :=
  (∃ rest, s.async = .rst :: rest) ∨ ∃ n rest, s.async = .rstDuring n :: rest

/-- `t` comes after `s` in one run: its output extends that of `s`, under the same parameters (R5, R190). -/
def Extends (s t : State) : Prop := s.out <+: t.out ∧ t.cfg = s.cfg

theorem coreStep_extends {s t : State} (h : coreStep s = .next t) : Extends s t := by
  obtain ⟨⟨m, hout⟩, -, -, hcfg, -⟩ := coreStep_out h
  exact ⟨⟨m, hout.symm⟩, hcfg⟩

/-- An abandoned action keeps some of its outputs, after all those from before it (R230). -/
theorem abandonAfter_extends (s : State) {t : State} (h : t.cfg = s.cfg) (n : Nat) : Extends s (s.abandonAfter t n) :=
  ⟨⟨_, rfl⟩, h⟩

/-- A step extends the run, and adds one to the count of resets exactly where a reset lands. -/
theorem step_extends {s t : State} (h : step s = .next t) :
    Extends s t ∧ ((ResetLands s ∧ t.resets = s.resets + 1) ∨ (¬ ResetLands s ∧ t.resets = s.resets)) := by
  have hsame : Extends s s := ⟨List.prefix_rfl, rfl⟩
  have hcore : ∀ {rest u}, coreStep { s with async := rest } = .next u → Extends s u ∧ u.resets = s.resets :=
    fun hu => ⟨(coreStep_extends hu :), (coreStep_resets hu :)⟩
  rcases step_next h with ⟨ha, hc⟩ | ⟨rest, ha, hc⟩ | ⟨rest, ha, rfl⟩ | ⟨rest, ha, rfl⟩ | ⟨n, rest, u, ha, hc, rfl⟩ |
    ⟨n, a, rest, ha, rfl⟩ | ⟨n, r, rest, ha, rfl⟩
  · exact ⟨coreStep_extends hc, .inr ⟨by simp [ResetLands, ha], coreStep_resets hc⟩⟩
  · obtain ⟨hext, hres⟩ := hcore hc
    exact ⟨hext, .inr ⟨by simp [ResetLands, ha], hres⟩⟩
  · exact ⟨hsame, .inr ⟨by simp [ResetLands, ha], rfl⟩⟩
  · exact ⟨hsame, .inl ⟨.inl ⟨rest, ha⟩, rfl⟩⟩
  · obtain ⟨⟨-, hcfg⟩, hres⟩ := hcore hc
    exact ⟨abandonAfter_extends { s with async := rest } hcfg n, .inl ⟨.inr ⟨n, rest, ha⟩, congrArg (· + 1) hres⟩⟩
  · exact ⟨hsame, .inr ⟨by simp [ResetLands, ha], rfl⟩⟩
  · exact ⟨hsame, .inr ⟨by simp [ResetLands, ha], rfl⟩⟩

/-- Settles O58: a step extends the run, and the two outcomes for the count differ by whether a reset lands
(`step_extends`). -/
theorem outputIsAppendOnly : Obligations.OutputIsAppendOnly := by
  intro s t h
  obtain ⟨⟨hout, hcfg⟩, ⟨hland, hres⟩ | ⟨hno, hres⟩⟩ := step_extends h
  · exact ⟨hout, hcfg, by omega, by omega, iff_of_true hres hland⟩
  · exact ⟨hout, hcfg, by omega, by omega, iff_of_false (by omega) hno⟩

/-! ## The memory diff (R194) -/

theorem mem_changedCells {pre now : Memory} {a : Nat} :
    a ∈ changedCells pre now ↔ a < 64 ∧ Memory.read now a ≠ Memory.read pre a := by
  simp [changedCells]

theorem changedCells_ascending (pre now : Memory) : (changedCells pre now).Pairwise (· < ·) :=
  List.pairwise_lt_range.filter _

theorem diffLines_of_unchanged {pre now : Memory} (h : changedCells pre now = []) (radix : TraceRadix) :
    diffLines radix pre now = [ascii "Memory unchanged"] := by
  rw [diffLines, h]

theorem diffLines_of_changed {pre now : Memory} (h : changedCells pre now ≠ []) (radix : TraceRadix) :
    diffLines radix pre now = (changedCells pre now).map (diffLine radix now) := by
  obtain ⟨a, as, ha⟩ := List.exists_cons_of_ne_nil h
  rw [diffLines, ha]

/-- One write changes at most the cell it names (R42). -/
theorem changedCells_write_length (m : Memory) (a : Nat) (b : Byte) :
    (changedCells m (Memory.write m a b)).length ≤ 1 := by
  have hnodup : (changedCells m (Memory.write m a b)).Nodup := (changedCells_ascending _ _).imp Nat.ne_of_lt
  have hsub : changedCells m (Memory.write m a b) ⊆ [a] := fun c hc =>
    List.mem_singleton.mpr (Memory.read_write_ne (mem_changedCells.mp hc).2)
  exact (hnodup.subperm hsub).length_le

/-- One instruction changes at most one cell (R43): it leaves memory alone, or is a STORE's one write (`exec_mem`). -/
theorem exec_changedCells_length {i : Instr} {s t : State} (h : exec i s = .next t) :
    (changedCells s.mem t.mem).length ≤ 1 := by
  rcases exec_mem h with hmem | ⟨k, o2, a, -, -, hmem⟩
  · simp [changedCells_same s t hmem]
  · rw [hmem]
    exact changedCells_write_length _ _ _

/-- Settles O42, clause by clause. -/
theorem memoryDiffListsTheChangedCell : Obligations.MemoryDiffListsTheChangedCell :=
  ⟨fun _ _ _ => mem_changedCells, changedCells_ascending, fun radix _ _ h => diffLines_of_unchanged h radix,
    fun radix _ _ h => diffLines_of_changed h radix, fun _ _ _ => exec_changedCells_length⟩

/-! ## One byte (R196) -/

theorem hexDigit_eq_getD : ∀ n < 16, hexDigit n = (ascii "0123456789ABCDEF").getD n 0#8 := by decide

theorem digitByte_eq_getD : ∀ n < 10, digitByte n = (ascii "0123456789").getD n 0#8 := by decide

/-- Fuel above the number makes no difference to its digits. -/
theorem decDigits_fuel {f g n : Nat} (hf : n < f) (hg : n < g) : decDigits f n = decDigits g n := by
  induction f generalizing g n with
  | zero => omega
  | succ f ih =>
    obtain ⟨g, rfl⟩ := Nat.exists_eq_succ_of_ne_zero (Nat.ne_zero_of_lt hg)
    simp only [decDigits]
    split
    · rfl
    · rw [ih (g := g) (by omega) (by omega)]

theorem decText_of_lt_ten {n : Nat} (h : n < 10) : decText n = [digitByte n] := if_pos h

/-- The last decimal digit of a number of ten or more. -/
theorem decText_of_ten_le {n : Nat} (h : 10 ≤ n) : decText n = decText (n / 10) ++ [digitByte (n % 10)] := by
  have hstep : decText n = decDigits n (n / 10) ++ [digitByte (n % 10)] := if_neg (by omega)
  rw [hstep, decText, decDigits_fuel (g := n / 10 + 1) (by omega) (by omega)]

/-- With the radix 10 a byte below 100 has two digits, the first a zero below ten (R196). -/
theorem hh_dec_of_lt_hundred {b : Byte} (h : b.toNat < 100) :
    hh .dec b = [digitByte (b.toNat / 10), digitByte (b.toNat % 10)] := by
  by_cases h10 : b.toNat < 10
  · have hpad : hh .dec b = 0x30#8 :: decText b.toNat := if_pos h10
    rw [hpad, decText_of_lt_ten h10, Nat.div_eq_of_lt h10, Nat.mod_eq_of_lt h10]
    rfl
  · have hdec : hh .dec b = decText b.toNat := if_neg h10
    rw [hdec, decText_of_ten_le (by omega), decText_of_lt_ten (by omega)]
    rfl

/-- With the radix 10 a byte from 100 on has three digits (R196). -/
theorem hh_dec_of_hundred_le {b : Byte} (h : 100 ≤ b.toNat) :
    hh .dec b = [digitByte (b.toNat / 100), digitByte (b.toNat / 10 % 10), digitByte (b.toNat % 10)] := by
  have hb := b.isLt
  have hdec : hh .dec b = decText b.toNat := if_neg (by omega)
  have hten : decText (b.toNat / 10) = [digitByte (b.toNat / 100), digitByte (b.toNat / 10 % 10)] := by
    rw [decText_of_ten_le (by omega), decText_of_lt_ten (by omega), Nat.div_div_eq_div_mul]
    rfl
  rw [hdec, decText_of_ten_le (by omega), hten]
  rfl

/-! ## Lines of bytes (R193, R197) -/

/-- The texts with a space after each. -/
def spaced (ts : List Text) : Text := ts.flatMap (· ++ [0x20#8])

theorem spaced_cons (t : Text) (ts : List Text) : spaced (t :: ts) = t ++ 0x20#8 :: spaced ts := by simp [spaced]

theorem joinSpace_cons {ts : List Text} (h : ts ≠ []) (t : Text) : joinSpace (t :: ts) = t ++ 0x20#8 :: joinSpace ts := by
  obtain ⟨u, us, rfl⟩ := List.exists_cons_of_ne_nil h
  rfl

/-- All texts but the last are followed by a space. -/
theorem joinSpace_concat (ts : List Text) (t : Text) : joinSpace (ts ++ [t]) = spaced ts ++ t := by
  induction ts with
  | nil => rfl
  | cons u us ih => simp [joinSpace_cons, spaced_cons, ih]

/-- A space after the last text as well. -/
theorem joinSpace_append_space {ts : List Text} (h : ts ≠ []) (r : Text) : joinSpace ts ++ 0x20#8 :: r = spaced ts ++ r := by
  obtain ⟨us, u, rfl⟩ := List.eq_nil_or_concat ts |>.resolve_left h
  simp [joinSpace_concat, spaced]

/-- The register line is its bytes, each followed by a space, and the closing mark (R193). -/
theorem registerLine_eq_spaced (radix : TraceRadix) (x : Vector Byte 8) :
    registerLine radix x = spaced (x.toList.map (hh radix)) ++ ascii "#" :=
  joinSpace_append_space (List.ne_nil_of_length_pos (by simp)) (ascii "#")

/-- The byte in column `j` of row `r` of the memory dump (R197). -/
def memCell (radix : TraceRadix) (m : Memory) (r j : Nat) : Text := hh radix (Memory.read m (8 * r + j))

/-- A memory row is seven bytes, each followed by a space, and the eighth (R197). -/
theorem memRow_eq_spaced (radix : TraceRadix) (m : Memory) (r : Nat) :
    memRow radix m r = spaced ((List.range 7).map (memCell radix m r)) ++ memCell radix m r 7 :=
  joinSpace_concat ((List.range 7).map (memCell radix m r)) (memCell radix m r 7)

section
/-! A line of two-digit bytes, each with its space, and a rest: where each part stands. -/
variable {ts : List Text}

theorem spaced_length (h : ∀ t ∈ ts, t.length = 2) : (spaced ts).length = 3 * ts.length := by
  induction ts with
  | nil => rfl
  | cons t ts ih =>
    obtain ⟨ht, hts⟩ := List.forall_mem_cons.mp h
    simp only [spaced_cons, List.length_append, List.length_cons, ht, ih hts]
    omega

/-- The byte at place `k` and its space are the three characters from `3 * k` on. -/
theorem spaced_chunk (h : ∀ t ∈ ts, t.length = 2) {k : Nat} (hk : k < ts.length) (r : Text) :
    ((spaced ts ++ r).drop (3 * k)).take 3 = ts[k] ++ [0x20#8] := by
  induction ts generalizing k with
  | nil => exact absurd hk (Nat.not_lt_zero k)
  | cons t ts ih =>
    obtain ⟨ht, hts⟩ := List.forall_mem_cons.mp h
    have hsplit : spaced (t :: ts) ++ r = (t ++ [0x20#8]) ++ (spaced ts ++ r) := by simp [spaced_cons]
    have hlen : (t ++ [0x20#8]).length = 3 := by simp [ht]
    rw [hsplit]
    cases k with
    | zero => exact List.take_left' hlen
    | succ k =>
      rw [Nat.mul_succ, Nat.add_comm, ← List.drop_drop, List.drop_left' hlen]
      exact ih hts (Nat.lt_of_succ_lt_succ hk)

/-- What follows the bytes. -/
theorem spaced_drop (h : ∀ t ∈ ts, t.length = 2) (r : Text) : (spaced ts ++ r).drop (3 * ts.length) = r :=
  List.drop_left' (spaced_length h)

end

theorem hexRegisters_length (x : Vector Byte 8) : ∀ t ∈ x.toList.map (hh .hex), t.length = 2 := by
  simp [hh]

theorem hexCells_length (m : Memory) (r n : Nat) : ∀ t ∈ (List.range n).map (memCell .hex m r), t.length = 2 := by
  simp [memCell, hh]

theorem registerLine_length (x : Vector Byte 8) : (registerLine .hex x).length = 25 := by
  rw [registerLine_eq_spaced, List.length_append, spaced_length (hexRegisters_length x), List.length_map, Vector.length_toList]
  rfl

theorem registerLine_chunk (x : Vector Byte 8) (k : RegIdx) :
    ((registerLine .hex x).drop (3 * k.val)).take 3 = hh .hex (x.get k) ++ ascii " " := by
  rw [registerLine_eq_spaced, spaced_chunk (hexRegisters_length x) (by simp)]
  simp [Vector.get_eq_getElem, ascii_space]

theorem registerLine_drop (x : Vector Byte 8) : (registerLine .hex x).drop 24 = ascii "#" := by
  have h := spaced_drop (hexRegisters_length x) (ascii "#")
  rwa [List.length_map, Vector.length_toList, ← registerLine_eq_spaced] at h

theorem memRow_length (m : Memory) (r : Nat) : (memRow .hex m r).length = 23 := by
  rw [memRow_eq_spaced, List.length_append, spaced_length (hexCells_length m r 7), List.length_map, List.length_range]
  rfl

theorem memRow_chunk (m : Memory) (r : Nat) (j : Fin 8) :
    ((memRow .hex m r).drop (3 * j.val)).take 3 =
      hh .hex (Memory.read m (8 * r + j.val)) ++ if j = 7 then [] else ascii " " := by
  rw [memRow_eq_spaced]
  by_cases hj : j = 7
  · subst hj
    have h := spaced_drop (hexCells_length m r 7) (memCell .hex m r 7)
    rw [List.length_map, List.length_range] at h
    exact congrArg (List.take 3) h
  · have hlt : j.val < 7 := by omega
    rw [spaced_chunk (hexCells_length m r 7) (by simpa using hlt), if_neg hj, ascii_space]
    simp [memCell]

/-- Settles O43: the digits as the tables list them, and the two lengths. -/
theorem hexTraceLayout : Obligations.HexTraceLayout := by
  refine ⟨rfl, fun b => ?_, registerLine_length, memRow_length, fun b => ?_⟩
  · have hb := b.isLt
    rw [← hexDigit_eq_getD _ (by omega), ← hexDigit_eq_getD _ (by omega)]
    rfl
  · intro digit
    have hb := b.isLt
    have hdigit : ∀ n < 10, digit n = digitByte n := fun n hn => (digitByte_eq_getD n hn).symm
    refine ⟨fun h => ?_, fun h => ?_⟩
    · rw [hdigit _ (by omega), hdigit _ (by omega), hh_dec_of_lt_hundred h]
    · rw [hdigit _ (by omega), hdigit _ (by omega), hdigit _ (by omega), hh_dec_of_hundred_le h]

/-! ## The dump record (R197) -/

theorem flagText_eq (b : Bool) : flagText b = [if b then 0x31#8 else 0x30#8] := by cases b <;> rfl

/-- The memory rows are lines 5 to 12. -/
theorem dumpRecord_getD_row (s : State) (r : Fin 8) : (dumpRecord s).getD (5 + r.val) [] = memRow s.cfg.radix s.mem r.val := by
  simp [dumpRecord, Nat.add_comm 5, List.getElem?_append]

/-- Settles O44, line by line: the register line and the memory rows by their chunks. -/
theorem dumpRecordLayout : Obligations.DumpRecordLayout := by
  intro s hradix d
  have hregs : d.getD 0 [] = registerLine .hex s.x := congrArg (registerLine · s.x) hradix
  have hrow : ∀ r : Fin 8, d.getD (5 + r.val) [] = memRow .hex s.mem r.val := fun r => hradix ▸ dumpRecord_getD_row s r
  refine ⟨rfl, fun k => ?_, ?_, ?_, rfl, rfl, rfl, fun r => ?_, rfl⟩
  · rw [hregs, registerLine_chunk]
  · rw [hregs, registerLine_drop]
  · have hflags : d.getD 1 [] = joinSpace [flagText s.flags.c, flagText s.flags.o, flagText s.flags.u, flagText s.flags.z] := rfl
    simp only [hflags, flagText_eq]
    rfl
  · rw [hrow]
    exact ⟨memRow_length _ _, memRow_chunk _ _⟩

end Sys2Proof.Machine
end

section
/-! PROOF. Reset (R230, R231): what `rst` leaves between two actions of the core and inside one (O53, O54). -/

namespace Sys2Proof.Machine

/-! ## The step in which `rst` or an answer lands (R230, R231) -/

section Landings
variable {s : State} {rest : List AsyncInput} {n : Nat}

theorem step_of_rst (h : s.async = .rst :: rest) : step s = .next (State.applyReset { s with async := rest }) := by
  simp only [step, runStep, h]

theorem step_of_rstDuring {u : State} (h : s.async = .rstDuring n :: rest)
    (hu : coreStep { s with async := rest } = .next u) :
    step s = .next (State.abandonAfter { s with async := rest } u n).applyReset := by
  simp only [step, runStep, h, hu]

theorem step_of_lineAnswer {a : SrcAnswer} (h : s.async = .lineAnswer n a :: rest) :
    step s = .next (State.landLine { s with async := rest } n a) := by
  simp only [step, runStep, h]

theorem step_of_tokenAnswer {r : InpAnswer} (h : s.async = .tokenAnswer n r :: rest) :
    step s = .next (State.landToken { s with async := rest } n r) := by
  simp only [step, runStep, h]

end Landings

/-! ## Reset between two actions (R35, R230, R231) -/

/-- With the all-zero image, the registers and cells after `rst` are those of the reset state (R35). -/
theorem applyReset_zero {s : State} (h : s.cfg.image = ResetImage.zero) :
    (∀ k, s.applyReset.regVal k = 0) ∧ (∀ a : Nat, Memory.read s.applyReset.mem a = 0#8) := by
  have hx : s.applyReset.x = State.reset.x := congrArg ResetImage.x h
  have hm : s.applyReset.mem = State.reset.mem := congrArg ResetImage.mem h
  obtain ⟨hreg, hcell, -⟩ := resetStateIsZero
  refine ⟨fun k => ?_, fun a => ?_⟩
  · rw [← hreg k, State.regVal, State.reg, hx]
    rfl
  · rw [hm, hcell]

/-- Settles O53: the fields of `applyReset` at the all-zero image, and that an answer of another era, or to no request, is
lost where it lands. -/
theorem resetRestoresEveryState : Obligations.ResetRestoresEveryState := by
  refine ⟨fun s rest h himage => ?_, fun s n a rest h hlost => ?_, fun s n r rest h hlost => ?_⟩
  · obtain ⟨hreg, hcell⟩ := applyReset_zero (s := { s with async := rest }) himage
    refine ⟨_, step_of_rst h, hreg, hcell, congrArg ResetImage.flags himage, congrArg ResetImage.pc himage,
      rfl, rfl, rfl, rfl, rfl, rfl, rfl, rfl, ?_⟩
    simp
  · rw [step_of_lineAnswer h, State.landLine_lost { s with async := rest } a (hlost.imp_left Nat.ne_of_lt)]
  · rw [step_of_tokenAnswer h, State.landToken_lost { s with async := rest } r (hlost.imp_left Nat.ne_of_lt)]

/-! ## Reset inside an action (R230; log 25) -/

section Abandoned
variable {s u : State}

/-- The outputs kept are the first `n` of those the action sends. -/
theorem abandonAfter_out {sent : List Output} (h : u.out = s.out ++ sent) (n : Nat) :
    (s.abandonAfter u n).out = s.out ++ sent.take n := by
  simp [State.abandonAfter, h]

/-- What the action took from the loader is kept or undone as a whole (log 25). -/
theorem abandonAfter_src (s u : State) (n : Nat) :
    (s.abandonAfter u n).src = u.src ∨ (s.abandonAfter u n).src = s.src :=
  ite_eq_or_eq ..

/-- What the action took from the provider is kept or undone as a whole (log 25). -/
theorem abandonAfter_inp (s u : State) (n : Nat) :
    (s.abandonAfter u n).inp = u.inp ∨ (s.abandonAfter u n).inp = s.inp :=
  ite_eq_or_eq ..

/-- The loader loses at most one answer: the reset drops one only for a request still outstanding, and then the action has
taken none (`coreStep_outstanding`). -/
theorem abandonAfter_applyReset_src (h : coreStep s = .next u) (n : Nat) :
    (s.abandonAfter u n).applyReset.src = s.src ∨ (s.abandonAfter u n).applyReset.src = s.src.tail := by
  obtain ⟨-, htaken, -⟩ := coreStep_out h
  obtain ⟨houtstanding, -⟩ := coreStep_outstanding h
  have hreq : (s.abandonAfter u n).lineReq = u.lineReq := rfl
  rw [State.applyReset_src, hreq]
  split
  · rename_i hl
    have hsame : (s.abandonAfter u n).src = s.src := by
      rcases abandonAfter_src s u n with hk | hk
      · exact hk.trans (houtstanding hl)
      · exact hk
    exact .inr (congrArg List.tail hsame)
  · rcases abandonAfter_src s u n with hk | hk <;> rw [hk]
    · exact htaken
    · exact .inl rfl

/-- The provider loses at most one answer: the reset drops one only in WAIT_INPUT, and then the action has left none to
drop (`coreStep_outstanding`). -/
theorem abandonAfter_applyReset_inp (h : coreStep s = .next u) (n : Nat) :
    (s.abandonAfter u n).applyReset.inp = s.inp ∨ (s.abandonAfter u n).applyReset.inp = s.inp.tail := by
  obtain ⟨-, -, htaken, -⟩ := coreStep_out h
  obtain ⟨-, houtstanding⟩ := coreStep_outstanding h
  have hrun : (s.abandonAfter u n).runState = u.runState := rfl
  rw [State.applyReset_inp, hrun]
  split
  · rename_i hw
    have hnone : u.inp = [] := houtstanding (beq_iff_eq.mp hw)
    rcases abandonAfter_inp s u n with hk | hk <;> rw [hk]
    · have htail : u.inp.tail = u.inp := by rw [hnone, List.tail_nil]
      rw [htail]
      exact htaken
    · exact .inr rfl
  · rcases abandonAfter_inp s u n with hk | hk <;> rw [hk]
    · exact htaken
    · exact .inl rfl

end Abandoned

/-- Settles O54: the state is `applyReset` of the abandoned action, whose parameters are those of before (`coreStep_out`). -/
theorem resetInsideACycleAbandonsIt : Obligations.ResetInsideACycleAbandonsIt := by
  intro s u n rest h hu
  obtain ⟨⟨sent, hsent⟩, -, -, hcfg, -⟩ := coreStep_out hu
  have himage : u.cfg.image = s.cfg.image := congrArg Config.image hcfg
  exact ⟨_, step_of_rstDuring h hu, congrArg ResetImage.x himage, congrArg ResetImage.mem himage,
    congrArg ResetImage.flags himage, congrArg ResetImage.pc himage, rfl, rfl, rfl, rfl,
    ⟨sent, hsent, abandonAfter_out hsent n⟩, abandonAfter_applyReset_src hu n, abandonAfter_applyReset_inp hu n⟩

end Sys2Proof.Machine
end

section
/-! PROOF. The worked encodings (30_encoding.md section 5): what a line's tokens and their classes say of its record and its DIW (O5). -/

namespace Sys2Proof.Machine

/-- A line with a mnemonic and at most two operand tokens decodes to their record `d`, and the DIW of `d` to the opcode
with the operands that the texts of `d` classify as (R67 to R71, R75). -/
theorem decode_of_tokens {l : Text} {d : Decoded} {o1 o2 : Operand} (op : Opcode) (args : List Text)
    (h : tokens (normalise l) = op.text :: args ∧ args.length ≤ 2 ∧ decodeTokens op (args.length + 1) args = d ∧
      classify d.t1 = o1 ∧ classify d.t2 = o2) :
    decodeLine none l = .instr d ∧ decodeDiw d.diw = some (Instr.make op o1 o2) := by
  obtain ⟨htok, hn, rfl, rfl, rfl⟩ := h
  exact ⟨decodeLine_eq_instr rfl htok hn, decodeDiw_decodeTokens op _ args⟩

/-- Settles O5, row by row by `decode_of_tokens`: its mnemonic and operand tokens are those of the table's second column. -/
theorem workedEncodingsDecode : Obligations.WorkedEncodingsDecode :=
  ⟨decode_of_tokens .mov [ascii "5", ascii "R0"] (by decide),
   decode_of_tokens .add [ascii "R0", ascii "R1"] (by decide),
   decode_of_tokens .div [ascii "R0", ascii "R1"] (by decide),
   decode_of_tokens .sub [ascii "-1", ascii "R7"] (by decide),
   decode_of_tokens .load [ascii "[10]", ascii "R3"] (by decide),
   decode_of_tokens .store [ascii "R2", ascii "[R1]"] (by decide),
   decode_of_tokens .rol [ascii "R0", ascii "3"] (by decide),
   decode_of_tokens .inc [ascii "R9"] (by decide),
   decode_of_tokens .display [ascii "R0"] (by decide),
   decode_of_tokens .input [ascii "R4"] (by decide),
   decode_of_tokens .mov [ascii "[70]", ascii "R0"] (by decide),
   decode_of_tokens .add [ascii "40000", ascii "R0"] (by decide)⟩

end Sys2Proof.Machine
end
